-- ==== Sys2Proof/Syntax.lean ====
section
/-! DEFINITION. The command set HUF-CMD version 1: one constructor per row of the opcode map (30_encoding.md R92).
A command has no operand field (R90), so no constructor has an argument. -/

namespace Sys2Proof

/-- The nine commands (R92). -/
inductive Instr where
  /-- ENCODE 0x01: compress IN_BUF into a container (44_container_codec.md R230). -/
  | encode
  /-- DECODE 0x02: decompress the container in IN_BUF (R240). -/
  | decode
  /-- COUNT 0x10: count the symbols of IN_BUF (40_frequency_analyzer.md R130). -/
  | count
  /-- BUILD_TREE 0x11: build the canonical tree of FREQ (41_tree_builder.md R147). -/
  | buildTree
  /-- GEN_CODES 0x12: derive the code table of the tree (42_code_table.md R167). -/
  | genCodes
  /-- PACK 0x13: pack IN_BUF with the code table (43_bit_packer.md R183). -/
  | pack
  /-- UNPACK 0x14: decode the packed payload in IN_BUF (R194). -/
  | unpack
  /-- SER_TABLE 0x15: write the table text of FREQ (44_container_codec.md R211). -/
  | serTable
  /-- PARSE_TABLE 0x16: load FREQ from a table text (R222). -/
  | parseTable
  deriving DecidableEq, Repr

end Sys2Proof
end

