-- ==== Sys2Proof/Word.lean ====
section
/-! DEFINITION. The value types of the block: bytes, 32-bit words and bit strings (00_scope.md R9 to R11). -/

namespace Sys2Proof

/-- A symbol, and one byte of a buffer (R8: SYM_W = 8). -/
abbrev Byte := BitVec 8

/-- A register, a command word, the data of a 4-byte bus access (R8: register width 32). -/
abbrev Word := BitVec 32

/-- A bit string in the order its bits are produced or consumed, first bit at the head (R10). -/
abbrev Bits := List Bool

end Sys2Proof
end

