-- ==== Sys2Proof/Decode.lean ====
section
/-! DEFINITION. Decoding a command word, total on every word and rejecting by name, and after it the encoder
(30_encoding.md R90 to R96). Decode looks at the whole word (R91). -/

namespace Sys2Proof

/-- Why a command word is illegal (R91, R95). -/
inductive DecodeError where
  /-- The reserved field, bits 31:8, is not 0. -/
  | reservedField
  /-- The opcode, bits 7:0, is none of the nine of R92. -/
  | reservedOpcode
  deriving DecidableEq, Repr

/-- The OP field, bits 7:0 of a command word (R90). -/
def opField (w : Word) : Byte := w.extractLsb' 0 8

/-- The RSVD field, bits 31:8 of a command word (R90). -/
def rsvdField (w : Word) : BitVec 24 := w.extractLsb' 8 24

/-- The opcode map of R92, row by row. -/
def opcodeMap : List (Byte × Instr) :=
  [(0x01, .encode), (0x02, .decode), (0x10, .count), (0x11, .buildTree), (0x12, .genCodes),
   (0x13, .pack), (0x14, .unpack), (0x15, .serTable), (0x16, .parseTable)]

/-- Decode of a command word (R91): legal iff RSVD is 0 and OP is in the opcode map. -/
def decode (w : Word) : Except DecodeError Instr :=
  if rsvdField w ≠ 0 then .error .reservedField
  else
    match opcodeMap.lookup (opField w) with
    | some i => .ok i
    | none => .error .reservedOpcode

/-- The opcode of a command (R92). -/
def opcode : Instr → Byte
  | .encode => 0x01
  | .decode => 0x02
  | .count => 0x10
  | .buildTree => 0x11
  | .genCodes => 0x12
  | .pack => 0x13
  | .unpack => 0x14
  | .serTable => 0x15
  | .parseTable => 0x16

/-- The command word of a command: RSVD 0 above its opcode (R90, R92). -/
def encode (i : Instr) : Word := (0 : BitVec 24) ++ opcode i

/-- The instruction the decoder reads from the nbits low bits of w, every bit above them 0: a command is the
one 32-bit word written to CMD, bit i of the word being bit i of the register (R25, R90). -/
def decodeTableWord (nbits w : Nat) : Option Instr :=
  (decode (BitVec.ofNat 32 (w % 2 ^ nbits))).toOption

end Sys2Proof
end

