-- ==== Sys2Proof/Config.lean ====
section
/-! DEFINITION. What an implementation fixes (00_scope.md R7, R8; 10_state.md R22, R23) and the free values of
93_implementation_defined.md. The opaque constants have no body, so no proof can lean on a value of theirs. -/

namespace Sys2Proof

/-- The open parameters of the block (R7). A machine carries them in its state; no step changes them. -/
structure Params where
  /-- IN_CAP, the capacity of IN_BUF in bytes. -/
  inCap : Nat
  /-- OUT_CAP, the capacity of OUT_BUF in bytes. -/
  outCap : Nat
  /-- BLOCK_BASE, the host address of offset 0 of the block. -/
  blockBase : Nat
  deriving DecidableEq, Repr

/-- IN_CAP of the machine at hand, less the 1 that R7 asks for at least. -/
opaque Config.inCapExtra : Fin (2 ^ 24)

/-- OUT_CAP of the machine at hand, less the 7 that R7 asks for at least. -/
opaque Config.outCapExtra : Fin 16777210

/-- BLOCK_BASE of the machine at hand, in units of the 2^26 bytes it is aligned to (R7). -/
opaque Config.blockIndex : Nat

/-- The parameters of the machine at hand: any values R7 allows. -/
def Config.params : Params :=
  { inCap := Config.inCapExtra.val + 1
    outCap := Config.outCapExtra.val + 7
    blockBase := Config.blockIndex * 2 ^ 26 }

/-- The free value `any` (R12): w unconstrained bits for each draw number and each index within a draw. -/
opaque Config.anyBits : (w draw index : Nat) → BitVec w

/-- The free latency of 93_implementation_defined.md P4: how many host steps lie between the issue with this
draw number and its completion. Any finite number, so every weakly fair placement is covered (R253). -/
opaque Config.latency : Nat → Nat

/-- The constant the ID register reads as (R22). -/
def Config.idValue : Word := 0x48554646

/-- The constant the VERSION register reads as (R23). -/
def Config.versionValue : Word := 0x00000001

/-- MAX_NODES (R8): 256 leaves and 255 internal nodes. -/
def Config.maxNodes : Nat := 511

/-- PAD_MAX (R8). -/
def Config.padMax : Nat := 7

/-- The size of the block's offset space (R8: 26-bit offsets). -/
def Config.spaceSize : Nat := 2 ^ 26

end Sys2Proof
end

