-- ==== Sys2Proof/Machine/State.lean ====
section
/-! DEFINITION. The state of the block as plain data (spec/10_state.md), the host's remaining program, the outcomes'
reason types, and the state after reset (R47). -/

namespace Sys2Proof.Machine

/-- One entry of the NODE arena (R37). -/
structure Node where
  /-- 1 for a leaf, 0 for an internal node. -/
  leaf : Bool
  /-- The symbol of a leaf; 0 in an internal node. -/
  sym : Byte
  /-- The frequency (NF_W = 40 bits). -/
  f : BitVec 40
  /-- Arena index of the left child; 0 in a leaf. -/
  left : BitVec 9
  /-- Arena index of the right child; 0 in a leaf. -/
  right : BitVec 9
  deriving DecidableEq, Repr

/-- One entry of the code table: CODE_LEN and CODE_VAL of a symbol (R38). -/
structure Code where
  /-- CODE_LEN, 0 where the symbol has no code. -/
  len : BitVec 8
  /-- CODE_VAL, the code as a binary number, first bit most significant, right-aligned. -/
  val : BitVec 255
  deriving DecidableEq, Repr

/-- The FREQ register file (R35). -/
abbrev Freq := Vector Word 256

/-- The NODE register file (R37). -/
abbrev Arena := Vector Node 511

/-- The CODE register file (R38). -/
abbrev CodeTable := Vector Code 256

/-- The bytes written to a buffer, by index, in the canonical form of Memory.wf (Machine/Ops.lean). An index that
is not listed has had no byte written to it since the buffer's last draw. -/
abbrev Memory := List Host.Cell

/-- The six fields of STATUS (R26). Its reserved bits read 0 and ignore writes, so they need no storage. -/
structure Status where
  busy : Bool
  done : Bool
  err : Bool
  overrun : Bool
  treeValid : Bool
  codesValid : Bool
  deriving DecidableEq, Repr

/-- The two fields of ERROR (R32). -/
structure ErrorReg where
  code : BitVec 4
  op : Byte
  deriving DecidableEq, Repr

/-- The error kinds a command can report (60_exceptions.md R270). -/
inductive ErrorCode where
  /-- 0x1, raised by DECODE and PARSE_TABLE (R271). -/
  | malformedContainer
  /-- 0x2, raised by DECODE and UNPACK (R272). -/
  | corruptPayload
  /-- 0x3, raised by BUILD_TREE (R273). -/
  | emptyInput
  /-- 0x4, raised by DECODE and UNPACK (R274). -/
  | unsupportedPadding
  /-- 0x5, raised by the output commands (R275). -/
  | outputOverflow
  /-- 0x6, raised by the commands that read IN_BUF (R276). -/
  | lengthRange
  /-- 0x7, raised by every word that fails decode (R277). -/
  | illegalCommand
  /-- 0x8, raised by GEN_CODES, PACK and UNPACK (R278). -/
  | sequenceError
  /-- 0x9, raised by PACK (R279). -/
  | symbolNotCoded
  deriving DecidableEq, Repr

/-- A host bus transaction: host address, size in bytes, and the data of a write (20_memory.md R60, R61). -/
inductive Txn where
  /-- MemRead. -/
  | read (addr size : Nat)
  /-- MemWrite; a 1-byte write uses data bits 7:0 (R66). -/
  | write (addr size : Nat) (data : Word)
  deriving DecidableEq, Repr

/-- One step of the host's or the platform's program. -/
inductive HostOp where
  /-- A bus transaction (R61). -/
  | txn (t : Txn)
  /-- The WAIT loop of 30_encoding.md R97: read STATUS until BUSY reads 0. -/
  | wait
  /-- The hard reset, one atomic step of the platform (70_reset_and_hazards.md R300). -/
  | hardReset
  /-- A transaction the platform issues while rst is asserted, which it must not do (R300, X1). -/
  | txnInReset (t : Txn)
  deriving DecidableEq, Repr

/-- Why a transaction responds ERROR (20_memory.md R62, in the order of its steps). -/
inductive BusFault where
  /-- Step 1: the size is neither 1 nor 4. -/
  | badSize
  /-- Step 2: the offset is not a multiple of the size (R64). -/
  | misaligned
  /-- Step 3: no region of R70 contains the offset. -/
  | undecoded
  /-- Step 4: the region does not accept the size (R63). -/
  | badWidth
  /-- Step 5: the access ends beyond the buffer's capacity. -/
  | beyondCapacity
  deriving DecidableEq, Repr

/-- The response to a transaction (R60): OK or ERROR, and the data of a read. -/
inductive Response where
  | readOk (data : Word)
  | writeOk
  /-- The data of an ERROR read is `any` (R65). -/
  | readError (why : BusFault) (data : Word)
  | writeError (why : BusFault)
  deriving DecidableEq, Repr

/-- The reasons the machine stops with a fault: none. "Nothing in this spec is `stuck`"
(93_implementation_defined.md): a command error is reported and an ERROR response is given, and the machine goes
on. Safe: no behaviour of the block is cut short. -/
inductive Fault where
  deriving DecidableEq, Repr

/-- The reasons a step is refused. -/
inductive Refusal where
  /-- An instruction whose meaning is not written yet; raised by an arm of exec only. Safe: nothing follows from it. -/
  | notModelled (mnemonic : String)
  /-- Raised by the host's step for a transaction issued while rst is asserted: "the platform must not issue them,
  so the model gives them no step" (93_implementation_defined.md X1). Safe: nothing follows from it. -/
  | transactionDuringReset
  deriving DecidableEq, Repr

/-- The state of the machine. -/
structure State where
  /-- The parameters IN_CAP, OUT_CAP and BLOCK_BASE (00_scope.md R7); no step changes them. -/
  cfg : Params
  /-- CTRL.IRQ_EN (R24). -/
  irqEn : Bool
  /-- LAST_CMD, what CMD reads as (R25). -/
  lastCmd : Word
  /-- PENDING, the command word latched at issue (R43). -/
  pending : Word
  /-- STATUS (R26). -/
  status : Status
  /-- ERROR (R32). -/
  error : ErrorReg
  /-- IN_LEN (R33). -/
  inLen : Word
  /-- OUT_LEN (R34). -/
  outLen : Word
  /-- FREQ[0..255] (R35). -/
  freq : Freq
  /-- NODE_COUNT, bits 8:0; the bits above read 0 (R36). -/
  nodeCount : BitVec 9
  /-- NODE[0..510] (R37). -/
  node : Arena
  /-- CODE_LEN and CODE_VAL (R38). -/
  code : CodeTable
  /-- The bytes of IN_BUF written since the last hard reset (R39). -/
  inBuf : Memory
  /-- The bytes of OUT_BUF written since OUT_BUF last became `any` (R40). -/
  outBuf : Memory
  /-- The draw that an unwritten byte of IN_BUF reads as. The model's own. -/
  inDraw : Nat
  /-- The draw that an unwritten byte of OUT_BUF reads as. The model's own. -/
  outDraw : Nat
  /-- How many free values have been drawn. The model's own. -/
  draws : Nat
  /-- How many host steps are still to come before the pending command completes (P4). The model's own. -/
  hostSlots : Nat
  /-- The scheduling choices for the next issues (P4). The model's own. -/
  latencies : List Nat
  /-- The host's and the platform's remaining steps, in order. The model's own. -/
  host : List HostOp
  /-- The response to the last transaction; none where the block has given none. -/
  resp : Option Response
  deriving DecidableEq, Repr

/-- A NODE entry made of 67 bits, field by field: how an `any` entry is drawn. -/
def Node.ofBits (b : BitVec 67) : Node :=
  { leaf := b.getLsbD 66, sym := b.extractLsb' 58 8, f := b.extractLsb' 18 40,
    left := b.extractLsb' 9 9, right := b.extractLsb' 0 9 }

/-- A CODE entry made of 263 bits: how an `any` entry is drawn. -/
def Code.ofBits (b : BitVec 263) : Code :=
  { len := b.extractLsb' 255 8, val := b.extractLsb' 0 255 }

/-- The reset state of R47 for a machine with parameters p, whose four `any` pieces (IN_BUF, OUT_BUF, NODE, CODE)
take the four free values from draw d on. -/
def State.powerOn (p : Params) (d : Nat) : State where
  cfg := p
  irqEn := false
  lastCmd := 0
  pending := 0
  status := ⟨false, false, false, false, false, false⟩
  error := ⟨0, 0⟩
  inLen := 0
  outLen := 0
  freq := Vector.replicate 256 0
  nodeCount := 0
  node := Vector.ofFn fun i => Node.ofBits (Config.anyBits 67 (d + 2) i.val)
  code := Vector.ofFn fun s => Code.ofBits (Config.anyBits 263 (d + 3) s.val)
  inBuf := []
  outBuf := []
  inDraw := d
  outDraw := d + 1
  draws := d + 4
  hostSlots := 0
  latencies := []
  host := []
  resp := none

/-- The state right after the hard reset (R47, R300, R301) of the machine at hand. -/
def State.reset : State := State.powerOn Config.params 0

end Sys2Proof.Machine
end

