-- ==== Sys2Proof/Machine/Flags.lean ====
section
/-! DEFINITION. Every computation of a flag: the STATUS bits (10_state.md R26 to R31), the error code numbers
(60_exceptions.md R270) and the interrupt output (R45). No command has any other flag (R46). -/

namespace Sys2Proof.Machine

/-- The number of an error kind in ERROR.CODE (R270). -/
def ErrorCode.num : ErrorCode → BitVec 4
  | .malformedContainer => 0x1
  | .corruptPayload => 0x2
  | .emptyInput => 0x3
  | .unsupportedPadding => 0x4
  | .outputOverflow => 0x5
  | .lengthRange => 0x6
  | .illegalCommand => 0x7
  | .sequenceError => 0x8
  | .symbolNotCoded => 0x9

/-- The issue of a command (R250): BUSY is set, DONE and ERR are cleared, the rest is kept. -/
def Status.issued (st : Status) : Status :=
  { st with busy := true, done := false, err := false }

/-- A completion (R253): BUSY is cleared, DONE is set, ERR says whether the error code is nonzero. -/
def Status.completed (st : Status) (failed : Bool) : Status :=
  { st with busy := false, done := true, err := failed }

/-- A write of d to STATUS (R257): each of the bits 1 to 3 of d that is 1 clears its flag. -/
def Status.acked (st : Status) (d : Word) : Status :=
  { st with
    done := st.done && !d.getLsbD 1
    err := st.err && !d.getLsbD 2
    overrun := st.overrun && !d.getLsbD 3 }

/-- A dropped write (R251, R30). -/
def Status.overran (st : Status) : Status :=
  { st with overrun := true }

/-- A write to any FREQ entry (R42). -/
def Status.invalidated (st : Status) : Status :=
  { st with treeValid := false, codesValid := false }

/-- A successful tree build (R147). -/
def Status.treeBuilt (st : Status) : Status :=
  { st with treeValid := true, codesValid := false }

/-- A successful code generation (R167). -/
def Status.codesBuilt (st : Status) : Status :=
  { st with codesValid := true }

/-- A flag as bit k of a register word. -/
def flagBit (b : Bool) (k : Nat) : Word := BitVec.ofNat 32 (b.toNat * 2 ^ k)

/-- STATUS as a register word (R26); bits 31:6 read 0. -/
def Status.word (st : Status) : Word :=
  flagBit st.busy 0 ||| flagBit st.done 1 ||| flagBit st.err 2 ||| flagBit st.overrun 3 |||
    flagBit st.treeValid 4 ||| flagBit st.codesValid 5

/-- ERROR as a register word (R32): CODE in bits 3:0, OP in bits 15:8, the rest 0. -/
def ErrorReg.word (e : ErrorReg) : Word := (0 : BitVec 16) ++ e.op ++ (0 : BitVec 4) ++ e.code

/-- CTRL as a register word (R24): IRQ_EN in bit 0; SOFT_RESET and the reserved bits read 0. -/
def ctrlWord (irqEn : Bool) : Word := flagBit irqEn 0

/-- The interrupt output (R45): `irq = CTRL.IRQ_EN AND STATUS.DONE`, evaluated continuously. -/
def State.irq (s : State) : Bool := s.irqEn && s.status.done

end Sys2Proof.Machine
end

