-- ==== Sys2Proof/Machine/Operands.lean ====
section
/-! DEFINITION. The implicit operands of the commands (30_encoding.md R93, R103): the bytes of the two buffers, the
FrequencyTable, the code of a symbol, and the byte and bit orders (00_scope.md R9 to R13, 20_memory.md R66, R67). -/

namespace Sys2Proof.Machine

/-! ### Buffers as operands -/

/-- The byte written at an index, none where no byte has been written to it. -/
def Memory.read? (m : Memory) (a : Nat) : Option Byte := List.lookup a m

/-- Byte i of IN_BUF (R39): the byte written there, else the byte the last hard reset drew for it. -/
def State.inByte (s : State) (i : Nat) : Byte :=
  (s.inBuf.read? i).getD (Config.anyBits 8 s.inDraw i)

/-- Byte i of OUT_BUF (R40): the byte written there, else the byte drawn when OUT_BUF last became `any`. -/
def State.outByte (s : State) (i : Nat) : Byte :=
  (s.outBuf.read? i).getD (Config.anyBits 8 s.outDraw i)

/-- The input of a command, IN_BUF[0 .. IN_LEN) (R80, R93). -/
def State.input (s : State) : List Byte := (List.range s.inLen.toNat).map s.inByte

/-- The result of the last output command, OUT_BUF[0 .. OUT_LEN) (R34). -/
def State.output (s : State) : List Byte := (List.range s.outLen.toNat).map s.outByte

/-- The check IN_LEN ≤ IN_CAP of R94 (2) fails. -/
def State.lengthBad (s : State) : Bool := decide (s.cfg.inCap < s.inLen.toNat)

/-- The output commands of R93: those that write OUT_BUF and OUT_LEN. -/
def isOutput : Instr → Bool
  | .encode => true
  | .decode => true
  | .count => false
  | .buildTree => false
  | .genCodes => false
  | .pack => true
  | .unpack => true
  | .serTable => true
  | .parseTable => false

/-! ### The FrequencyTable -/

/-- The symbols of the FrequencyTable, those with FREQ[s] ≠ 0, in ascending value (R35, R132). -/
def Freq.present (F : Freq) : List (Fin 256) :=
  (List.finRange 256).filter fun s => F.get s != 0

/-- The sum of all counts, as an unbounded natural (43_bit_packer.md R193). -/
def Freq.total (F : Freq) : Nat := ((List.finRange 256).map fun s => (F.get s).toNat).sum

/-! ### Codes -/

/-- The bit string of a code (R38): bit j, counting from the first, is CODE_VAL[CODE_LEN − 1 − j]. -/
def Code.bits (c : Code) : Bits :=
  (List.range c.len.toNat).map fun j => c.val.getLsbD (c.len.toNat - 1 - j)

/-- The entry of a symbol in the code table. -/
def CodeTable.of (T : CodeTable) (s : Byte) : Code := T.get s.toFin

/-- The table in which no symbol has a code. -/
def CodeTable.empty : CodeTable := Vector.replicate 256 ⟨0, 0⟩

/-! ### Bit and byte orders -/

/-- The bits of a byte, most significant first (R67 b, R99). -/
def byteBits (b : Byte) : Bits :=
  [b.getLsbD 7, b.getLsbD 6, b.getLsbD 5, b.getLsbD 4, b.getLsbD 3, b.getLsbD 2, b.getLsbD 1, b.getLsbD 0]

/-- bits(Y): the bit string of a byte sequence, most significant bit of the first byte first (R99). -/
def bytesBits (Y : List Byte) : Bits := Y.flatMap byteBits

/-- The value of a bit string read as a binary number, first bit most significant. -/
def bitsValue (B : Bits) : Nat := B.foldl (fun n b => 2 * n + b.toNat) 0

/-- The bytes of a bit string whose length is a multiple of 8 (R182): position 8k + j is bit 7 − j of byte k. -/
def packBytes : Bits → List Byte
  | b0 :: b1 :: b2 :: b3 :: b4 :: b5 :: b6 :: b7 :: rest =>
    BitVec.ofNat 8 (bitsValue [b0, b1, b2, b3, b4, b5, b6, b7]) :: packBytes rest
  | _ => []

/-- The 4-byte big-endian encoding of a 32-bit value (R11). -/
def be32 (x : Word) : List Byte :=
  [x.extractLsb' 24 8, x.extractLsb' 16 8, x.extractLsb' 8 8, x.extractLsb' 0 8]

/-- The value of a big-endian byte sequence, an unbounded natural: on four bytes, `rdBE32` (R11). -/
def rdBE (B : List Byte) : Nat := B.foldl (fun n b => 256 * n + b.toNat) 0

/-- The word of four bus bytes, byte 0 in data bits 7:0 (R66). -/
def leWord (b0 b1 b2 b3 : Byte) : Word := b3 ++ b2 ++ b1 ++ b0

/-- Byte k of a bus word, k = 0 in data bits 7:0 (R66). -/
def leByte (d : Word) (k : Nat) : Byte := d.extractLsb' (8 * k) 8

/-! ### Decimal text -/

/-- The decimal digits of x, most significant first; the fuel bounds their number. -/
def decDigits : (fuel x : Nat) → List Nat
  | 0, _ => []
  | fuel + 1, x => if x < 10 then [x] else decDigits fuel (x / 10) ++ [x % 10]

/-- The ASCII code of a digit (R13). -/
def asciiDigit (d : Nat) : Byte := BitVec.ofNat 8 (0x30 + d)

/-- dec(x): the shortest decimal spelling of x in ASCII, no sign, no leading zeros, "0" for 0 (R13). -/
def dec (x : Nat) : List Byte := (decDigits (x + 1) x).map asciiDigit

/-- The ASCII codes of the punctuation of a table text (R13). -/
def chOpen : Byte := 0x7B
def chClose : Byte := 0x7D
def chColon : Byte := 0x3A
def chComma : Byte := 0x2C

end Sys2Proof.Machine
end

