-- ==== Sys2Proof/Machine/Ops.lean ====
section
/-! DEFINITION. The shared operations over the buffers and the registers: writing a buffer, committing a result,
reporting an error (the block's way of taking an exception, 60_exceptions.md R283) and acknowledging it (its return,
R284), issue, and the two resets (45_issue_and_control.md). -/

namespace Sys2Proof.Machine

/-! ### Buffers -/

/-- The canonical form of a buffer: indices strictly rising. Equal buffers are equal lists. -/
abbrev Memory.wf (m : Memory) : Prop := m.Pairwise fun x y => x.1 < y.1

/-- Writing one byte; keeps the canonical form. -/
def Memory.write : Memory → Nat → Byte → Memory
  | [], a, v => [(a, v)]
  | (k, x) :: m, a, v =>
    if a < k then (a, v) :: (k, x) :: m
    else if a = k then (a, v) :: m
    else (k, x) :: Memory.write m a v

/-- Writing a byte sequence at the indices from a on. -/
def Memory.writeBytes (m : Memory) (a : Nat) : List Byte → Memory
  | [] => m
  | b :: bs => (Memory.writeBytes m (a + 1) bs).write a b

/-! ### Results of commands -/

/-- Write all 256 FREQ entries, which clears both validity flags (R42). -/
def State.putFreq (s : State) (F : Freq) : State :=
  { s with freq := F, status := s.status.invalidated }

/-- Write an arena N (R147): NODE[0 .. |N|) ← N, NODE_COUNT ← |N|, the entries above kept, TREE_VALID ← 1,
CODES_VALID ← 0. -/
def State.putTree (s : State) (N : List Node) : State :=
  { s with
    node := Vector.ofFn fun i => (N[i.val]?).getD (s.node.get i)
    nodeCount := BitVec.ofNat 9 N.length
    status := s.status.treeBuilt }

/-- Write the code table of all 256 symbols (R167): CODES_VALID ← 1. -/
def State.putCodes (s : State) (T : CodeTable) : State :=
  { s with code := T, status := s.status.codesBuilt }

/-- Commit the result R of an output command (R254): OUT_BUF[0 .. |R|) ← R, OUT_LEN ← |R|. -/
def State.putOutput (s : State) (R : List Byte) : State :=
  { s with outBuf := s.outBuf.writeBytes 0 R, outLen := BitVec.ofNat 32 R.length }

/-- The output of a failed output command (R255): OUT_LEN ← 0 and every byte of OUT_BUF becomes `any`. -/
def State.dropOutput (s : State) : State :=
  { s with outLen := 0, outBuf := [], outDraw := s.draws, draws := s.draws + 1 }

/-! ### Completion, and taking an exception -/

/-- The registers of a completion with code e (R253): ERROR.CODE ← e, ERROR.OP ← PENDING[7:0], BUSY ← 0, DONE ← 1,
ERR ← (e ≠ 0). -/
def State.report (s : State) (e : BitVec 4) : State :=
  { s with error := ⟨e, opField s.pending⟩, status := s.status.completed (e != 0) }

/-- A completion without error (R254). -/
def State.succeed (s : State) : State := s.report 0

/-- Taking an exception: command i ends with error e (R255, R283). What the state already holds of the command's
earlier writes is kept; for an output command OUT_LEN ← 0 and OUT_BUF becomes `any`. There is no control transfer,
saved pc, mode or vector (R283). -/
def State.raise (s : State) (i : Instr) (e : ErrorCode) : State :=
  (if isOutput i then s.dropOutput else s).report e.num

/-- The return from an exception: the acknowledge, a write of d to STATUS (R257, R284). ERROR is not changed. -/
def State.acknowledge (s : State) (d : Word) : State :=
  { s with status := s.status.acked d }

/-- The end of output command i with result R: OUTPUT_OVERFLOW where R is longer than OUT_CAP (R275), else R is
committed and the command succeeds. -/
def State.finishOutput (s : State) (i : Instr) (R : List Byte) : State :=
  if s.cfg.outCap < R.length then s.raise i .outputOverflow else (s.putOutput R).succeed

/-! ### Issue and control operations -/

/-- A write of w to CMD while BUSY = 0 (R250). The draw decides the latency where the state holds no choice (P4). -/
def State.issue (s : State) (w : Word) : State :=
  { s with
    lastCmd := w
    pending := w
    status := s.status.issued
    hostSlots := s.latencies.headD (Config.latency s.draws)
    latencies := s.latencies.tail
    draws := s.draws + 1 }

/-- The hard reset (R300): every piece of state takes its reset value, the `any` pieces new draws. The parameters
and what is not the block's (the rest of the host's program and its scheduling) stay. -/
def State.hardReset (s : State) : State :=
  { State.powerOn s.cfg s.draws with latencies := s.latencies, host := s.host }

/-- The soft reset (R259): as the hard reset, except that IN_BUF keeps its contents. -/
def State.softReset (s : State) : State :=
  { s.hardReset with inBuf := s.inBuf, inDraw := s.inDraw, resp := s.resp }

/-- The command word the engine's next completion executes (R253: `w <- PENDING`). -/
def State.fetch (s : State) : Word := s.pending

/-- Placing a command word where the engine fetches its next one: the effect of its issue (R250) on LAST_CMD,
PENDING and STATUS, with no host step before its completion. -/
def State.placeCommand (s : State) (w : Word) : State :=
  { s with lastCmd := w, pending := w, status := s.status.issued, hostSlots := 0 }

end Sys2Proof.Machine
end

