-- ==== Sys2Proof/Machine/Bus.lean ====
section
/-! DEFINITION. The host register port (20_memory.md): the address map, the decode of a transaction, and what reads
and writes do, BUSY or not (45_issue_and_control.md R250 to R252, R257, R258). -/

namespace Sys2Proof.Machine

/-- The nine control registers (10_state.md section 2). -/
inductive CtrlReg where
  | id | version | ctrl | cmd | status | error | inLen | outLen | nodeCount
  deriving DecidableEq, Repr

/-- A decoded location of the address map (R70). -/
inductive Loc where
  | reg (r : CtrlReg)
  /-- FREQ[s]. -/
  | freq (s : Fin 256)
  /-- Word w of the record of NODE[i] (30_encoding.md R100). -/
  | node (i : Fin 511) (w : Fin 4)
  /-- Word w of the CODE record of symbol s (R101). -/
  | code (s : Fin 256) (w : Fin 16)
  /-- Byte i of the IN_BUF window. -/
  | inBuf (i : Nat)
  /-- Byte i of the OUT_BUF window. -/
  | outBuf (i : Nat)
  deriving DecidableEq, Repr

/-- The offset of a control register (10_state.md section 2). -/
def CtrlReg.offset : CtrlReg → Nat
  | .id => 0x000
  | .version => 0x004
  | .ctrl => 0x008
  | .cmd => 0x00C
  | .status => 0x010
  | .error => 0x014
  | .inLen => 0x018
  | .outLen => 0x01C
  | .nodeCount => 0x020

/-- The control register whose word holds the offset a < 0x24. -/
def CtrlReg.at (a : Nat) : CtrlReg :=
  match a / 4 with
  | 0 => .id
  | 1 => .version
  | 2 => .ctrl
  | 3 => .cmd
  | 4 => .status
  | 5 => .error
  | 6 => .inLen
  | 7 => .outLen
  | _ => .nodeCount

/-- The region and the place in it that contain an offset, none where the offset is undecoded (R70). -/
def locate (a : Nat) : Option Loc :=
  if a ≤ 0x0000023 then some (.reg (CtrlReg.at a))
  else if 0x0001000 ≤ a ∧ a ≤ 0x00013FF then some (.freq (Fin.ofNat 256 ((a - 0x1000) / 4)))
  else if 0x0002000 ≤ a ∧ a ≤ 0x0003FEF then
    some (.node (Fin.ofNat 511 ((a - 0x2000) / 16)) (Fin.ofNat 4 ((a - 0x2000) % 16 / 4)))
  else if 0x0004000 ≤ a ∧ a ≤ 0x0007FFF then
    some (.code (Fin.ofNat 256 ((a - 0x4000) / 64)) (Fin.ofNat 16 ((a - 0x4000) % 64 / 4)))
  else if 0x1000000 ≤ a ∧ a ≤ 0x1FFFFFF then some (.inBuf (a - 0x1000000))
  else if 0x2000000 ≤ a ∧ a ≤ 0x2FFFFFF then some (.outBuf (a - 0x2000000))
  else none

/-- The sizes a region accepts (R63): 4 everywhere, 1 in the two buffer windows as well. -/
def Loc.allows (l : Loc) (n : Nat) : Bool :=
  match l with
  | .reg _ => n == 4
  | .freq _ => n == 4
  | .node _ _ => n == 4
  | .code _ _ => n == 4
  | .inBuf _ => n == 1 || n == 4
  | .outBuf _ => n == 1 || n == 4

/-- An access of n bytes ends within the buffer's capacity (R62 step 5). -/
def Loc.backed (cfg : Params) (l : Loc) (n : Nat) : Bool :=
  match l with
  | .reg _ => true
  | .freq _ => true
  | .node _ _ => true
  | .code _ _ => true
  | .inBuf i => decide (i + n ≤ cfg.inCap)
  | .outBuf i => decide (i + n ≤ cfg.outCap)

/-- The decode of a transaction at offset a with size n, its checks in the order of R62. -/
def decodeAccess (cfg : Params) (a n : Nat) : Except BusFault Loc :=
  if n ≠ 1 ∧ n ≠ 4 then .error .badSize
  else if a % n ≠ 0 then .error .misaligned
  else
    match locate a with
    | none => .error .undecoded
    | some l =>
      if l.allows n then
        if l.backed cfg n then .ok l else .error .beyondCapacity
      else .error .badWidth

/-- The offset of a host address, none where the address does not reach the block (R61). -/
def offsetOf (cfg : Params) (addr : Nat) : Option Nat :=
  if cfg.blockBase ≤ addr ∧ addr < cfg.blockBase + Config.spaceSize then
    some ((addr - cfg.blockBase) % Config.spaceSize)
  else none

/-! ### Reads -/

/-- Word w of a NODE record (R100). -/
def nodeWord (n : Node) (w : Fin 4) : Word :=
  match w with
  | 0 => n.f.extractLsb' 0 32
  | 1 => (n.f.extractLsb' 32 8).setWidth 32
  | 2 => n.sym.setWidth 32 ||| flagBit n.leaf 31
  | 3 => n.left.setWidth 32 ||| (n.right.setWidth 32 <<< 16)

/-- The bits of a NODE record word that are fields; the others read 0 (R71, R100). -/
def nodeMask (w : Fin 4) : Word :=
  match w with
  | 0 => 0xFFFFFFFF
  | 1 => 0x000000FF
  | 2 => 0x800000FF
  | 3 => 0x01FF01FF

/-- Word w of a CODE record (R101). -/
def codeWord (c : Code) (w : Fin 16) : Word :=
  if w.val = 0 then c.len.setWidth 32
  else if w.val ≤ 8 then c.val.extractLsb' (32 * (w.val - 1)) 32
  else 0

/-- The bits of a CODE record word that are fields; the others read 0 (R71, R101). -/
def codeMask (w : Fin 16) : Word :=
  if w.val = 0 then 0x000000FF
  else if w.val ≤ 7 then 0xFFFFFFFF
  else if w.val = 8 then 0x7FFFFFFF
  else 0

/-- The bits of the data that an access of n bytes carries. -/
def sizeMask (n : Nat) : Word := if n = 1 then 0x000000FF else 0xFFFFFFFF

/-- The free value of a read, a fresh draw, on the bits of a mask; reserved bits read 0 (93_implementation_defined.md
U4 to U7, F3). -/
def State.anyRead (s : State) (mask : Word) : Word := Config.anyBits 32 s.draws 0 &&& mask

/-- The bits of STATUS that read as `any` while BUSY = 1: TREE_VALID and CODES_VALID (R26, U7). -/
def busyStatusMask : Word := 0x00000030

/-- A read of a control register (10_state.md section 2, R252). -/
def State.readReg (s : State) (r : CtrlReg) : Word :=
  match r with
  | .id => Config.idValue
  | .version => Config.versionValue
  | .ctrl => ctrlWord s.irqEn
  | .cmd => s.lastCmd
  | .status =>
    if s.status.busy then (s.status.word &&& ~~~busyStatusMask) ||| s.anyRead busyStatusMask
    else s.status.word
  | .error => s.error.word
  | .inLen => s.inLen
  | .outLen => if s.status.busy then s.anyRead 0xFFFFFFFF else s.outLen
  | .nodeCount => if s.status.busy then s.anyRead 0x000001FF else s.nodeCount.setWidth 32

/-- n bytes from index i of a buffer as bus data, byte i in data bits 7:0 (R66); a byte is carried zero-extended. -/
def busData (byte : Nat → Byte) (i n : Nat) : Word :=
  if n = 1 then (byte i).setWidth 32 else leWord (byte i) (byte (i + 1)) (byte (i + 2)) (byte (i + 3))

/-- The data of an OK read of n bytes (R69 to R71, R252; 93_implementation_defined.md U4 to U6). -/
def State.load (s : State) (l : Loc) (n : Nat) : Word :=
  match l with
  | .reg r => s.readReg r
  | .freq x => if s.status.busy then s.anyRead 0xFFFFFFFF else s.freq.get x
  | .node i w =>
    if s.status.busy || !s.status.treeValid || decide (s.nodeCount.toNat ≤ i.val) then s.anyRead (nodeMask w)
    else nodeWord (s.node.get i) w
  | .code x w =>
    if s.status.busy || !s.status.codesValid then s.anyRead (codeMask w)
    else codeWord (s.code.get x) w
  | .inBuf i => busData s.inByte i n
  | .outBuf i => if s.status.busy then s.anyRead (sizeMask n) else busData s.outByte i n

/-! ### Writes -/

/-- A dropped write (R251): nothing but OVERRUN ← 1. -/
def State.overrun (s : State) : State := { s with status := s.status.overran }

/-- A write to CTRL (R258): bit 1 performs the soft reset and nothing else; otherwise IRQ_EN ← bit 0. -/
def State.writeCtrl (s : State) (d : Word) : State :=
  if d.getLsbD 1 then s.softReset else { s with irqEn := d.getLsbD 0 }

/-- The bytes of write data of size n, the lowest address first (R66). -/
def busBytes (d : Word) (n : Nat) : List Byte :=
  if n = 1 then [leByte d 0] else [leByte d 0, leByte d 1, leByte d 2, leByte d 3]

/-- An OK write of n bytes (R69, R250, R251, R257, R258). -/
def State.store (s : State) (l : Loc) (n : Nat) (d : Word) : State :=
  match l with
  | .reg .id => s
  | .reg .version => s
  | .reg .ctrl => s.writeCtrl d
  | .reg .cmd => if s.status.busy then s.overrun else s.issue d
  | .reg .status => s.acknowledge d
  | .reg .error => s
  | .reg .inLen => if s.status.busy then s.overrun else { s with inLen := d }
  | .reg .outLen => s
  | .reg .nodeCount => s
  | .freq x => if s.status.busy then s.overrun else s.putFreq (s.freq.set x.val d x.isLt)
  | .node _ _ => s
  | .code _ _ => s
  | .inBuf i => if s.status.busy then s.overrun else { s with inBuf := s.inBuf.writeBytes i (busBytes d n) }
  | .outBuf _ => s

/-- One bus transaction (R60 to R62). A transaction outside the block's addresses gets no response from it. An ERROR
response changes no state of the block (R65); its read data, like every free value of a read, is a fresh draw. -/
def State.transact (s : State) (t : Txn) : State :=
  match t with
  | .read addr n =>
    match offsetOf s.cfg addr with
    | none => { s with resp := none }
    | some a =>
      match decodeAccess s.cfg a n with
      | .error e => { s with resp := some (.readError e (s.anyRead 0xFFFFFFFF)), draws := s.draws + 1 }
      | .ok l => { s with resp := some (.readOk (s.load l n)), draws := s.draws + 1 }
  | .write addr n d =>
    match offsetOf s.cfg addr with
    | none => { s with resp := none }
    | some a =>
      match decodeAccess s.cfg a n with
      | .error e => { s with resp := some (.writeError e) }
      | .ok l => { s.store l n d with resp := some .writeOk }

end Sys2Proof.Machine
end

