-- ==== Sys2Proof/Machine/BitPacker.lean ====
section
/-! DEFINITION. The Bit Packer / Unpacker: PACK and UNPACK (43_bit_packer.md). -/

namespace Sys2Proof.Machine

/-- The padding count of an encoded stream of T bits (R181). -/
def padCount (T : Nat) : Nat := (8 - T % 8) % 8

/-- The encoded symbol stream: the codes of the symbols in order (R180). -/
def encodeSymbols (X : List Byte) (table : CodeTable) : Bits := X.flatMap fun x => (table.of x).bits

/-- The padding byte and the padded bit string packed most significant bit first (R180 to R182). -/
def framePayload (B : Bits) : List Byte :=
  BitVec.ofNat 8 (padCount B.length) :: packBytes (B ++ List.replicate (padCount B.length) false)

/-- PackBits(X, code) (R180). -/
def packBits (X : List Byte) (table : CodeTable) : Except ErrorCode (List Byte) :=
  if X.any fun x => (table.of x).len == 0 then .error .symbolNotCoded
  else .ok (framePayload (encodeSymbols X table))

/-- The inverse code table (42_code_table.md R166) as the list of codes and their symbols, ascending. -/
def inverseTable (table : CodeTable) : List (Bits × Byte) :=
  (List.finRange 256).filterMap fun s =>
    if (table.get s).len == 0 then none else some ((table.get s).bits, BitVec.ofFin s)

/-- Greedy matching (R192) of the bits D, from the candidate cand: the symbols emitted and the candidate left. -/
def greedy (inv : List (Bits × Byte)) : (cand D : Bits) → List Byte × Bits
  | cand, [] => ([], cand)
  | cand, b :: D =>
    match inv.lookup (cand ++ [b]) with
    | some x => let r := greedy inv [] D; (x :: r.1, r.2)
    | none => greedy inv (cand ++ [b]) D

/-- The end-of-stream checks of R193 on the symbols emitted and the candidate left, in their order. -/
def checkStream (r : List Byte × Bits) (expected outCap : Nat) : Except ErrorCode (List Byte) :=
  if r.2 ≠ [] then .error .corruptPayload
  else if r.1.length ≠ expected then .error .corruptPayload
  else if outCap < r.1.length then .error .outputOverflow
  else .ok r.1

/-- Unpack(P, code, expected) (R190), with the framing checks in the order of R191. -/
def unpack (P : List Byte) (table : CodeTable) (expected outCap : Nat) : Except ErrorCode (List Byte) :=
  match P with
  | [] => .error .corruptPayload
  | p :: Y =>
    if Config.padMax < p.toNat then .error .unsupportedPadding
    else
      let bits := bytesBits Y
      let M := bits.length
      if M < p.toNat then .error .corruptPayload
      else if (bits.drop (M - p.toNat)).any id then .error .corruptPayload
      else checkStream (greedy (inverseTable table) [] (bits.take (M - p.toNat))) expected outCap

/-- PACK (R183). -/
def execPack (s : State) : Host.Outcome State Fault Refusal :=
  .next <|
    if s.lengthBad then s.raise .pack .lengthRange
    else if s.status.codesValid then
      match packBits s.input s.code with
      | .error e => s.raise .pack e
      | .ok R => s.finishOutput .pack R
    else s.raise .pack .sequenceError

/-- UNPACK (R194). -/
def execUnpack (s : State) : Host.Outcome State Fault Refusal :=
  .next <|
    if s.lengthBad then s.raise .unpack .lengthRange
    else if s.status.codesValid then
      match unpack s.input s.code s.freq.total s.cfg.outCap with
      | .error e => s.raise .unpack e
      | .ok R => (s.putOutput R).succeed
    else s.raise .unpack .sequenceError

end Sys2Proof.Machine
end

