-- ==== Sys2Proof/Machine/CodeTable.lean ====
section
/-! DEFINITION. The Code Table Generator: GenCodes and GEN_CODES (42_code_table.md). -/

namespace Sys2Proof.Machine

/-- The arena entry at an index. An index beyond the arena occurs in no state a run reaches. -/
def Arena.at (N : Arena) (i : Nat) : Node := (N.toList[i]?).getD ⟨true, 0, 0, 0, 0⟩

/-- Write the code of a symbol: LEN[s] ← l, VAL[s] ← v. -/
def CodeTable.put (T : CodeTable) (s : Byte) (l v : Nat) : CodeTable :=
  T.set s.toFin.val ⟨BitVec.ofNat 8 l, BitVec.ofNat 255 v⟩ s.toFin.isLt

/-- The traversal of R161 with its explicit stack of (index, length, value), top first: depth-first, left before
right. The fuel bounds the number of pops. -/
def walkTree (N : Arena) : (fuel : Nat) → List (Nat × Nat × Nat) → CodeTable → CodeTable
  | 0, _, T => T
  | _ + 1, [], T => T
  | fuel + 1, (i, l, v) :: stack, T =>
    let n := N.at i
    if n.leaf then walkTree N fuel stack (T.put n.sym l v)
    else
      walkTree N fuel
        ((n.left.toNat, l + 1, 2 * v) :: (n.right.toNat, l + 1, 2 * v + 1) :: stack) T

/-- GenCodes(NODE, c) (R161). A tree has at most MAX_NODES = 511 nodes and each is popped once. -/
def genCodes (N : Arena) (c : Nat) : CodeTable :=
  if c = 1 then CodeTable.empty.put (N.at 0).sym 1 0
  else walkTree N Config.maxNodes [(c - 1, 0, 0)] CodeTable.empty

/-- GEN_CODES (R167). -/
def execGenCodes (s : State) : Host.Outcome State Fault Refusal :=
  .next <|
    if s.status.treeValid then (s.putCodes (genCodes s.node s.nodeCount.toNat)).succeed
    else s.raise .genCodes .sequenceError

end Sys2Proof.Machine
end

