-- ==== Sys2Proof/Machine/FrequencyAnalyzer.lean ====
section
/-! DEFINITION. The Frequency Analyzer: COUNT (40_frequency_analyzer.md). -/

namespace Sys2Proof.Machine

/-- The occurrence count of every symbol in X (R130). -/
def countSymbols (X : List Byte) : Freq :=
  Vector.ofFn fun s => BitVec.ofNat 32 (X.count (BitVec.ofFin s))

/-- COUNT (R130). -/
def execCount (s : State) : Host.Outcome State Fault Refusal :=
  .next <|
    if s.lengthBad then s.raise .count .lengthRange
    else (s.putFreq (countSymbols s.input)).succeed

end Sys2Proof.Machine
end

