-- ==== Sys2Proof/Machine/TreeBuilder.lean ====
section
/-! DEFINITION. The Tree Builder: BuildTree and BUILD_TREE (41_tree_builder.md). -/

namespace Sys2Proof.Machine

/-- key(i) of an arena entry: its frequency and its arena index (R142). -/
abbrev TreeKey := BitVec 40 × Nat

/-- The order of keys, lexicographic: first by frequency, then by arena index (R142). -/
def TreeKey.less (a b : TreeKey) : Bool :=
  a.1.toNat < b.1.toNat || (a.1.toNat == b.1.toNat && a.2 < b.2)

/-- The least key of a non-empty multiset k :: ks. -/
def TreeKey.least (k : TreeKey) : List TreeKey → TreeKey
  | [] => k
  | x :: xs => TreeKey.least (if TreeKey.less x k then x else k) xs

/-- The key removed next from LIVE, and LIVE without it (R141). -/
def takeLeast : List TreeKey → Option (TreeKey × List TreeKey)
  | [] => none
  | k :: ks => let m := TreeKey.least k ks; some (m, (k :: ks).erase m)

/-- The leaf of a symbol (R140). -/
def leafNode (s : Fin 256) (c : Word) : Node :=
  { leaf := true, sym := BitVec.ofFin s, f := c.setWidth 40, left := 0, right := 0 }

/-- The internal node that replaces the removed pair: the first removed is the left child, the second the right
(R143). The 40-bit sum does not wrap (R146). -/
def mergeNode (a b : TreeKey) : Node :=
  { leaf := false, sym := 0, f := a.1 + b.1, left := BitVec.ofNat 9 a.2, right := BitVec.ofNat 9 b.2 }

/-- The leaves in ascending symbol value (R140). -/
def leaves (F : Freq) : List Node := F.present.map fun s => leafNode s (F.get s)

/-- The key of the entry at an arena index. -/
def nodeKey (n : Node) (i : Nat) : TreeKey := (n.f, i)

/-- The rounds of R143 over the arena written so far and LIVE. Each round removes two keys and adds one, so as many
rounds as LIVE has members are more than enough. -/
def mergeRounds : (fuel : Nat) → (arena : List Node) → (live : List TreeKey) → List Node
  | 0, arena, _ => arena
  | fuel + 1, arena, live =>
    match takeLeast live with
    | none => arena
    | some (a, live₁) =>
      match takeLeast live₁ with
      | none => arena
      | some (b, live₂) =>
        let n := mergeNode a b
        mergeRounds fuel (arena ++ [n]) (nodeKey n arena.length :: live₂)

/-- BuildTree(FREQ) (R143): the arena, or none where it fails with EMPTY_INPUT (R145). -/
def buildTree (F : Freq) : Option (List Node) :=
  let ls := leaves F
  if ls.isEmpty then none
  else some (mergeRounds ls.length ls (ls.zipIdx.map fun p => nodeKey p.1 p.2))

/-- BUILD_TREE (R147). -/
def execBuildTree (s : State) : Host.Outcome State Fault Refusal :=
  .next <|
    match buildTree s.freq with
    | none => s.raise .buildTree .emptyInput
    | some N => (s.putTree N).succeed

end Sys2Proof.Machine
end

