-- ==== Sys2Proof/Machine/ContainerCodec.lean ====
section
/-! DEFINITION. The Container Codec: SER_TABLE, PARSE_TABLE, ENCODE and DECODE (44_container_codec.md). -/

namespace Sys2Proof.Machine

/-! ### Table text -/

/-- One entry of a table text, `symbol ":" count` (30_encoding.md R102). -/
def serEntry (F : Freq) (s : Fin 256) : List Byte :=
  dec s.val ++ chColon :: dec (F.get s).toNat

/-- Ser(FREQ) (R210): the nonzero entries in ascending symbol value, comma-separated, inside braces. -/
def serTable (F : Freq) : List Byte :=
  chOpen :: ([chComma].intercalate (F.present.map (serEntry F)) ++ [chClose])

/-- A byte is an ASCII digit. -/
def isDigit (b : Byte) : Bool := 0x30 ≤ b.toNat && b.toNat ≤ 0x39

/-- The value of a digit string, an unbounded natural (R103). -/
def digitsValue (T : List Byte) : Nat := T.foldl (fun n b => 10 * n + (b.toNat - 0x30)) 0

/-- `number` of the grammar (R102): digits only, at least one, no leading zero but for "0" itself. -/
def parseNumber (T : List Byte) : Option Nat :=
  if T.all isDigit && !T.isEmpty && (T.length == 1 || T.head? != some 0x30) then some (digitsValue T) else none

/-- `entry` of the grammar (R102). A number holds no colon, so splitting at the colons is exact. -/
def parseEntry (T : List Byte) : Option (Nat × Nat) :=
  match T.splitOn chColon with
  | [a, b] =>
    match parseNumber a, parseNumber b with
    | some x, some y => some (x, y)
    | _, _ => none
  | _ => none

/-- `entry *( "," entry )`: every piece between commas is an entry. -/
def parseEntries (T : List Byte) : Option (List (Nat × Nat)) :=
  (T.splitOn chComma).mapM parseEntry

/-- `table` of the grammar over the whole length of T (R220): the entries in the order of the text. -/
def parseSyntax (T : List Byte) : Option (List (Nat × Nat)) :=
  match T with
  | [] => none
  | c :: T₁ =>
    if c = chOpen ∧ T₁.getLast? = some chClose then
      if T₁.dropLast = [] then some [] else parseEntries T₁.dropLast
    else none

/-- The semantic checks of R221 on the entries: symbols at most 255, counts from 1 to 4294967295, no symbol twice. -/
def entriesOk (es : List (Nat × Nat)) : Bool :=
  (es.all fun e => e.1 ≤ 255 && 1 ≤ e.2 && e.2 ≤ 4294967295) && decide (es.map Prod.fst).Nodup

/-- The table the entries denote: F[a] = b for each entry, 0 for every symbol not listed (R221). -/
def tableOf (es : List (Nat × Nat)) : Freq :=
  Vector.ofFn fun s => BitVec.ofNat 32 ((es.lookup s.val).getD 0)

/-- Parse(T) (R220, R221); none is its failure, MALFORMED_CONTAINER. -/
def parseTable (T : List Byte) : Option Freq :=
  match parseSyntax T with
  | none => none
  | some es => if entriesOk es then some (tableOf es) else none

/-- SER_TABLE (R211). -/
def execSerTable (s : State) : Host.Outcome State Fault Refusal :=
  .next (s.finishOutput .serTable (serTable s.freq))

/-- PARSE_TABLE (R222). -/
def execParseTable (s : State) : Host.Outcome State Fault Refusal :=
  .next <|
    if s.lengthBad then s.raise .parseTable .lengthRange
    else
      match parseTable s.input with
      | none => s.raise .parseTable .malformedContainer
      | some F => (s.putFreq F).succeed

/-! ### Containers -/

/-- Steps 2 and 3 of ENCODE, step 3 of DECODE: where the table is not empty, BuildTree into NODE and then GenCodes
into CODE (R230, R240); an empty table leaves the state as it is (R236, R242). -/
def State.rebuild (s : State) : State :=
  match buildTree s.freq with
  | none => s
  | some N =>
    let s₁ := s.putTree N
    s₁.putCodes (genCodes s₁.node s₁.nodeCount.toNat)

/-- Container assembly (R231): C = BE32(|T|) ‖ T ‖ P. -/
def container (T P : List Byte) : List Byte := be32 (BitVec.ofNat 32 T.length) ++ T ++ P

/-- ENCODE (R230). PackBits has no failure here, since every byte of the input has been counted (R230); its failure
arm answers the typed error all the same. -/
def execEncode (s : State) : Host.Outcome State Fault Refusal :=
  .next <|
    if s.lengthBad then s.raise .encode .lengthRange
    else
      let s₁ := (s.putFreq (countSymbols s.input)).rebuild
      match packBits s.input s₁.code with
      | .error e => s₁.raise .encode e
      | .ok P => s₁.finishOutput .encode (container (serTable s₁.freq) P)

/-- Step 1 of DECODE (R240, R241): the table and the packed payload of a container, none where it is malformed.
4 + L is compared in unbounded arithmetic. -/
def splitContainer (C : List Byte) : Option (Freq × List Byte) :=
  if C.length < 4 then none
  else
    let L := rdBE (C.take 4)
    if C.length < 4 + L then none
    else
      match parseTable ((C.drop 4).take L) with
      | none => none
      | some F => some (F, C.drop (4 + L))

/-- The code table DECODE unpacks with (R240 step 3, R242): CODE where a tree was built, else the empty table. -/
def State.decodeTable (s : State) : CodeTable :=
  if s.status.codesValid then s.code else CodeTable.empty

/-- DECODE (R240). -/
def execDecode (s : State) : Host.Outcome State Fault Refusal :=
  .next <|
    if s.lengthBad then s.raise .decode .lengthRange
    else
      match splitContainer s.input with
      | none => s.raise .decode .malformedContainer
      | some (F, P) =>
        let s₁ := (s.putFreq F).rebuild
        match unpack P s₁.decodeTable F.total s.cfg.outCap with
        | .error e => s₁.raise .decode e
        | .ok R => (s₁.putOutput R).succeed

end Sys2Proof.Machine
end

