-- ==== Sys2Proof/Machine/Agents.lean ====
section
/-! DEFINITION. The steps of the two agents (00_scope.md R15) and which of them moves next (20_memory.md R74). -/

namespace Sys2Proof.Machine

/-- The engine moves next: it is enabled (R253: iff BUSY = 1), and no host step is left to come before the completion
(P4), or the host has none to take (weak fairness, R253). -/
def State.engineTurn (s : State) : Bool := s.status.busy && (s.hostSlots == 0 || s.host.isEmpty)

/-- The completion step (R253): the meaning of the command in PENDING, ILLEGAL_COMMAND where the word fails decode,
which changes ERROR and STATUS only (R256). -/
def State.engineStep (s : State) : Host.Outcome State Fault Refusal :=
  match decode s.fetch with
  | .ok i => exec i s
  | .error _ => .next (s.report ErrorCode.illegalCommand.num)

/-- The state with the host's program at rest and one host step of the pending command's latency used up. -/
def State.advanceHost (s : State) (rest : List HostOp) : State :=
  { s with host := rest, hostSlots := s.hostSlots - 1 }

/-- The next step of the host or the platform (R61, R97, R300). A host with no step left leaves the block as it is
(60_exceptions.md R293). The WAIT loop reads STATUS and stays until BUSY reads 0. -/
def State.hostStep (s : State) : Host.Outcome State Fault Refusal :=
  match s.host with
  | [] => .next s
  | .txn t :: rest => .next ((s.advanceHost rest).transact t)
  | .wait :: rest =>
    .next ((s.advanceHost (if s.status.busy then s.host else rest)).transact
      (.read (s.cfg.blockBase + CtrlReg.status.offset) 4))
  | .hardReset :: rest => .next (s.advanceHost rest).hardReset
  | .txnInReset _ :: _ => .refused .transactionDuringReset

end Sys2Proof.Machine
end

