-- ==== Sys2Proof/Machine/Step.lean ====
section
/-! DEFINITION. One step of the machine: one step of one agent, in the total order of 20_memory.md R74. -/

namespace Sys2Proof.Machine

/-- The step of the agent whose turn it is. -/
def step (s : State) : Host.Outcome State Fault Refusal :=
  if s.engineTurn then s.engineStep else s.hostStep

/-- The state with the command word w (its nbits low bits, the others 0) where the next step fetches: in PENDING,
with BUSY = 1 and no host step before the completion. The block has no program memory (10_state.md R21); this stands
for the host's write of the word to CMD (R250). -/
def State.withFetchWord (s : State) (nbits w : Nat) : State :=
  s.placeCommand (BitVec.ofNat 32 (w % 2 ^ nbits))

end Sys2Proof.Machine
end

