-- ==== Sys2Proof/WellFormed.lean ====
section
/-! DEFINITION. What is well-formed: a command (every one, none has an operand), a command word (the legality test
of 30_encoding.md R91) and the parameters (00_scope.md R7). -/

namespace Sys2Proof

/-- Every command is well-formed: R90 gives no command an operand field, so there is nothing to check. -/
def Instr.wf : Instr → Bool
  | .encode => true
  | .decode => true
  | .count => true
  | .buildTree => true
  | .genCodes => true
  | .pack => true
  | .unpack => true
  | .serTable => true
  | .parseTable => true

/-- The legality test of R91, said without the decoder: RSVD is 0 and OP is one of the nine values of R92. -/
def legalWord (w : Word) : Bool :=
  w.toNat / 256 == 0 &&
    [0x01, 0x02, 0x10, 0x11, 0x12, 0x13, 0x14, 0x15, 0x16].contains (w.toNat % 256)

/-- The constraints R7 puts on the parameters. -/
abbrev Params.wf (p : Params) : Prop :=
  (1 ≤ p.inCap ∧ p.inCap ≤ 2 ^ 24) ∧ (7 ≤ p.outCap ∧ p.outCap ≤ 2 ^ 24) ∧ p.blockBase % 2 ^ 26 = 0

end Sys2Proof
end

