-- ==== Sys2Proof/Safety.lean ====
section
/-! DEFINITION. What the claims are stated in: the invariant of a safe run, and the spec's own notions written once
more without the operations of the machine: the merge order of a tree, a path in it, a code set, the grammar of a
table text, a packed payload, the legal bus accesses. -/

namespace Sys2Proof.Machine

/-! ### The invariant -/

/-- The buffers keep their canonical form, and hold no byte at or beyond their capacity (20_memory.md R80). -/
structure State.BuffersOk (s : State) : Prop where
  inForm : s.inBuf.wf
  outForm : s.outBuf.wf
  inRange : ∀ c ∈ s.inBuf, c.1 < s.cfg.inCap
  outRange : ∀ c ∈ s.outBuf, c.1 < s.cfg.outCap
  outLen : s.outLen.toNat ≤ s.cfg.outCap

/-- The issue protocol: while BUSY = 1, PENDING is LAST_CMD (10_state.md R43) and DONE and ERR are 0 (R26). -/
structure State.ProtocolOk (s : State) : Prop where
  latched : s.status.busy = true → s.pending = s.lastCmd
  notDone : s.status.busy = true → s.status.done = false
  notErr : s.status.busy = true → s.status.err = false

/-- The free values the unwritten bytes of the two buffers read as have been drawn, and are different draws; so every
later draw is a new one (log entries 2 and 3). -/
structure State.DrawsOk (s : State) : Prop where
  inDrawn : s.inDraw < s.draws
  outDrawn : s.outDraw < s.draws
  apart : s.inDraw ≠ s.outDraw

/-- The arena holds the entries N from index 0 on, and NODE_COUNT counts them. -/
def State.holdsTree (s : State) (N : List Node) : Prop :=
  s.nodeCount.toNat = N.length ∧ ∀ (i : Fin 511) (n : Node), N[i.val]? = some n → s.node.get i = n

/-- The validity invariant R41, at every point of a run. -/
structure State.ValidityOk (s : State) : Prop where
  /-- (a) -/
  tree : s.status.treeValid = true → ∃ N, buildTree s.freq = some N ∧ s.holdsTree N ∧
    N.length = 2 * s.freq.present.length - 1 ∧ 1 ≤ s.freq.present.length
  /-- (b) -/
  codes : s.status.codesValid = true →
    s.status.treeValid = true ∧ s.code = genCodes s.node s.nodeCount.toNat

/-- The invariant of every run. -/
structure State.Inv (s : State) : Prop where
  params : s.cfg.wf
  buffers : s.BuffersOk
  protocol : s.ProtocolOk
  /-- Only the codes 0 to 9 are ever in ERROR.CODE (60_exceptions.md R280). -/
  errorCode : s.error.code.toNat ≤ 9
  validity : s.ValidityOk
  draws : s.DrawsOk

/-! ### What a completion leaves alone -/

/-- The completion registers (45_issue_and_control.md R253): ERROR, BUSY, DONE and ERR for code e; OVERRUN as before. -/
structure Completed (s t : State) (e : BitVec 4) : Prop where
  error : t.error = ⟨e, s.pending.extractLsb' 0 8⟩
  busy : t.status.busy = false
  done : t.status.done = true
  err : t.status.err = (e != 0)
  overrun : t.status.overrun = s.status.overrun

/-- The state no command touches (20_memory.md R80, 10_state.md R33, R39): the parameters, CTRL, LAST_CMD, PENDING,
IN_LEN and every byte of IN_BUF, and what is not the block's. -/
structure SameInputs (s t : State) : Prop where
  cfg : t.cfg = s.cfg
  irqEn : t.irqEn = s.irqEn
  lastCmd : t.lastCmd = s.lastCmd
  pending : t.pending = s.pending
  inLen : t.inLen = s.inLen
  inBuf : ∀ a, t.inByte a = s.inByte a
  latencies : t.latencies = s.latencies
  host : t.host = s.host
  hostSlots : t.hostSlots = s.hostSlots
  resp : t.resp = s.resp

/-- OUT_LEN and every byte of OUT_BUF are as before. -/
structure SameOutput (s t : State) : Prop where
  outLen : t.outLen = s.outLen
  outBuf : ∀ a, t.outByte a = s.outByte a

/-- FREQ, NODE, NODE_COUNT, CODE and both validity flags are as before. -/
structure SameTables (s t : State) : Prop where
  freq : t.freq = s.freq
  node : t.node = s.node
  nodeCount : t.nodeCount = s.nodeCount
  code : t.code = s.code
  treeValid : t.status.treeValid = s.status.treeValid
  codesValid : t.status.codesValid = s.status.codesValid

/-- NODE, NODE_COUNT and CODE are as before. -/
structure SameTree (s t : State) : Prop where
  node : t.node = s.node
  nodeCount : t.nodeCount = s.nodeCount
  code : t.code = s.code

/-- The output of a successful output command with result R (R254): OUT_LEN = |R|, OUT_BUF[0 .. |R|) = R, and the
bytes at |R| and above are as before. -/
structure OutputIs (s t : State) (R : List Byte) : Prop where
  outLen : t.outLen.toNat = R.length
  result : t.output = R
  above : ∀ a, R.length ≤ a → t.outByte a = s.outByte a

/-- The output of a failed output command (45_issue_and_control.md R255): OUT_LEN = 0, and every byte of OUT_BUF,
whatever it held, reads as a free value of a new draw, one for each index. -/
structure OutputLost (s t : State) : Prop where
  outLen : t.outLen = 0
  bytes : ∀ a, t.outByte a = Config.anyBits 8 s.draws a
  drawn : s.draws < t.draws

/-- The reset table (10_state.md R47), as far as it gives values. -/
structure ResetValues (s : State) : Prop where
  id : s.readReg .id = 0x48554646
  version : s.readReg .version = 0x00000001
  irqEn : s.irqEn = false
  lastCmd : s.lastCmd = 0
  pending : s.pending = 0
  busy : s.status.busy = false
  done : s.status.done = false
  err : s.status.err = false
  overrun : s.status.overrun = false
  treeValid : s.status.treeValid = false
  codesValid : s.status.codesValid = false
  errorCode : s.error.code = 0
  errorOp : s.error.op = 0
  inLen : s.inLen = 0
  outLen : s.outLen = 0
  nodeCount : s.nodeCount = 0
  freq : ∀ x, s.freq.get x = 0
  irq : s.irq = false

/-- Every byte of IN_BUF reads as the free value of draw d, and every byte of OUT_BUF as that of draw e: what the two
`any` rows of the reset table R47 leave (log entries 2 and 3). -/
structure BuffersAny (s : State) (d e : Nat) : Prop where
  inByte : ∀ a, s.inByte a = Config.anyBits 8 d a
  outByte : ∀ a, s.outByte a = Config.anyBits 8 e a

/-- A command that is no output command fails with code e and commits nothing (R255). -/
structure FailsPlain (s t : State) (e : BitVec 4) : Prop where
  completed : Completed s t e
  inputs : SameInputs s t
  tables : SameTables s t
  output : SameOutput s t

/-- An output command fails with code e: the tables are kept and the output is lost (R255). -/
structure FailsOutput (s t : State) (e : BitVec 4) : Prop where
  completed : Completed s t e
  inputs : SameInputs s t
  tables : SameTables s t
  output : OutputLost s t

/-- An output command succeeds with result R, the tables kept (R254). -/
structure Delivers (s t : State) (R : List Byte) : Prop where
  completed : Completed s t 0
  inputs : SameInputs s t
  tables : SameTables s t
  output : OutputIs s t R

/-! ### Trees -/

/-- An arena index is in LIVE when the entries 0 .. k−1 have been written and the n leaves come first: no internal
entry written so far has it as a child (41_tree_builder.md R141). -/
def LiveAt (N : List Node) (n k i : Nat) : Prop :=
  i < k ∧ ∀ (j : Nat) (m : Node), n ≤ j → j < k → N[j]? = some m → m.left.toNat ≠ i ∧ m.right.toNat ≠ i

/-- The key of i is less than the key of j (R142): less frequency, or the same and a smaller index. -/
def KeyLess (N : List Node) (i j : Nat) : Prop :=
  ∃ a b, N[i]? = some a ∧ N[j]? = some b ∧ (a.f.toNat < b.f.toNat ∨ a.f.toNat = b.f.toNat ∧ i < j)

/-- The arena of R143: the leaves of R140, then internal entries, each the merge of the entry of least key in LIVE as
its left child and the entry of next least key as its right child. -/
structure GreedyArena (F : Freq) (N : List Node) : Prop where
  length : N.length = 2 * F.present.length - 1
  leaf : ∀ (k : Nat) (s : Fin 256), F.present[k]? = some s →
    N[k]? = some (Node.mk true (BitVec.ofFin s) ((F.get s).setWidth 40) 0 0)
  merge : ∀ (k : Nat) (m : Node), F.present.length ≤ k → N[k]? = some m →
    m.leaf = false ∧ m.sym = 0 ∧
    LiveAt N F.present.length k m.left.toNat ∧ LiveAt N F.present.length k m.right.toNat ∧
    m.left ≠ m.right ∧
    (∃ a b, N[m.left.toNat]? = some a ∧ N[m.right.toNat]? = some b ∧ m.f.toNat = a.f.toNat + b.f.toNat) ∧
    (∀ i, LiveAt N F.present.length k i → i ≠ m.left.toNat → KeyLess N m.left.toNat i) ∧
    (∀ i, LiveAt N F.present.length k i → i ≠ m.left.toNat → i ≠ m.right.toNat → KeyLess N m.right.toNat i)

/-- The descent from a root: bit 0 to the left child, bit 1 to the right child (42_code_table.md R160). -/
inductive NodePath (node : Arena) (root : Nat) : Bits → Nat → Prop where
  | root : NodePath node root [] root
  | left (p : Bits) (i : Fin 511) : NodePath node root p i.val → (node.get i).leaf = false →
      NodePath node root (p ++ [false]) (node.get i).left.toNat
  | right (p : Bits) (i : Fin 511) : NodePath node root p i.val → (node.get i).leaf = false →
      NodePath node root (p ++ [true]) (node.get i).right.toNat

/-- A symbol has a code (10_state.md R38). -/
def CodeTable.coded (T : CodeTable) (x : Byte) : Prop := (T.of x).len ≠ 0

/-- No code is a prefix of a different symbol's code (42_code_table.md R164). -/
def CodeTable.prefixFree (T : CodeTable) : Prop :=
  ∀ x y, T.coded x → T.coded y → (T.of x).bits <+: (T.of y).bits → x = y

/-- The code table of a frequency table: GenCodes of the arena BuildTree gives. -/
def CodesOf (F : Freq) (T : CodeTable) : Prop :=
  ∃ N node, buildTree F = some N ∧ (∀ (i : Fin 511) (n : Node), N[i.val]? = some n → Vector.get node i = n) ∧
    T = genCodes node N.length

/-- The code table of a state is the one its tree gives (42_code_table.md R160 to R163): the code of every leaf is the
path to it, "0" for a root that is a leaf, and a symbol absent from FREQ has no code. -/
structure State.PathCodes (t : State) : Prop where
  path : ∀ (p : Bits) (i : Fin 511), NodePath t.node (t.nodeCount.toNat - 1) p i.val → (t.node.get i).leaf = true →
    t.code.coded (t.node.get i).sym ∧
      (t.code.of (t.node.get i).sym).bits = if p = [] then [false] else p
  uncoded : ∀ x : Byte, t.freq.get x.toFin = 0 → t.code.of x = ⟨0, 0⟩
  rightAligned : ∀ x : Byte, (t.code.of x).val.toNat < 2 ^ (t.code.of x).len.toNat

/-- What ENCODE and DECODE leave in the register files for the table F (44_container_codec.md R230, R240): FREQ = F; for
an empty F no tree and both flags 0; otherwise the tree of F, its code table and both flags 1. -/
structure Rebuilt (s t : State) (F : Freq) : Prop where
  freq : t.freq = F
  empty : (∀ x, F.get x = 0) → t.status.treeValid = false ∧ t.status.codesValid = false ∧ SameTree s t
  full : (∃ x, F.get x ≠ 0) → t.status.treeValid = true ∧ t.status.codesValid = true ∧ t.PathCodes ∧
    ∃ N, GreedyArena F N ∧ t.holdsTree N ∧ ∀ i : Fin 511, N.length ≤ i.val → t.node.get i = s.node.get i

/-! ### Table texts -/

/-- `number` of the grammar and its value (30_encoding.md R102, R103): "0", or a nonzero digit and digits. -/
inductive NumberText : List Byte → Nat → Prop where
  | zero : NumberText [0x30] 0
  | first (d : Nat) : 1 ≤ d → d ≤ 9 → NumberText [BitVec.ofNat 8 (0x30 + d)] d
  | more (T : List Byte) (v d : Nat) : NumberText T v → v ≠ 0 → d ≤ 9 →
      NumberText (T ++ [BitVec.ofNat 8 (0x30 + d)]) (10 * v + d)

/-- `entry *( "," entry )` and the entries it lists. -/
inductive EntriesText : List Byte → List (Nat × Nat) → Prop where
  | last (A B : List Byte) (a b : Nat) : NumberText A a → NumberText B b →
      EntriesText (A ++ 0x3A :: B) [(a, b)]
  | more (A B R : List Byte) (a b : Nat) (es : List (Nat × Nat)) : NumberText A a → NumberText B b →
      EntriesText R es → EntriesText (A ++ 0x3A :: (B ++ 0x2C :: R)) ((a, b) :: es)

/-- `table` of the grammar and the entries it lists. -/
inductive TableText : List Byte → List (Nat × Nat) → Prop where
  | empty : TableText [0x7B, 0x7D] []
  | full (R : List Byte) (es : List (Nat × Nat)) : EntriesText R es → TableText (0x7B :: (R ++ [0x7D])) es

/-- The entries pass the semantic checks of 44_container_codec.md R221. -/
def EntriesLegal (es : List (Nat × Nat)) : Prop :=
  (∀ e ∈ es, e.1 ≤ 255 ∧ 1 ≤ e.2 ∧ e.2 ≤ 4294967295) ∧ (es.map Prod.fst).Nodup

/-- The entries of the FrequencyTable, ascending in symbol value (10_state.md R35, 44_container_codec.md R210). -/
def Freq.entries (F : Freq) : List (Nat × Nat) := F.present.map fun s => (s.val, (F.get s).toNat)

/-- F[a] = b for each entry, and F[s] = 0 for every symbol not listed (R221). -/
def TableIs (F : Freq) (es : List (Nat × Nat)) : Prop :=
  (∀ (s : Fin 256) b, (s.val, b) ∈ es → (F.get s).toNat = b) ∧
    ∀ s : Fin 256, (∀ b, (s.val, b) ∉ es) → F.get s = 0

/-! ### Payloads and containers -/

/-- P is the packed payload of the bit string B (30_encoding.md R99): the padding count, then bytes whose bits are B
and that many zero bits. -/
def PayloadOf (P : List Byte) (B : Bits) : Prop :=
  ∃ (p : Byte) (Y : List Byte), P = p :: Y ∧ p.toNat ≤ 7 ∧ bytesBits Y = B ++ List.replicate p.toNat false

/-- The outcomes of Unpack(P, code, n) with OUT_CAP = cap, row by row in the order of 43_bit_packer.md R190: of each
row, the rows before it do not hold. -/
inductive UnpackGives (P : List Byte) (T : CodeTable) (n cap : Nat) : Except ErrorCode (List Byte) → Prop where
  /-- No padding byte (R191 a). -/
  | noPadding : P = [] → UnpackGives P T n cap (.error .corruptPayload)
  /-- A padding byte outside 0 to 7. -/
  | badPadding (p : Byte) (Y : List Byte) : P = p :: Y → 7 < p.toNat →
      UnpackGives P T n cap (.error .unsupportedPadding)
  /-- More padding than payload bits (R191 b). -/
  | longPadding (p : Byte) (Y : List Byte) : P = p :: Y → p.toNat ≤ 7 → 8 * Y.length < p.toNat →
      UnpackGives P T n cap (.error .corruptPayload)
  /-- A padding bit that is 1 (R191 c). -/
  | dirtyPadding (p : Byte) (Y : List Byte) : P = p :: Y → p.toNat ≤ 7 → p.toNat ≤ 8 * Y.length →
      true ∈ (bytesBits Y).drop (8 * Y.length - p.toNat) → UnpackGives P T n cap (.error .corruptPayload)
  /-- The stream is no sequence of codes: a candidate is left (R193 a). -/
  | leftover (D : Bits) : PayloadOf P D → (∀ X, (∀ x ∈ X, T.coded x) → D ≠ encodeSymbols X T) →
      UnpackGives P T n cap (.error .corruptPayload)
  /-- The stream is the codes of X, but not of the expected number of symbols (R193 b). -/
  | badCount (X : List Byte) : PayloadOf P (encodeSymbols X T) → (∀ x ∈ X, T.coded x) → X.length ≠ n →
      UnpackGives P T n cap (.error .corruptPayload)
  /-- The result does not fit OUT_BUF (R193 c). -/
  | overflow (X : List Byte) : PayloadOf P (encodeSymbols X T) → (∀ x ∈ X, T.coded x) → X.length = n → cap < n →
      UnpackGives P T n cap (.error .outputOverflow)
  /-- Success. -/
  | ok (X : List Byte) : PayloadOf P (encodeSymbols X T) → (∀ x ∈ X, T.coded x) → X.length = n → n ≤ cap →
      UnpackGives P T n cap (.ok X)

/-- The byte sequence T is a table text that denotes the table F (44_container_codec.md R220, R221). -/
def TextOf (T : List Byte) (F : Freq) : Prop := ∃ es, TableText T es ∧ EntriesLegal es ∧ TableIs F es

/-- C is a container with table text T and packed payload P (30_encoding.md R98). -/
def ContainerOf (C T P : List Byte) : Prop :=
  ∃ b0 b1 b2 b3 : Byte, C = b0 :: b1 :: b2 :: b3 :: (T ++ P) ∧
    T.length = b0.toNat * 2 ^ 24 + b1.toNat * 2 ^ 16 + b2.toNat * 2 ^ 8 + b3.toNat

/-- The length of the container of the input X (44_container_codec.md R232): 4 + |Ser| + 1 + ⌈T / 8⌉. -/
def containerLength (F : Freq) (table : CodeTable) : Nat :=
  let T := ((List.finRange 256).map fun s => (F.get s).toNat * (table.get s).len.toNat).sum
  4 + (serTable F).length + 1 + (T + 7) / 8

/-! ### Bus accesses -/

/-- The accesses that respond OK (20_memory.md R62, R63, R70). -/
def LegalAccess (cfg : Params) (a n : Nat) : Prop :=
  (n = 4 ∧ a % 4 = 0 ∧
    (a < 0x24 ∨ (0x1000 ≤ a ∧ a < 0x1400) ∨ (0x2000 ≤ a ∧ a < 0x3FF0) ∨ (0x4000 ≤ a ∧ a < 0x8000))) ∨
  ((n = 1 ∨ (n = 4 ∧ a % 4 = 0)) ∧
    ((0x1000000 ≤ a ∧ a < 0x2000000 ∧ a - 0x1000000 + n ≤ cfg.inCap) ∨
     (0x2000000 ≤ a ∧ a < 0x3000000 ∧ a - 0x2000000 + n ≤ cfg.outCap)))

/-- The data of a 4-byte access at index i of a buffer: byte i in bits 7:0, byte i + 3 in bits 31:24 (R66). -/
def WordOf (w : Word) (byte : Nat → Byte) (i : Nat) : Prop :=
  w.extractLsb' 0 8 = byte i ∧ w.extractLsb' 8 8 = byte (i + 1) ∧ w.extractLsb' 16 8 = byte (i + 2) ∧
    w.extractLsb' 24 8 = byte (i + 3)

/-- The state of the block: all of State but the port's response and the model's draw counter. -/
def SameBlock (s t : State) : Prop := t = { s with resp := t.resp, draws := t.draws }

end Sys2Proof.Machine
end

