-- ==== Sys2Proof/Certificates/Slice0/Obligations.lean ====
section
/-! DEFINITION. The statements about the model, for the provers. Each formalises rules of spec/, named in its docstring;
OBLIGATIONS.json lists them. -/

open Sys2Proof Sys2Proof.Machine

/-! ### Reset, decode, step -/

/-- R47: the reset table, for the hard reset from any state, the soft reset from any state (which keeps IN_BUF), and
the state after reset. Its two rows `any` for the buffers: every byte of IN_BUF and of OUT_BUF reads as a free draw
of its buffer, which a reset of a state draws anew. The form and the numbers of the draws are the model's (log entries
2 and 3). -/
def Obligations.ResetLeavesTheResetTable : Prop :=
  ResetValues State.reset ∧ BuffersAny State.reset State.reset.inDraw State.reset.outDraw ∧
  ∀ s : State, ResetValues s.hardReset ∧ BuffersAny s.hardReset s.draws (s.draws + 1) ∧ ResetValues s.softReset ∧
    (∀ a, s.softReset.inByte a = s.inByte a) ∧
    ∀ a, s.softReset.outByte a = Config.anyBits 8 (s.draws + 1) a

/-- The state after reset meets the invariant: R41, R43, R26, R80, R280; its clause on the parameters is R7's (log
entry 1), and its clause on the free values drawn is the model's own bookkeeping, with no rule behind it (log
entries 2 and 3). -/
def Obligations.ResetMeetsTheInvariant : Prop := State.reset.Inv

/-- Every step, of the engine, the host or the platform, keeps the invariant: the validity invariant R41, the issue
protocol (R26, R43), the error codes (R280), the canonical form and the range of the buffers (R80), the parameters
R7 asks for (log entry 1), and the model's own bookkeeping of the free values drawn, with no rule behind it (log
entries 2 and 3). -/
def Obligations.EveryStepKeepsTheInvariant : Prop :=
  ∀ s t : State, s.Inv → step s = .next t → t.Inv

/-- When the engine moves, the step is the meaning of the command in PENDING (R253). When it moves is the model's
choice, since R253 fixes no point: with BUSY = 1, once no host step is left before the completion or the host has
none (log entry 6). That a placed command runs at the very next step is the model's too (log entry 5). -/
def Obligations.StepRunsTheDecodedCommand : Prop :=
  (∀ (s : State) (i : Instr), s.status.busy = true → (s.hostSlots = 0 ∨ s.host = []) → decode s.pending = .ok i →
    step s = exec i s) ∧
  ∀ (s : State) (i : Instr),
    step (s.withFetchWord 32 (encode i).toNat) = exec i (s.withFetchWord 32 (encode i).toNat)

/-- R256: a word that fails decode completes with ILLEGAL_COMMAND, and changes nothing else. -/
def Obligations.IllegalWordsCompleteWithIllegalCommand : Prop :=
  ∀ s : State, s.status.busy = true → (s.hostSlots = 0 ∨ s.host = []) → legalWord s.pending = false →
    ∃ t, step s = .next t ∧ FailsPlain s t 0x7

/-- Decode of encode is the command, for every command and in the table's numbering. -/
def Obligations.DecodeOfEncodeIsTheCommand : Prop :=
  ∀ i : Instr, decode (encode i) = .ok i ∧ decodeTableWord 32 (encode i).toNat = some i

/-- R91, R95: the legal words are the nine of the opcode map, each decodes to the command whose word it is, and
every other word is rejected, by the name of the field that is wrong. -/
def Obligations.OnlyTheNineWordsDecode : Prop :=
  ∀ w : Word,
    (legalWord w = true ↔ ∃ i, decode w = .ok i) ∧ (∀ i, decode w = .ok i → w = encode i) ∧
    (decode w = .error .reservedField ↔ 256 ≤ w.toNat) ∧
    (decode w = .error .reservedOpcode ↔ w.toNat < 256 ∧ legalWord w = false)

/-- R92: the opcode map, word by word. -/
def Obligations.OpcodeMapWords : Prop :=
  decode 0x00000001 = .ok .encode ∧ decode 0x00000002 = .ok .decode ∧ decode 0x00000010 = .ok .count ∧
  decode 0x00000011 = .ok .buildTree ∧ decode 0x00000012 = .ok .genCodes ∧ decode 0x00000013 = .ok .pack ∧
  decode 0x00000014 = .ok .unpack ∧ decode 0x00000015 = .ok .serTable ∧ decode 0x00000016 = .ok .parseTable

/-! ### COUNT -/

/-- R130: COUNT writes every FREQ entry with the number of its symbol in the input, clears both validity flags, and
touches no tree, code or output; with IN_LEN > IN_CAP it fails with LENGTH_RANGE and writes nothing. -/
def Obligations.CountWritesEveryCount : Prop :=
  ∀ s : State, s.cfg.wf → ∃ t, exec .count s = .next t ∧
    (s.inLen.toNat ≤ s.cfg.inCap →
      (∀ x : Byte, (t.freq.get x.toFin).toNat = s.input.count x) ∧
      t.status.treeValid = false ∧ t.status.codesValid = false ∧
      Completed s t 0 ∧ SameInputs s t ∧ SameOutput s t ∧ SameTree s t) ∧
    (s.cfg.inCap < s.inLen.toNat → FailsPlain s t 0x6)

/-- R131: after a successful COUNT the counts sum to IN_LEN, and exactly the symbols that occur have a nonzero
entry. -/
def Obligations.CountSumsToInputLength : Prop :=
  ∀ s t : State, s.cfg.wf → exec .count s = .next t → t.status.err = false →
    t.freq.total = s.inLen.toNat ∧
    ∀ x : Byte, t.freq.get x.toFin ≠ 0 ↔ ∃ i, i < s.inLen.toNat ∧ s.inByte i = x

/-! ### BUILD_TREE -/

/-- R147: BUILD_TREE writes the tree that greedy merging gives (R140 to R143) from NODE[0] on, and NODE_COUNT, keeps
the entries above, sets TREE_VALID and clears CODES_VALID; with every FREQ entry 0 it fails with EMPTY_INPUT and
changes nothing. -/
def Obligations.BuildTreeWritesTheGreedyTree : Prop :=
  ∀ s : State, ∃ t, exec .buildTree s = .next t ∧
    ((∃ x, s.freq.get x ≠ 0) →
      (∃ N, GreedyArena s.freq N ∧ t.holdsTree N ∧
        ∀ i : Fin 511, N.length ≤ i.val → t.node.get i = s.node.get i) ∧
      t.status.treeValid = true ∧ t.status.codesValid = false ∧ t.freq = s.freq ∧ t.code = s.code ∧
      Completed s t 0 ∧ SameInputs s t ∧ SameOutput s t) ∧
    ((∀ x, s.freq.get x = 0) → FailsPlain s t 0x3)

/-- R142, R148: a table has only one greedy tree, since the minimum of LIVE is unique at every round. -/
def Obligations.GreedyTreeIsUnique : Prop :=
  ∀ (F : Freq) (N M : List Node), (∃ x, F.get x ≠ 0) → GreedyArena F N → GreedyArena F M → N = M

/-- R149: the structure of a successful BuildTree with n leaves, (a) to (g). -/
def Obligations.BuiltTreesAreFullBinaryTrees : Prop :=
  ∀ (F : Freq) (N : List Node) (node : Arena), buildTree F = some N →
    (∀ (i : Fin 511) (m : Node), N[i.val]? = some m → node.get i = m) →
    let n := F.present.length
    (N.length = 2 * n - 1 ∧ 1 ≤ n ∧ ∀ (i : Nat) (m : Node), N[i]? = some m → (m.leaf = false ↔ n ≤ i)) ∧
    (∀ (i : Nat) (m : Node), N[i]? = some m → m.leaf = false →
      m.left.toNat < i ∧ m.right.toNat < i ∧ m.left ≠ m.right) ∧
    (∀ c, c < 2 * n - 2 → ∃ (j : Nat) (m : Node), N[j]? = some m ∧ m.leaf = false ∧
      (m.left.toNat = c ∨ m.right.toNat = c) ∧
      ∀ (k : Nat) (m' : Node), N[k]? = some m' → m'.leaf = false → (m'.left.toNat = c ∨ m'.right.toNat = c) → k = j) ∧
    (∀ (j : Nat) (m : Node), N[j]? = some m → m.leaf = false →
      m.left.toNat ≠ 2 * n - 2 ∧ m.right.toNat ≠ 2 * n - 2) ∧
    (∃ r, N[2 * n - 2]? = some r ∧ r.f.toNat = F.total) ∧
    (∀ (i : Nat) (m : Node), N[i]? = some m → m.leaf = false →
      ∃ (a b : Node), N[m.left.toNat]? = some a ∧ N[m.right.toNat]? = some b ∧ m.f.toNat = a.f.toNat + b.f.toNat) ∧
    (∀ (p : Bits) (i : Nat), NodePath node (2 * n - 2) p i → p.length ≤ n - 1 ∧ n - 1 ≤ 255) ∧
    (n = 256 → (N.filter fun m => !m.leaf).length = 255 ∧ (N.filter fun m => m.leaf).length = 256)

/-! ### GEN_CODES -/

/-- R167: GEN_CODES writes the code of every leaf, the path to it (R160 to R163), sets CODES_VALID and keeps
everything else; with TREE_VALID = 0 it fails with SEQUENCE_ERROR and changes nothing. -/
def Obligations.GenCodesWritesThePaths : Prop :=
  ∀ s : State, s.Inv → ∃ t, exec .genCodes s = .next t ∧
    (s.status.treeValid = true →
      t.PathCodes ∧ t.status.codesValid = true ∧ t.status.treeValid = true ∧
      t.freq = s.freq ∧ t.node = s.node ∧ t.nodeCount = s.nodeCount ∧
      Completed s t 0 ∧ SameInputs s t ∧ SameOutput s t) ∧
    (s.status.treeValid = false → FailsPlain s t 0x8)

/-- R164: while CODES_VALID = 1 no code is a prefix of a different code; with two or more symbols every infinite bit
string has exactly one code as a prefix; with one symbol a string beginning with 1 has none. -/
def Obligations.CodesArePrefixFreeAndComplete : Prop :=
  ∀ s : State, s.Inv → s.status.codesValid = true →
    s.code.prefixFree ∧
    (2 ≤ s.freq.present.length → ∀ B : Nat → Bool,
      ∃! x, s.code.coded x ∧ (s.code.of x).bits = (List.range (s.code.of x).len.toNat).map B) ∧
    (s.freq.present.length = 1 → ∀ (B : Nat → Bool) (x : Byte), B 0 = true → s.code.coded x →
      (s.code.of x).bits ≠ (List.range (s.code.of x).len.toNat).map B)

/-- R163: while CODES_VALID = 1 the symbols that are leaves of the tree are exactly those with FREQ[s] ≠ 0; each of
them has a code of 1 to 255 bits, and every other symbol has CODE_LEN = CODE_VAL = 0. The bits of CODE_VAL at or
above CODE_LEN are 0 (R38). -/
def Obligations.ExactlyThePresentSymbolsHaveCodes : Prop :=
  ∀ s : State, s.Inv → s.status.codesValid = true → ∀ x : Byte,
    ((∃ i : Fin 511, i.val < s.nodeCount.toNat ∧ (s.node.get i).leaf = true ∧ (s.node.get i).sym = x) ↔
      s.freq.get x.toFin ≠ 0) ∧
    (s.freq.get x.toFin = 0 → s.code.of x = ⟨0, 0⟩) ∧
    (s.freq.get x.toFin ≠ 0 → 1 ≤ (s.code.of x).len.toNat ∧ (s.code.of x).len.toNat ≤ 255) ∧
    (s.code.of x).val.toNat < 2 ^ (s.code.of x).len.toNat

/-! ### PACK and UNPACK -/

/-- R183: PACK, its four errors in order and its result, the packed payload of the codes of the input. -/
def Obligations.PackWritesThePayload : Prop :=
  ∀ s : State, s.Inv → ∃ t, exec .pack s = .next t ∧
    (s.cfg.inCap < s.inLen.toNat → FailsOutput s t 0x6) ∧
    (s.inLen.toNat ≤ s.cfg.inCap → s.status.codesValid = false → FailsOutput s t 0x8) ∧
    (s.inLen.toNat ≤ s.cfg.inCap → s.status.codesValid = true →
      ((∃ x ∈ s.input, (s.code.of x).len = 0) → FailsOutput s t 0x9) ∧
      ((∀ x ∈ s.input, (s.code.of x).len ≠ 0) →
        ∃ R, PayloadOf R (encodeSymbols s.input s.code) ∧
          (s.cfg.outCap < R.length → FailsOutput s t 0x5) ∧
          (R.length ≤ s.cfg.outCap → Delivers s t R)))

/-- R181, R182: a bit string has one packed payload; its padding count is 0 when the length T is a multiple of 8 and
8 − (T mod 8) otherwise, at most 7, T and it together a multiple of 8, and the payload is 1 + ⌈T / 8⌉ bytes long. -/
def Obligations.PayloadIsPaddedToBytes : Prop :=
  ∀ B : Bits, ∃ (p : Byte) (Y : List Byte), PayloadOf (p :: Y) B ∧ (∀ P, PayloadOf P B → P = p :: Y) ∧
    p.toNat = (if B.length % 8 = 0 then 0 else 8 - B.length % 8) ∧ (B.length + p.toNat) % 8 = 0 ∧
    Y.length = (B.length + 7) / 8

/-- R194: UNPACK, its errors in order and its result. -/
def Obligations.UnpackReadsThePayload : Prop :=
  ∀ s : State, s.Inv → ∃ t, exec .unpack s = .next t ∧
    (s.cfg.inCap < s.inLen.toNat → FailsOutput s t 0x6) ∧
    (s.inLen.toNat ≤ s.cfg.inCap → s.status.codesValid = false → FailsOutput s t 0x8) ∧
    (s.inLen.toNat ≤ s.cfg.inCap → s.status.codesValid = true →
      (∃ r, UnpackGives s.input s.code s.freq.total s.cfg.outCap r) ∧
      (∀ e, UnpackGives s.input s.code s.freq.total s.cfg.outCap (.error e) → FailsOutput s t e.num) ∧
      (∀ X, UnpackGives s.input s.code s.freq.total s.cfg.outCap (.ok X) → Delivers s t X))

/-- R196: unpacking what PackBits gives yields the symbols packed. -/
def Obligations.UnpackOfPackIsTheInput : Prop :=
  ∀ s : State, s.Inv → s.status.codesValid = true → ∀ X : List Byte, (∀ x ∈ X, (s.code.of x).len ≠ 0) →
    X.length ≤ s.cfg.outCap →
    ∃ P, packBits X s.code = .ok P ∧ unpack P s.code X.length s.cfg.outCap = .ok X

/-! ### SER_TABLE and PARSE_TABLE -/

/-- R211: SER_TABLE writes a table text of the entries of FREQ in ascending symbol value, or fails with
OUTPUT_OVERFLOW where it does not fit. It needs neither flag. -/
def Obligations.SerTableWritesTheText : Prop :=
  ∀ s : State, s.Inv → ∃ t T, exec .serTable s = .next t ∧ TableText T s.freq.entries ∧
    (s.cfg.outCap < T.length → FailsOutput s t 0x5) ∧ (T.length ≤ s.cfg.outCap → Delivers s t T)

/-- R210: Ser(FREQ) is the only table text of the entries in ascending symbol value, 2 to 3731 bytes long; the
maximum is reached with all 256 counts equal to 4294967295. -/
def Obligations.SerIsTheOnlyTextAndShort : Prop :=
  (∀ F : Freq, TableText (serTable F) F.entries ∧ (∀ T, TableText T F.entries → T = serTable F) ∧
    2 ≤ (serTable F).length ∧ (serTable F).length ≤ 3731) ∧
  (serTable (Vector.replicate 256 0xFFFFFFFF)).length = 3731

/-- R222: PARSE_TABLE loads FREQ with the table the text denotes and clears both flags; a text outside the grammar
of R220 or failing the checks of R221 gives MALFORMED_CONTAINER, and an IN_LEN above IN_CAP gives LENGTH_RANGE, with
nothing written. -/
def Obligations.ParseTableLoadsTheTable : Prop :=
  ∀ s : State, ∃ t, exec .parseTable s = .next t ∧
    (s.cfg.inCap < s.inLen.toNat → FailsPlain s t 0x6) ∧
    (s.inLen.toNat ≤ s.cfg.inCap →
      (∀ F, TextOf s.input F → t.freq = F ∧ t.status.treeValid = false ∧ t.status.codesValid = false ∧
        Completed s t 0 ∧ SameInputs s t ∧ SameOutput s t ∧ SameTree s t) ∧
      ((∀ F, ¬ TextOf s.input F) → FailsPlain s t 0x1))

/-- R223: the table text of a table parses back to the table. -/
def Obligations.ParseOfSerIsTheTable : Prop := ∀ F : Freq, parseTable (serTable F) = some F

/-! ### ENCODE and DECODE -/

/-- R230, R231: ENCODE counts the input, builds the tree and the codes (none for an empty input), and writes the
container of the table text and the packed payload; OUTPUT_OVERFLOW keeps the steps before it. LENGTH_RANGE keeps
the tables and loses the output (OUT_LEN = 0, OUT_BUF a new free value), as R255 says of every failed output command
and V-ENC-14 does not: log entry 14. -/
def Obligations.EncodeWritesTheContainer : Prop :=
  ∀ s : State, s.Inv → ∃ t, exec .encode s = .next t ∧ SameInputs s t ∧
    (s.cfg.inCap < s.inLen.toNat → FailsOutput s t 0x6) ∧
    (s.inLen.toNat ≤ s.cfg.inCap →
      Rebuilt s t t.freq ∧ (∀ x : Byte, (t.freq.get x.toFin).toNat = s.input.count x) ∧
      ∃ C T P, ContainerOf C T P ∧ TableText T t.freq.entries ∧
        PayloadOf P (encodeSymbols s.input (if s.inLen = 0 then CodeTable.empty else t.code)) ∧
        (s.cfg.outCap < C.length → Completed s t 0x5 ∧ OutputLost s t) ∧
        (C.length ≤ s.cfg.outCap → Completed s t 0 ∧ OutputIs s t C))

/-- R232: the length of the container ENCODE writes, 4 + |Ser(FREQ)| + 1 + ⌈T / 8⌉ with T the sum of FREQ[s] times
CODE_LEN[s], where |Ser(FREQ)| is at most 3731; ENCODE succeeds exactly when it fits. -/
def Obligations.EncodeOutputLength : Prop :=
  ∀ s t : State, s.Inv → s.inLen.toNat ≤ s.cfg.inCap → exec .encode s = .next t →
    (serTable t.freq).length ≤ 3731 ∧
    (t.status.err = false ↔
      containerLength t.freq (if s.inLen = 0 then CodeTable.empty else t.code) ≤ s.cfg.outCap) ∧
    (t.status.err = false →
      t.outLen.toNat = containerLength t.freq (if s.inLen = 0 then CodeTable.empty else t.code))

/-- R236: ENCODE of the empty input writes the seven bytes 00 00 00 02 7B 7D 00, and DECODE of them succeeds with an
empty output. -/
def Obligations.EmptyInputHasTheEmptyContainer : Prop :=
  (∀ s : State, s.Inv → s.inLen = 0 → ∃ t, exec .encode s = .next t ∧ t.error.code = 0 ∧
    t.output = [0x00, 0x00, 0x00, 0x02, 0x7B, 0x7D, 0x00] ∧ (∀ x, t.freq.get x = 0) ∧
    t.status.treeValid = false ∧ t.status.codesValid = false) ∧
  (∀ s : State, s.Inv → s.inLen.toNat ≤ s.cfg.inCap → s.input = [0x00, 0x00, 0x00, 0x02, 0x7B, 0x7D, 0x00] →
    ∃ t, exec .decode s = .next t ∧ t.error.code = 0 ∧ t.outLen = 0)

/-- R240: DECODE, its errors in order, what each keeps, and its result. The code table of the unpacking is the empty
one where the table is empty (R242). -/
def Obligations.DecodeReadsTheContainer : Prop :=
  ∀ s : State, s.Inv → ∃ t, exec .decode s = .next t ∧ SameInputs s t ∧
    (s.cfg.inCap < s.inLen.toNat → FailsOutput s t 0x6) ∧
    (s.inLen.toNat ≤ s.cfg.inCap →
      ((∀ T P F, ContainerOf s.input T P → ¬ TextOf T F) → FailsOutput s t 0x1) ∧
      (∀ T P F, ContainerOf s.input T P → TextOf T F →
        let code := if ∀ x, F.get x = 0 then CodeTable.empty else t.code
        Rebuilt s t F ∧
        (∃ r, UnpackGives P code F.total s.cfg.outCap r) ∧
        (∀ e, UnpackGives P code F.total s.cfg.outCap (.error e) → Completed s t e.num ∧ OutputLost s t) ∧
        (∀ X, UnpackGives P code F.total s.cfg.outCap (.ok X) → Completed s t 0 ∧ OutputIs s t X)))

/-- R245: the round trip. DECODE of what ENCODE wrote gives the input back. -/
def Obligations.DecodeOfEncodeIsTheInput : Prop :=
  ∀ s t u : State, s.Inv → u.Inv → exec .encode s = .next t → t.status.err = false →
    u.input = t.output → u.inLen.toNat ≤ u.cfg.inCap → s.inLen.toNat ≤ u.cfg.outCap →
    ∃ v, exec .decode u = .next v ∧ v.error.code = 0 ∧ v.outLen = s.inLen ∧ v.output = s.input

/-- R246: ENCODE's output is a function of its input; a container cut short by one or more bytes fails DECODE, with
CORRUPT_PAYLOAD where the table is whole and MALFORMED_CONTAINER where it is not. -/
def Obligations.EncodeIsDeterministicAndTruncationIsFound : Prop :=
  ∀ s t : State, s.Inv → exec .encode s = .next t → t.status.err = false →
    (∀ s' t' : State, s'.Inv → exec .encode s' = .next t' → t'.status.err = false → s'.input = s.input →
      t'.output = t.output) ∧
    (∀ (u : State) (m : Nat), u.Inv → u.inLen.toNat ≤ u.cfg.inCap → m < t.output.length → u.input = t.output.take m →
      ∃ v, exec .decode u = .next v ∧
        (4 + (serTable t.freq).length ≤ m → v.error.code = 0x2 ∧ v.outLen = 0) ∧
        (m < 4 + (serTable t.freq).length → v.error.code = 0x1 ∧ v.outLen = 0))

/-! ### All commands -/

/-- R253, C7: every command completes, from every state, with ERROR, BUSY, DONE and ERR as R253 says; and no command
touches its inputs, CTRL, LAST_CMD or PENDING. -/
def Obligations.EveryCommandCompletes : Prop :=
  ∀ (i : Instr) (s : State), ∃ t, exec i s = .next t ∧ Completed s t t.error.code ∧ SameInputs s t

/-- R270, R282: every command reports only the error codes the table lists for it. -/
def Obligations.ErrorCodesAreReportedAsListed : Prop :=
  ∀ (s t : State) (i : Instr), s.cfg.wf → exec i s = .next t →
    match i with
    | .encode => t.error.code ∈ [0x0, 0x5, 0x6]
    | .decode => t.error.code ∈ [0x0, 0x1, 0x2, 0x4, 0x5, 0x6]
    | .count => t.error.code ∈ [0x0, 0x6]
    | .buildTree => t.error.code ∈ [0x0, 0x3]
    | .genCodes => t.error.code ∈ [0x0, 0x8]
    | .pack => t.error.code ∈ [0x0, 0x5, 0x6, 0x8, 0x9]
    | .unpack => t.error.code ∈ [0x0, 0x2, 0x4, 0x5, 0x6, 0x8]
    | .serTable => t.error.code ∈ [0x0, 0x5]
    | .parseTable => t.error.code ∈ [0x0, 0x1, 0x6]

/-- R254, R255: what success and failure do to the output and to the tables, command by command. A command that is
no output command leaves OUT_BUF and OUT_LEN; an output command that fails leaves OUT_LEN = 0 and OUT_BUF `any` (of
ENCODE's LENGTH_RANGE that is log entry 14), and one that succeeds writes OUT_LEN bytes and keeps those above. A
failed command other than ENCODE and DECODE keeps FREQ, NODE, CODE and both flags, and so do PACK, UNPACK and
SER_TABLE always; ENCODE and DECODE keep them or leave them rebuilt for the new FREQ, rebuilt where they succeed;
the others write what success of theirs writes, and keep the rest. -/
def Obligations.OutputsAreKeptOrLost : Prop :=
  ∀ (s t : State) (i : Instr), exec i s = .next t →
    (i ∈ [Instr.count, .buildTree, .genCodes, .parseTable] → SameOutput s t) ∧
    (i ∈ [Instr.encode, .decode, .pack, .unpack, .serTable] → t.status.err = true → OutputLost s t) ∧
    (i ∈ [Instr.encode, .decode, .pack, .unpack, .serTable] → s.Inv → t.status.err = false →
      t.outLen.toNat ≤ s.cfg.outCap ∧ OutputIs s t t.output) ∧
    (i ∉ [Instr.encode, .decode] → t.status.err = true → SameTables s t) ∧
    (i ∈ [Instr.pack, .unpack, .serTable] → SameTables s t) ∧
    (i ∈ [Instr.encode, .decode] → SameTables s t ∨ Rebuilt s t t.freq) ∧
    (i ∈ [Instr.encode, .decode] → t.status.err = false → Rebuilt s t t.freq) ∧
    (i ∈ [Instr.count, .parseTable] → t.status.err = false →
      SameTree s t ∧ t.status.treeValid = false ∧ t.status.codesValid = false) ∧
    (i = .buildTree → t.status.err = false →
      t.freq = s.freq ∧ t.code = s.code ∧ t.status.treeValid = true ∧ t.status.codesValid = false) ∧
    (i = .genCodes → t.status.err = false →
      t.freq = s.freq ∧ t.node = s.node ∧ t.nodeCount = s.nodeCount ∧ t.status.treeValid = s.status.treeValid ∧
      t.status.codesValid = true)

/-- R278, R80, R93, R12: what a command reports and delivers is a function of its operands: two states that agree on
IN_CAP and OUT_CAP, IN_LEN, the input, FREQ, TREE_VALID and CODES_VALID and the pending word have the same error,
the same FREQ and, but for OVERRUN, which each keeps, the same STATUS after a command, and the same result after an
output command, whatever else they hold: stale NODE and CODE entries, bytes of the buffers outside the input,
BLOCK_BASE, the other flags, and free values. A tree and codes that are valid after it are the same too. -/
def Obligations.ResultsDependOnTheOperandsOnly : Prop :=
  ∀ (i : Instr) (s u t v : State), s.Inv → u.Inv →
    u.cfg.inCap = s.cfg.inCap → u.cfg.outCap = s.cfg.outCap → u.inLen = s.inLen → u.input = s.input →
    u.freq = s.freq → u.status.treeValid = s.status.treeValid → u.status.codesValid = s.status.codesValid →
    u.pending = s.pending → exec i s = .next t → exec i u = .next v →
    v.error = t.error ∧ v.status = { t.status with overrun := u.status.overrun } ∧ v.freq = t.freq ∧
    (i ∈ [Instr.encode, .decode, .pack, .unpack, .serTable] → v.output = t.output) ∧
    (t.status.treeValid = true → v.nodeCount = t.nodeCount ∧
      ∀ k : Fin 511, k.val < t.nodeCount.toNat → v.node.get k = t.node.get k) ∧
    (t.status.codesValid = true → v.code = t.code)

/-! ### The host port -/

/-- R62 to R65, R70: a transaction that reaches the block responds OK exactly for the legal accesses; an ERROR
response changes no state of the block. The host goes on after it (log entry 7). -/
def Obligations.IllegalAccessesRespondError : Prop :=
  ∀ (s : State) (a n : Nat) (d : Word), a < 2 ^ 26 →
    (LegalAccess s.cfg a n →
      (∃ v, (s.transact (.read (s.cfg.blockBase + a) n)).resp = some (.readOk v)) ∧
      (s.transact (.write (s.cfg.blockBase + a) n d)).resp = some .writeOk) ∧
    (¬ LegalAccess s.cfg a n →
      (∃ e v, (s.transact (.read (s.cfg.blockBase + a) n)).resp = some (.readError e v)) ∧
      (∃ e, (s.transact (.write (s.cfg.blockBase + a) n d)).resp = some (.writeError e)) ∧
      SameBlock s (s.transact (.read (s.cfg.blockBase + a) n)) ∧
      SameBlock s (s.transact (.write (s.cfg.blockBase + a) n d)))

/-- R61: a host address outside the block's 2^26 bytes does not reach the block; the block gives no response to it
(log entry 8). -/
def Obligations.ForeignAddressesDoNotReachTheBlock : Prop :=
  ∀ (s : State) (t : Txn), (∀ a n d, t = .read a n ∨ t = .write a n d →
      a < s.cfg.blockBase ∨ s.cfg.blockBase + 2 ^ 26 ≤ a) →
    SameBlock s (s.transact t) ∧ (s.transact t).resp = none

/-- R69: reads have no side effects at any offset. -/
def Obligations.ReadsHaveNoSideEffects : Prop :=
  ∀ (s : State) (addr n : Nat), SameBlock s (s.transact (.read addr n))

/-- R69: a write to a read-only location responds OK and has no effect, busy or not. -/
def Obligations.WritesToReadOnlyLocationsDoNothing : Prop :=
  ∀ (s : State) (a n : Nat) (d : Word), LegalAccess s.cfg a n →
    (a ∈ [0x000, 0x004, 0x014, 0x01C, 0x020] ∨ (0x2000 ≤ a ∧ a < 0x8000) ∨ 0x2000000 ≤ a) →
    s.transact (.write (s.cfg.blockBase + a) n d) = { s with resp := some .writeOk }

/-- R22, R23: ID and VERSION read as their constants in every state. -/
def Obligations.IdentityRegistersAreConstant : Prop :=
  ∀ s : State,
    (s.transact (.read (s.cfg.blockBase + 0x000) 4)).resp = some (.readOk 0x48554646) ∧
    (s.transact (.read (s.cfg.blockBase + 0x004) 4)).resp = some (.readOk 0x00000001)

/-- R66, R68: a 4-byte write to IN_BUF puts data bits 7:0 in the lowest byte and so on up, leaves every other byte,
and reads back as written; a 1-byte write moves data bits 7:0 and leaves every other byte. A write of either size
changes nothing else of the block, since R69 gives it no side effect: the validity flags and IN_LEN are kept. That the
bits above are 0 where the byte reads back is the model's choice, since R66 gives the host bits 7:0 only (log entry
18). -/
def Obligations.InBufWritesAreLittleEndian : Prop :=
  ∀ (s : State) (i : Nat) (d : Word), s.Inv → s.status.busy = false →
    (i % 4 = 0 → i + 4 ≤ s.cfg.inCap →
      let t := s.transact (.write (s.cfg.blockBase + (0x1000000 + i)) 4 d)
      t.inByte i = d.extractLsb' 0 8 ∧ t.inByte (i + 1) = d.extractLsb' 8 8 ∧
      t.inByte (i + 2) = d.extractLsb' 16 8 ∧ t.inByte (i + 3) = d.extractLsb' 24 8 ∧
      (∀ a, (a < i ∨ i + 4 ≤ a) → t.inByte a = s.inByte a) ∧
      t = { s with inBuf := t.inBuf, resp := some .writeOk } ∧
      (t.transact (.read (s.cfg.blockBase + (0x1000000 + i)) 4)).resp = some (.readOk d)) ∧
    (i + 1 ≤ s.cfg.inCap →
      let t := s.transact (.write (s.cfg.blockBase + (0x1000000 + i)) 1 d)
      t.inByte i = d.extractLsb' 0 8 ∧ (∀ a, a ≠ i → t.inByte a = s.inByte a) ∧
      t = { s with inBuf := t.inBuf, resp := some .writeOk } ∧
      (t.transact (.read (s.cfg.blockBase + (0x1000000 + i)) 1)).resp =
        some (.readOk ((d.extractLsb' 0 8).setWidth 32)))

/-- R250: a write of w to CMD while BUSY = 0 latches w, sets BUSY, clears DONE and ERR and changes no other state of
the block. The model's own fields are its scheduling (log entry 6): the host steps before the completion are the
next choice of the list, or a free value of the draw number where the list is empty. -/
def Obligations.IssueLatchesTheCommand : Prop :=
  ∀ (s : State) (w : Word), s.status.busy = false →
    s.transact (.write (s.cfg.blockBase + 0x00C) 4 w) = { s with
      lastCmd := w, pending := w
      status := { s.status with busy := true, done := false, err := false }
      hostSlots := s.latencies.head?.getD (Config.latency s.draws), latencies := s.latencies.drop 1
      draws := s.draws + 1, resp := some .writeOk }

/-- R33: a write to IN_LEN while BUSY = 0 stores the whole 32-bit value, in range of IN_CAP or not, and changes
nothing else; it reads back as written. -/
def Obligations.InLenHoldsWhatIsWritten : Prop :=
  ∀ (s : State) (d : Word), s.status.busy = false →
    let t := s.transact (.write (s.cfg.blockBase + 0x018) 4 d)
    t = { s with inLen := d, resp := some .writeOk } ∧
    (t.transact (.read (t.cfg.blockBase + 0x018) 4)).resp = some (.readOk d)

/-- R42: a host write to a FREQ entry while BUSY = 0, of whatever value, writes it and clears both flags. -/
def Obligations.FreqWritesInvalidate : Prop :=
  ∀ (s : State) (x y : Fin 256) (d : Word), s.status.busy = false →
    let t := s.transact (.write (s.cfg.blockBase + (0x1000 + 4 * x.val)) 4 d)
    t.freq.get x = d ∧ (y ≠ x → t.freq.get y = s.freq.get y) ∧
    t = { s with
      freq := t.freq
      status := { s.status with treeValid := false, codesValid := false }
      resp := some .writeOk }

/-- R251: while BUSY = 1 a write to CMD, IN_LEN, FREQ or IN_BUF that responds OK does nothing but set OVERRUN; writes to
CTRL and STATUS take effect, and writes to read-only locations are ignored. -/
def Obligations.WritesWhileBusyAreDropped : Prop :=
  ∀ (s : State) (a n : Nat) (d : Word), s.status.busy = true → LegalAccess s.cfg a n →
    let t := s.transact (.write (s.cfg.blockBase + a) n d)
    ((a = 0x00C ∨ a = 0x018 ∨ (0x1000 ≤ a ∧ a < 0x1400) ∨ (0x1000000 ≤ a ∧ a < 0x2000000)) →
      t = { s with status := { s.status with overrun := true }, resp := some .writeOk }) ∧
    (a = 0x008 → t = { s.writeCtrl d with resp := some .writeOk }) ∧
    (a = 0x010 → t = { s.acknowledge d with resp := some .writeOk }) ∧
    ((a ∈ [0x000, 0x004, 0x014, 0x01C, 0x020] ∨ (0x2000 ≤ a ∧ a < 0x8000) ∨ 0x2000000 ≤ a) →
      t = { s with resp := some .writeOk })

/-- R252: while BUSY = 1, reads of CTRL, CMD, ERROR, IN_LEN and IN_BUF (1 and 4 bytes, in the lane order of R66) are
exact, STATUS reads exactly but for bits 4 and 5, and the result registers and windows, OUT_BUF by 1 and by 4 bytes
among them, read as a free draw on the bits that are fields. The model's choices: the reserved bits that read 0 in a
free draw (log entry 9), and bits 31:8 of a 1-byte read, which are 0 (log entry 18). -/
def Obligations.ReadsWhileBusy : Prop :=
  ∀ s : State, s.Inv → s.status.busy = true →
    let rd (a n : Nat) := (s.transact (.read (s.cfg.blockBase + a) n)).resp
    let free (m : Word) : Option Response := some (.readOk (Config.anyBits 32 s.draws 0 &&& m))
    rd 0x008 4 = some (.readOk (if s.irqEn then 1 else 0)) ∧ rd 0x00C 4 = some (.readOk s.lastCmd) ∧
    rd 0x014 4 = some (.readOk s.error.word) ∧ s.error.word.toNat = 256 * s.error.op.toNat + s.error.code.toNat ∧
    rd 0x018 4 = some (.readOk s.inLen) ∧
    (∃ v, rd 0x010 4 = some (.readOk v) ∧ v &&& 0xFFFFFFCF = if s.status.overrun then 9 else 1) ∧
    (∀ i, i < s.cfg.inCap → rd (0x1000000 + i) 1 = some (.readOk ((s.inByte i).setWidth 32))) ∧
    (∀ i, i % 4 = 0 → i + 4 ≤ s.cfg.inCap → ∃ v, rd (0x1000000 + i) 4 = some (.readOk v) ∧ WordOf v s.inByte i) ∧
    rd 0x01C 4 = free 0xFFFFFFFF ∧ rd 0x020 4 = free 0x1FF ∧
    (∀ x : Fin 256, rd (0x1000 + 4 * x.val) 4 = free 0xFFFFFFFF) ∧
    (∀ (i : Fin 511) (w : Fin 4), rd (0x2000 + 16 * i.val + 4 * w.val) 4 = free (nodeMask w)) ∧
    (∀ (x : Fin 256) (w : Fin 16), rd (0x4000 + 64 * x.val + 4 * w.val) 4 = free (codeMask w)) ∧
    (∀ i, i < s.cfg.outCap → rd (0x2000000 + i) 1 = free 0xFF) ∧
    (∀ i, i % 4 = 0 → i + 4 ≤ s.cfg.outCap → rd (0x2000000 + i) 4 = free 0xFFFFFFFF) ∧
    (∀ addr n, (s.transact (.read (s.cfg.blockBase + addr) n)).resp ≠ none →
      (s.transact (.read (s.cfg.blockBase + addr) n)).draws = s.draws + 1)

/-- R257: a write of d to STATUS clears DONE, ERR and OVERRUN where bit 1, 2 or 3 of d is 1, busy or not, and
changes nothing else. -/
def Obligations.StatusWriteAcknowledges : Prop :=
  ∀ (s : State) (d : Word),
    s.transact (.write (s.cfg.blockBase + 0x010) 4 d) = { s with
      status := { s.status with
        done := if d.getLsbD 1 then false else s.status.done
        err := if d.getLsbD 2 then false else s.status.err
        overrun := if d.getLsbD 3 then false else s.status.overrun }
      resp := some .writeOk }

/-- R258, R259: a write to CTRL with bit 1 set performs the soft reset: every register has its reset value, IN_BUF is
kept, OUT_BUF is a new free value; otherwise IRQ_EN becomes bit 0 and nothing else changes. -/
def Obligations.CtrlWriteSetsOrResets : Prop :=
  ∀ (s : State) (d : Word),
    let t := s.transact (.write (s.cfg.blockBase + 0x008) 4 d)
    (d.getLsbD 1 = false → t = { s with irqEn := d.getLsbD 0, resp := some .writeOk }) ∧
    (d.getLsbD 1 = true → ResetValues t ∧ (∀ a, t.inByte a = s.inByte a) ∧ t.cfg = s.cfg ∧ t.host = s.host ∧
      (∀ a, t.outByte a = Config.anyBits 8 t.outDraw a) ∧ t.outDraw = s.draws + 1)

/-- R300: the hard reset is one step that leaves the reset table and abandons a pending command (BUSY and PENDING
are 0). IN_BUF and OUT_BUF are `any` after it: every byte reads as a new free draw (log entries 2 and 3). A transaction
issued while rst is asserted has no step (X1), which the model says by a refusal (log entry 10). -/
def Obligations.HardResetIsOneStep : Prop :=
  ∀ (s : State) (rest : List HostOp), s.engineTurn = false →
    (s.host = .hardReset :: rest → ∃ t, step s = .next t ∧ ResetValues t ∧ BuffersAny t s.draws (s.draws + 1) ∧
      t.cfg = s.cfg ∧ t.host = rest) ∧
    (∀ x, s.host = .txnInReset x :: rest → step s = .refused .transactionDuringReset)

/-- R45, R286: `irq` is high exactly while IRQ_EN and DONE are 1: after a completion it is IRQ_EN, after an issue
and after clearing DONE it is low. -/
def Obligations.IrqFollowsEnableAndDone : Prop :=
  (∀ s : State, s.irq = true ↔ s.irqEn = true ∧ s.status.done = true) ∧
  (∀ (s t : State) (i : Instr), exec i s = .next t → t.irq = s.irqEn) ∧
  (∀ (s : State) (w : Word), s.status.busy = false →
    (s.transact (.write (s.cfg.blockBase + 0x00C) 4 w)).irq = false) ∧
  (∀ (s : State) (d : Word), d.getLsbD 1 = true →
    (s.transact (.write (s.cfg.blockBase + 0x010) 4 d)).irq = false)

/-- R100, R101: the NODE and CODE windows, word by word, while the block is idle and the tree and the codes are
valid; FREQ, IN_LEN, OUT_LEN and NODE_COUNT read as their values. -/
def Obligations.WindowsShowTheRegisterFiles : Prop :=
  ∀ s : State, s.status.busy = false →
    let rd (a : Nat) (v : Nat) := ∃ w : Word, (s.transact (.read (s.cfg.blockBase + a) 4)).resp = some (.readOk w) ∧
      w.toNat = v
    (s.status.treeValid = true → ∀ i : Fin 511, i.val < s.nodeCount.toNat →
      let n := s.node.get i
      rd (0x2000 + 16 * i.val) (n.f.toNat % 2 ^ 32) ∧ rd (0x2004 + 16 * i.val) (n.f.toNat / 2 ^ 32) ∧
      rd (0x2008 + 16 * i.val) (n.leaf.toNat * 2 ^ 31 + n.sym.toNat) ∧
      rd (0x200C + 16 * i.val) (n.right.toNat * 2 ^ 16 + n.left.toNat)) ∧
    (s.status.codesValid = true → ∀ x : Fin 256,
      rd (0x4000 + 64 * x.val) (s.code.get x).len.toNat ∧
      (∀ k, 1 ≤ k → k ≤ 8 →
        rd (0x4000 + 64 * x.val + 4 * k) ((s.code.get x).val.toNat / 2 ^ (32 * (k - 1)) % 2 ^ 32)) ∧
      ∀ k, 9 ≤ k → k ≤ 15 → rd (0x4000 + 64 * x.val + 4 * k) 0) ∧
    (∀ x : Fin 256, rd (0x1000 + 4 * x.val) (s.freq.get x).toNat) ∧
    rd 0x018 s.inLen.toNat ∧ rd 0x01C s.outLen.toNat ∧ rd 0x020 s.nodeCount.toNat

/-- R24, R25, R26, R32, R39, R40, R66: what an idle block reads as at CTRL, CMD, STATUS and ERROR, bit field by bit
field, and at the two buffers: a 1-byte read carries the byte in data bits 7:0, a 4-byte read its four bytes, the
lowest index in data bits 7:0. -/
def Obligations.IdleReadsShowTheRegistersAndBuffers : Prop :=
  ∀ s : State, s.cfg.wf → s.status.busy = false →
    let rd (a n : Nat) (ok : Word → Prop) :=
      ∃ w : Word, (s.transact (.read (s.cfg.blockBase + a) n)).resp = some (.readOk w) ∧ ok w
    rd 0x008 4 (fun w => w.toNat = s.irqEn.toNat) ∧
    rd 0x00C 4 (fun w => w = s.lastCmd) ∧
    rd 0x010 4 (fun w => w.toNat = 2 * s.status.done.toNat + 4 * s.status.err.toNat + 8 * s.status.overrun.toNat +
      16 * s.status.treeValid.toNat + 32 * s.status.codesValid.toNat) ∧
    rd 0x014 4 (fun w => w.toNat = 256 * s.error.op.toNat + s.error.code.toNat) ∧
    (∀ i, i < s.cfg.inCap → rd (0x1000000 + i) 1 fun w => w.extractLsb' 0 8 = s.inByte i) ∧
    (∀ i, i % 4 = 0 → i + 4 ≤ s.cfg.inCap → rd (0x1000000 + i) 4 fun w => WordOf w s.inByte i) ∧
    (∀ i, i < s.cfg.outCap → rd (0x2000000 + i) 1 fun w => w.extractLsb' 0 8 = s.outByte i) ∧
    (∀ i, i % 4 = 0 → i + 4 ≤ s.cfg.outCap → rd (0x2000000 + i) 4 fun w => WordOf w s.outByte i)

/-- R37, R38, U4, U5: while the block is idle, a NODE word reads as a free draw, a new one at each read, for every
entry while TREE_VALID = 0 and for the entries at or above NODE_COUNT, and a CODE word while CODES_VALID = 0. The
reserved bits of the word read 0 all the same, which is the model's reading of F3 (log entry 9). -/
def Obligations.InvalidWindowsReadFree : Prop :=
  ∀ s : State, s.status.busy = false →
    let free (a : Nat) (m : Word) :=
      s.transact (.read (s.cfg.blockBase + a) 4) =
        { s with resp := some (.readOk (Config.anyBits 32 s.draws 0 &&& m)), draws := s.draws + 1 }
    (∀ (i : Fin 511) (w : Fin 4), (s.status.treeValid = false ∨ s.nodeCount.toNat ≤ i.val) →
      free (0x2000 + 16 * i.val + 4 * w.val)
        ([0xFFFFFFFF, 0x000000FF, 0x800000FF, 0x01FF01FF].getD w.val 0)) ∧
    (s.status.codesValid = false → ∀ x : Fin 256,
      free (0x4000 + 64 * x.val) 0x000000FF ∧
      (∀ k, 1 ≤ k → k ≤ 7 → free (0x4000 + 64 * x.val + 4 * k) 0xFFFFFFFF) ∧
      free (0x4020 + 64 * x.val) 0x7FFFFFFF ∧
      ∀ k, 9 ≤ k → k ≤ 15 → free (0x4000 + 64 * x.val + 4 * k) 0)

/-! ### The whole machine -/

/-- The machine never stops with a fault, since nothing in the spec is stuck; it refuses only a transaction during
reset (log entry 10), and never changes its parameters. -/
def Obligations.StepsNeverFault : Prop :=
  ∀ s : State, (∃ t, step s = .next t ∧ t.cfg = s.cfg) ∨
    (step s = .refused .transactionDuringReset ∧ ∃ x rest, s.host = .txnInReset x :: rest)

/-- R75, R312: while a command is pending, no step of the host changes what it reads or what it will write: PENDING,
LAST_CMD, IN_LEN, IN_BUF, FREQ, NODE, NODE_COUNT, CODE, OUT_LEN, OUT_BUF, ERROR and the validity flags. -/
def Obligations.PendingCommandsAreIsolated : Prop :=
  ∀ s t : State, s.status.busy = true → step s = .next t → t.status.busy = true →
    t.pending = s.pending ∧ t.lastCmd = s.lastCmd ∧ t.inLen = s.inLen ∧ t.inBuf = s.inBuf ∧ t.inDraw = s.inDraw ∧
    t.outBuf = s.outBuf ∧ t.outDraw = s.outDraw ∧ t.outLen = s.outLen ∧ t.error = s.error ∧ SameTables s t

/-- The measure of the model's scheduling (log entry 6): while BUSY stays 1, every step lowers the number of host
steps left before the completion. That number is a free choice, so no bound is claimed; that the completion comes is
WaitLoopEnds. -/
def Obligations.PendingCommandsUseUpHostSteps : Prop :=
  ∀ s t : State, s.status.busy = true → step s = .next t → t.status.busy = true → t.hostSlots < s.hostSlots

/-- R97, R253: the WAIT loop ends, at the completion of the pending command and not before. That the engine moves
after finitely many host steps, and moves first when its turn has come, is the model's scheduling (log entries 6 and
19). -/
def Obligations.WaitLoopEnds : Prop :=
  ∀ (s : State) (rest : List HostOp), s.host = .wait :: rest →
    ∃ k t, Host.Core.run Sys2Proof.core k s = .next t ∧ t.host = rest ∧ t.status.busy = false ∧
      ∃ v : Word, t.resp = some (.readOk v) ∧ v.getLsbD 0 = false

/-- R30: OVERRUN, once set, is cleared only by a STATUS write with bit 3 set, a soft reset or a hard reset. -/
def Obligations.OverrunIsSticky : Prop :=
  ∀ s t : State, s.status.overrun = true → step s = .next t → t.status.overrun = false →
    ∃ rest, s.host = .hardReset :: rest ∨
      (∃ d : Word, s.host = .txn (.write (s.cfg.blockBase + 0x010) 4 d) :: rest ∧ d.getLsbD 3 = true) ∨
      (∃ d : Word, s.host = .txn (.write (s.cfg.blockBase + 0x008) 4 d) :: rest ∧ d.getLsbD 1 = true)

/-- R32, R36: ERROR and NODE_COUNT are written only by a completion and by the resets, NODE_COUNT only by a
completion that built the tree of FREQ. -/
def Obligations.ErrorAndNodeCountChangeAtCompletions : Prop :=
  ∀ s t : State, step s = .next t →
    (t.error ≠ s.error → s.engineTurn = true ∨ ResetValues t) ∧
    (t.nodeCount ≠ s.nodeCount → ResetValues t ∨
      (s.engineTurn = true ∧ t.status.treeValid = true ∧ ∃ N, buildTree t.freq = some N ∧ t.holdsTree N))

/-- R42, R31: whenever a step changes FREQ, both validity flags are 0 after it, unless it is a completion that built
the tree and the codes of the new FREQ. -/
def Obligations.ValidFlagsSurviveNoFreqChange : Prop :=
  ∀ s t : State, step s = .next t → t.freq ≠ s.freq →
    (t.status.treeValid = false ∧ t.status.codesValid = false) ∨
    (s.engineTurn = true ∧ t.status.treeValid = true ∧ t.status.codesValid = true ∧ t.PathCodes ∧
      ∃ N, buildTree t.freq = some N ∧ t.holdsTree N)

/-- R60, R61, R97, and 60_exceptions.md R293: while the engine is not to move, a step is the host's, and a host step
is its bus transaction and nothing more: a transaction of its program is carried out as it stands, an item of the WAIT
loop is a read of STATUS that stays in the program while BUSY is 1, and a host with nothing left leaves the state as
it is. The program in State, its WAIT item and the count of host steps before a completion are the model's (log
entries 5, 6 and 19). -/
def Obligations.HostStepsAreTransactions : Prop :=
  ∀ s : State, (s.status.busy = false ∨ (s.hostSlots ≠ 0 ∧ s.host ≠ [])) →
    (s.host = [] → step s = .next s) ∧
    (∀ x rest, s.host = .txn x :: rest →
      step s = .next (({ s with host := rest, hostSlots := s.hostSlots - 1 } : State).transact x)) ∧
    (∀ rest, s.host = .wait :: rest →
      step s = .next (({ s with
        host := if s.status.busy then .wait :: rest else rest
        hostSlots := s.hostSlots - 1 } : State).transact (.read (s.cfg.blockBase + 0x010) 4)))
end

