-- ==== Sys2Proof/Laws/Bits.lean ====
section
/-! SUPPORT. The laws of the bit and byte orders: packing and unpacking bytes, padding, big-endian numbers. -/

namespace Sys2Proof.Machine

theorem byteBits_ofBits : ∀ b0 b1 b2 b3 b4 b5 b6 b7 : Bool,
    byteBits (BitVec.ofNat 8 (bitsValue [b0, b1, b2, b3, b4, b5, b6, b7])) = [b0, b1, b2, b3, b4, b5, b6, b7] := by
  decide

@[simp] theorem byteBits_length (b : Byte) : (byteBits b).length = 8 := rfl

@[simp] theorem bytesBits_nil : bytesBits [] = [] := rfl

@[simp] theorem bytesBits_cons (b : Byte) (Y : List Byte) : bytesBits (b :: Y) = byteBits b ++ bytesBits Y := rfl

@[simp] theorem bytesBits_length (Y : List Byte) : (bytesBits Y).length = 8 * Y.length := by
  induction Y with
  | nil => rfl
  | cons b Y ih => simp [ih]; omega

theorem bytesBits_append (Y Z : List Byte) : bytesBits (Y ++ Z) = bytesBits Y ++ bytesBits Z := by
  simp [bytesBits]

theorem bytesBits_packBytes (B : Bits) (h : B.length % 8 = 0) : bytesBits (packBytes B) = B := by
  induction B using packBytes.induct with
  | case1 b0 b1 b2 b3 b4 b5 b6 b7 rest ih =>
    rw [packBytes, bytesBits_cons, byteBits_ofBits, ih (by simp at h; omega)]; rfl
  | case2 B hB =>
    match B, h, hB with
    | [], _, _ => rfl
    | [_], h, _ | [_, _], h, _ | [_, _, _], h, _ | [_, _, _, _], h, _ | [_, _, _, _, _], h, _
    | [_, _, _, _, _, _], h, _ | [_, _, _, _, _, _, _], h, _ => simp at h
    | b0 :: b1 :: b2 :: b3 :: b4 :: b5 :: b6 :: b7 :: rest, _, hB =>
      exact absurd rfl (hB b0 b1 b2 b3 b4 b5 b6 b7 rest)

theorem bitsValue_byteBits : ∀ b : Byte, BitVec.ofNat 8 (bitsValue (byteBits b)) = b := by decide

theorem packBytes_bytesBits (Y : List Byte) : packBytes (bytesBits Y) = Y := by
  induction Y with
  | nil => rfl
  | cons b Y ih =>
    have e := bitsValue_byteBits b
    rw [bytesBits_cons]
    simp only [byteBits, List.cons_append, List.nil_append, packBytes] at e ⊢
    rw [e, ih]

theorem bytesBits_injective {Y Z : List Byte} (h : bytesBits Y = bytesBits Z) : Y = Z := by
  rw [← packBytes_bytesBits Y, h, packBytes_bytesBits]

theorem packBytes_length (B : Bits) (h : B.length % 8 = 0) : (packBytes B).length = B.length / 8 := by
  have := congrArg List.length (bytesBits_packBytes B h)
  rw [bytesBits_length] at this; omega

/-! ### Padding -/

theorem padCount_le (T : Nat) : padCount T ≤ 7 := by unfold padCount; omega

theorem padCount_dvd (T : Nat) : (T + padCount T) % 8 = 0 := by unfold padCount; omega

theorem padCount_toNat (T : Nat) : (BitVec.ofNat 8 (padCount T)).toNat = padCount T := by
  have := padCount_le T
  simp [BitVec.toNat_ofNat]; omega

/-- framePayload gives a packed payload of its bit string. -/
theorem framePayload_spec (B : Bits) : PayloadOf (framePayload B) B := by
  refine ⟨_, _, rfl, ?_, ?_⟩
  · rw [padCount_toNat]; exact padCount_le _
  · rw [padCount_toNat, bytesBits_packBytes]
    rw [List.length_append, List.length_replicate]; exact padCount_dvd _

/-- The packed payload of a bit string is unique. -/
theorem PayloadOf.eq_framePayload {P : List Byte} {B : Bits} (h : PayloadOf P B) : P = framePayload B := by
  obtain ⟨p, Y, rfl, hp, hY⟩ := h
  have hl := congrArg List.length hY
  simp only [bytesBits_length, List.length_append, List.length_replicate] at hl
  have e : p.toNat = padCount B.length := by unfold padCount; omega
  have e' : p = BitVec.ofNat 8 (padCount B.length) := by
    apply BitVec.eq_of_toNat_eq; rw [padCount_toNat, e]
  unfold framePayload
  rw [← e', ← e, ← hY, packBytes_bytesBits]

theorem framePayload_length (B : Bits) : (framePayload B).length = 1 + (B.length + 7) / 8 := by
  unfold framePayload
  rw [List.length_cons, packBytes_length _ (by simp [padCount_dvd])]
  simp only [List.length_append, List.length_replicate]
  unfold padCount; omega

/-! ### Big-endian numbers -/

theorem rdBE_be32 (x : Word) : rdBE (be32 x) = x.toNat := by
  have := x.isLt
  simp only [rdBE, be32, List.foldl, BitVec.extractLsb'_toNat, Nat.shiftRight_eq_div_pow]
  omega

@[simp] theorem be32_length (x : Word) : (be32 x).length = 4 := rfl

end Sys2Proof.Machine
end

