-- ==== Sys2Proof/Laws/State.lean ====
section
/-! SUPPORT. One lemma per field per update of State, and per flag per update of Status, so that no proof unfolds a
record update. -/

namespace Sys2Proof.Machine

variable (s : State)

/-! ### putFreq -/

@[simp] theorem putFreq_cfg (F : Freq) : (s.putFreq F).cfg = s.cfg := rfl
@[simp] theorem putFreq_irqEn (F : Freq) : (s.putFreq F).irqEn = s.irqEn := rfl
@[simp] theorem putFreq_lastCmd (F : Freq) : (s.putFreq F).lastCmd = s.lastCmd := rfl
@[simp] theorem putFreq_pending (F : Freq) : (s.putFreq F).pending = s.pending := rfl
@[simp] theorem putFreq_status (F : Freq) : (s.putFreq F).status = s.status.invalidated := rfl
@[simp] theorem putFreq_error (F : Freq) : (s.putFreq F).error = s.error := rfl
@[simp] theorem putFreq_inLen (F : Freq) : (s.putFreq F).inLen = s.inLen := rfl
@[simp] theorem putFreq_outLen (F : Freq) : (s.putFreq F).outLen = s.outLen := rfl
@[simp] theorem putFreq_freq (F : Freq) : (s.putFreq F).freq = F := rfl
@[simp] theorem putFreq_nodeCount (F : Freq) : (s.putFreq F).nodeCount = s.nodeCount := rfl
@[simp] theorem putFreq_node (F : Freq) : (s.putFreq F).node = s.node := rfl
@[simp] theorem putFreq_code (F : Freq) : (s.putFreq F).code = s.code := rfl
@[simp] theorem putFreq_inBuf (F : Freq) : (s.putFreq F).inBuf = s.inBuf := rfl
@[simp] theorem putFreq_outBuf (F : Freq) : (s.putFreq F).outBuf = s.outBuf := rfl
@[simp] theorem putFreq_inDraw (F : Freq) : (s.putFreq F).inDraw = s.inDraw := rfl
@[simp] theorem putFreq_outDraw (F : Freq) : (s.putFreq F).outDraw = s.outDraw := rfl
@[simp] theorem putFreq_draws (F : Freq) : (s.putFreq F).draws = s.draws := rfl
@[simp] theorem putFreq_hostSlots (F : Freq) : (s.putFreq F).hostSlots = s.hostSlots := rfl
@[simp] theorem putFreq_latencies (F : Freq) : (s.putFreq F).latencies = s.latencies := rfl
@[simp] theorem putFreq_host (F : Freq) : (s.putFreq F).host = s.host := rfl
@[simp] theorem putFreq_resp (F : Freq) : (s.putFreq F).resp = s.resp := rfl

/-! ### putTree -/

@[simp] theorem putTree_cfg (N : List Node) : (s.putTree N).cfg = s.cfg := rfl
@[simp] theorem putTree_irqEn (N : List Node) : (s.putTree N).irqEn = s.irqEn := rfl
@[simp] theorem putTree_lastCmd (N : List Node) : (s.putTree N).lastCmd = s.lastCmd := rfl
@[simp] theorem putTree_pending (N : List Node) : (s.putTree N).pending = s.pending := rfl
@[simp] theorem putTree_status (N : List Node) : (s.putTree N).status = s.status.treeBuilt := rfl
@[simp] theorem putTree_error (N : List Node) : (s.putTree N).error = s.error := rfl
@[simp] theorem putTree_inLen (N : List Node) : (s.putTree N).inLen = s.inLen := rfl
@[simp] theorem putTree_outLen (N : List Node) : (s.putTree N).outLen = s.outLen := rfl
@[simp] theorem putTree_freq (N : List Node) : (s.putTree N).freq = s.freq := rfl
@[simp] theorem putTree_nodeCount (N : List Node) : (s.putTree N).nodeCount = BitVec.ofNat 9 N.length := rfl
@[simp] theorem putTree_node (N : List Node) :
    (s.putTree N).node = Vector.ofFn fun i => (N[i.val]?).getD (s.node.get i) := rfl
@[simp] theorem putTree_code (N : List Node) : (s.putTree N).code = s.code := rfl
@[simp] theorem putTree_inBuf (N : List Node) : (s.putTree N).inBuf = s.inBuf := rfl
@[simp] theorem putTree_outBuf (N : List Node) : (s.putTree N).outBuf = s.outBuf := rfl
@[simp] theorem putTree_inDraw (N : List Node) : (s.putTree N).inDraw = s.inDraw := rfl
@[simp] theorem putTree_outDraw (N : List Node) : (s.putTree N).outDraw = s.outDraw := rfl
@[simp] theorem putTree_draws (N : List Node) : (s.putTree N).draws = s.draws := rfl
@[simp] theorem putTree_hostSlots (N : List Node) : (s.putTree N).hostSlots = s.hostSlots := rfl
@[simp] theorem putTree_latencies (N : List Node) : (s.putTree N).latencies = s.latencies := rfl
@[simp] theorem putTree_host (N : List Node) : (s.putTree N).host = s.host := rfl
@[simp] theorem putTree_resp (N : List Node) : (s.putTree N).resp = s.resp := rfl

/-! ### putCodes -/

@[simp] theorem putCodes_cfg (T : CodeTable) : (s.putCodes T).cfg = s.cfg := rfl
@[simp] theorem putCodes_irqEn (T : CodeTable) : (s.putCodes T).irqEn = s.irqEn := rfl
@[simp] theorem putCodes_lastCmd (T : CodeTable) : (s.putCodes T).lastCmd = s.lastCmd := rfl
@[simp] theorem putCodes_pending (T : CodeTable) : (s.putCodes T).pending = s.pending := rfl
@[simp] theorem putCodes_status (T : CodeTable) : (s.putCodes T).status = s.status.codesBuilt := rfl
@[simp] theorem putCodes_error (T : CodeTable) : (s.putCodes T).error = s.error := rfl
@[simp] theorem putCodes_inLen (T : CodeTable) : (s.putCodes T).inLen = s.inLen := rfl
@[simp] theorem putCodes_outLen (T : CodeTable) : (s.putCodes T).outLen = s.outLen := rfl
@[simp] theorem putCodes_freq (T : CodeTable) : (s.putCodes T).freq = s.freq := rfl
@[simp] theorem putCodes_nodeCount (T : CodeTable) : (s.putCodes T).nodeCount = s.nodeCount := rfl
@[simp] theorem putCodes_node (T : CodeTable) : (s.putCodes T).node = s.node := rfl
@[simp] theorem putCodes_code (T : CodeTable) : (s.putCodes T).code = T := rfl
@[simp] theorem putCodes_inBuf (T : CodeTable) : (s.putCodes T).inBuf = s.inBuf := rfl
@[simp] theorem putCodes_outBuf (T : CodeTable) : (s.putCodes T).outBuf = s.outBuf := rfl
@[simp] theorem putCodes_inDraw (T : CodeTable) : (s.putCodes T).inDraw = s.inDraw := rfl
@[simp] theorem putCodes_outDraw (T : CodeTable) : (s.putCodes T).outDraw = s.outDraw := rfl
@[simp] theorem putCodes_draws (T : CodeTable) : (s.putCodes T).draws = s.draws := rfl
@[simp] theorem putCodes_hostSlots (T : CodeTable) : (s.putCodes T).hostSlots = s.hostSlots := rfl
@[simp] theorem putCodes_latencies (T : CodeTable) : (s.putCodes T).latencies = s.latencies := rfl
@[simp] theorem putCodes_host (T : CodeTable) : (s.putCodes T).host = s.host := rfl
@[simp] theorem putCodes_resp (T : CodeTable) : (s.putCodes T).resp = s.resp := rfl

/-! ### putOutput -/

@[simp] theorem putOutput_cfg (R : List Byte) : (s.putOutput R).cfg = s.cfg := rfl
@[simp] theorem putOutput_irqEn (R : List Byte) : (s.putOutput R).irqEn = s.irqEn := rfl
@[simp] theorem putOutput_lastCmd (R : List Byte) : (s.putOutput R).lastCmd = s.lastCmd := rfl
@[simp] theorem putOutput_pending (R : List Byte) : (s.putOutput R).pending = s.pending := rfl
@[simp] theorem putOutput_status (R : List Byte) : (s.putOutput R).status = s.status := rfl
@[simp] theorem putOutput_error (R : List Byte) : (s.putOutput R).error = s.error := rfl
@[simp] theorem putOutput_inLen (R : List Byte) : (s.putOutput R).inLen = s.inLen := rfl
@[simp] theorem putOutput_outLen (R : List Byte) : (s.putOutput R).outLen = BitVec.ofNat 32 R.length := rfl
@[simp] theorem putOutput_freq (R : List Byte) : (s.putOutput R).freq = s.freq := rfl
@[simp] theorem putOutput_nodeCount (R : List Byte) : (s.putOutput R).nodeCount = s.nodeCount := rfl
@[simp] theorem putOutput_node (R : List Byte) : (s.putOutput R).node = s.node := rfl
@[simp] theorem putOutput_code (R : List Byte) : (s.putOutput R).code = s.code := rfl
@[simp] theorem putOutput_inBuf (R : List Byte) : (s.putOutput R).inBuf = s.inBuf := rfl
@[simp] theorem putOutput_outBuf (R : List Byte) : (s.putOutput R).outBuf = s.outBuf.writeBytes 0 R := rfl
@[simp] theorem putOutput_inDraw (R : List Byte) : (s.putOutput R).inDraw = s.inDraw := rfl
@[simp] theorem putOutput_outDraw (R : List Byte) : (s.putOutput R).outDraw = s.outDraw := rfl
@[simp] theorem putOutput_draws (R : List Byte) : (s.putOutput R).draws = s.draws := rfl
@[simp] theorem putOutput_hostSlots (R : List Byte) : (s.putOutput R).hostSlots = s.hostSlots := rfl
@[simp] theorem putOutput_latencies (R : List Byte) : (s.putOutput R).latencies = s.latencies := rfl
@[simp] theorem putOutput_host (R : List Byte) : (s.putOutput R).host = s.host := rfl
@[simp] theorem putOutput_resp (R : List Byte) : (s.putOutput R).resp = s.resp := rfl

/-! ### dropOutput -/

@[simp] theorem dropOutput_cfg : s.dropOutput.cfg = s.cfg := rfl
@[simp] theorem dropOutput_irqEn : s.dropOutput.irqEn = s.irqEn := rfl
@[simp] theorem dropOutput_lastCmd : s.dropOutput.lastCmd = s.lastCmd := rfl
@[simp] theorem dropOutput_pending : s.dropOutput.pending = s.pending := rfl
@[simp] theorem dropOutput_status : s.dropOutput.status = s.status := rfl
@[simp] theorem dropOutput_error : s.dropOutput.error = s.error := rfl
@[simp] theorem dropOutput_inLen : s.dropOutput.inLen = s.inLen := rfl
@[simp] theorem dropOutput_outLen : s.dropOutput.outLen = 0 := rfl
@[simp] theorem dropOutput_freq : s.dropOutput.freq = s.freq := rfl
@[simp] theorem dropOutput_nodeCount : s.dropOutput.nodeCount = s.nodeCount := rfl
@[simp] theorem dropOutput_node : s.dropOutput.node = s.node := rfl
@[simp] theorem dropOutput_code : s.dropOutput.code = s.code := rfl
@[simp] theorem dropOutput_inBuf : s.dropOutput.inBuf = s.inBuf := rfl
@[simp] theorem dropOutput_outBuf : s.dropOutput.outBuf = [] := rfl
@[simp] theorem dropOutput_inDraw : s.dropOutput.inDraw = s.inDraw := rfl
@[simp] theorem dropOutput_outDraw : s.dropOutput.outDraw = s.draws := rfl
@[simp] theorem dropOutput_draws : s.dropOutput.draws = s.draws + 1 := rfl
@[simp] theorem dropOutput_hostSlots : s.dropOutput.hostSlots = s.hostSlots := rfl
@[simp] theorem dropOutput_latencies : s.dropOutput.latencies = s.latencies := rfl
@[simp] theorem dropOutput_host : s.dropOutput.host = s.host := rfl
@[simp] theorem dropOutput_resp : s.dropOutput.resp = s.resp := rfl

/-! ### report -/

@[simp] theorem report_cfg (e : BitVec 4) : (s.report e).cfg = s.cfg := rfl
@[simp] theorem report_irqEn (e : BitVec 4) : (s.report e).irqEn = s.irqEn := rfl
@[simp] theorem report_lastCmd (e : BitVec 4) : (s.report e).lastCmd = s.lastCmd := rfl
@[simp] theorem report_pending (e : BitVec 4) : (s.report e).pending = s.pending := rfl
@[simp] theorem report_status (e : BitVec 4) : (s.report e).status = s.status.completed (e != 0) := rfl
@[simp] theorem report_error (e : BitVec 4) : (s.report e).error = ⟨e, opField s.pending⟩ := rfl
@[simp] theorem report_inLen (e : BitVec 4) : (s.report e).inLen = s.inLen := rfl
@[simp] theorem report_outLen (e : BitVec 4) : (s.report e).outLen = s.outLen := rfl
@[simp] theorem report_freq (e : BitVec 4) : (s.report e).freq = s.freq := rfl
@[simp] theorem report_nodeCount (e : BitVec 4) : (s.report e).nodeCount = s.nodeCount := rfl
@[simp] theorem report_node (e : BitVec 4) : (s.report e).node = s.node := rfl
@[simp] theorem report_code (e : BitVec 4) : (s.report e).code = s.code := rfl
@[simp] theorem report_inBuf (e : BitVec 4) : (s.report e).inBuf = s.inBuf := rfl
@[simp] theorem report_outBuf (e : BitVec 4) : (s.report e).outBuf = s.outBuf := rfl
@[simp] theorem report_inDraw (e : BitVec 4) : (s.report e).inDraw = s.inDraw := rfl
@[simp] theorem report_outDraw (e : BitVec 4) : (s.report e).outDraw = s.outDraw := rfl
@[simp] theorem report_draws (e : BitVec 4) : (s.report e).draws = s.draws := rfl
@[simp] theorem report_hostSlots (e : BitVec 4) : (s.report e).hostSlots = s.hostSlots := rfl
@[simp] theorem report_latencies (e : BitVec 4) : (s.report e).latencies = s.latencies := rfl
@[simp] theorem report_host (e : BitVec 4) : (s.report e).host = s.host := rfl
@[simp] theorem report_resp (e : BitVec 4) : (s.report e).resp = s.resp := rfl

/-! ### acknowledge -/

@[simp] theorem acknowledge_cfg (d : Word) : (s.acknowledge d).cfg = s.cfg := rfl
@[simp] theorem acknowledge_irqEn (d : Word) : (s.acknowledge d).irqEn = s.irqEn := rfl
@[simp] theorem acknowledge_lastCmd (d : Word) : (s.acknowledge d).lastCmd = s.lastCmd := rfl
@[simp] theorem acknowledge_pending (d : Word) : (s.acknowledge d).pending = s.pending := rfl
@[simp] theorem acknowledge_status (d : Word) : (s.acknowledge d).status = s.status.acked d := rfl
@[simp] theorem acknowledge_error (d : Word) : (s.acknowledge d).error = s.error := rfl
@[simp] theorem acknowledge_inLen (d : Word) : (s.acknowledge d).inLen = s.inLen := rfl
@[simp] theorem acknowledge_outLen (d : Word) : (s.acknowledge d).outLen = s.outLen := rfl
@[simp] theorem acknowledge_freq (d : Word) : (s.acknowledge d).freq = s.freq := rfl
@[simp] theorem acknowledge_nodeCount (d : Word) : (s.acknowledge d).nodeCount = s.nodeCount := rfl
@[simp] theorem acknowledge_node (d : Word) : (s.acknowledge d).node = s.node := rfl
@[simp] theorem acknowledge_code (d : Word) : (s.acknowledge d).code = s.code := rfl
@[simp] theorem acknowledge_inBuf (d : Word) : (s.acknowledge d).inBuf = s.inBuf := rfl
@[simp] theorem acknowledge_outBuf (d : Word) : (s.acknowledge d).outBuf = s.outBuf := rfl
@[simp] theorem acknowledge_inDraw (d : Word) : (s.acknowledge d).inDraw = s.inDraw := rfl
@[simp] theorem acknowledge_outDraw (d : Word) : (s.acknowledge d).outDraw = s.outDraw := rfl
@[simp] theorem acknowledge_draws (d : Word) : (s.acknowledge d).draws = s.draws := rfl
@[simp] theorem acknowledge_hostSlots (d : Word) : (s.acknowledge d).hostSlots = s.hostSlots := rfl
@[simp] theorem acknowledge_latencies (d : Word) : (s.acknowledge d).latencies = s.latencies := rfl
@[simp] theorem acknowledge_host (d : Word) : (s.acknowledge d).host = s.host := rfl
@[simp] theorem acknowledge_resp (d : Word) : (s.acknowledge d).resp = s.resp := rfl

/-! ### issue -/

@[simp] theorem issue_cfg (w : Word) : (s.issue w).cfg = s.cfg := rfl
@[simp] theorem issue_irqEn (w : Word) : (s.issue w).irqEn = s.irqEn := rfl
@[simp] theorem issue_lastCmd (w : Word) : (s.issue w).lastCmd = w := rfl
@[simp] theorem issue_pending (w : Word) : (s.issue w).pending = w := rfl
@[simp] theorem issue_status (w : Word) : (s.issue w).status = s.status.issued := rfl
@[simp] theorem issue_error (w : Word) : (s.issue w).error = s.error := rfl
@[simp] theorem issue_inLen (w : Word) : (s.issue w).inLen = s.inLen := rfl
@[simp] theorem issue_outLen (w : Word) : (s.issue w).outLen = s.outLen := rfl
@[simp] theorem issue_freq (w : Word) : (s.issue w).freq = s.freq := rfl
@[simp] theorem issue_nodeCount (w : Word) : (s.issue w).nodeCount = s.nodeCount := rfl
@[simp] theorem issue_node (w : Word) : (s.issue w).node = s.node := rfl
@[simp] theorem issue_code (w : Word) : (s.issue w).code = s.code := rfl
@[simp] theorem issue_inBuf (w : Word) : (s.issue w).inBuf = s.inBuf := rfl
@[simp] theorem issue_outBuf (w : Word) : (s.issue w).outBuf = s.outBuf := rfl
@[simp] theorem issue_inDraw (w : Word) : (s.issue w).inDraw = s.inDraw := rfl
@[simp] theorem issue_outDraw (w : Word) : (s.issue w).outDraw = s.outDraw := rfl
@[simp] theorem issue_draws (w : Word) : (s.issue w).draws = s.draws + 1 := rfl
@[simp] theorem issue_hostSlots (w : Word) : (s.issue w).hostSlots = s.latencies.headD (Config.latency s.draws) := rfl
@[simp] theorem issue_latencies (w : Word) : (s.issue w).latencies = s.latencies.tail := rfl
@[simp] theorem issue_host (w : Word) : (s.issue w).host = s.host := rfl
@[simp] theorem issue_resp (w : Word) : (s.issue w).resp = s.resp := rfl

/-! ### placeCommand -/

@[simp] theorem placeCommand_cfg (w : Word) : (s.placeCommand w).cfg = s.cfg := rfl
@[simp] theorem placeCommand_irqEn (w : Word) : (s.placeCommand w).irqEn = s.irqEn := rfl
@[simp] theorem placeCommand_lastCmd (w : Word) : (s.placeCommand w).lastCmd = w := rfl
@[simp] theorem placeCommand_pending (w : Word) : (s.placeCommand w).pending = w := rfl
@[simp] theorem placeCommand_status (w : Word) : (s.placeCommand w).status = s.status.issued := rfl
@[simp] theorem placeCommand_error (w : Word) : (s.placeCommand w).error = s.error := rfl
@[simp] theorem placeCommand_inLen (w : Word) : (s.placeCommand w).inLen = s.inLen := rfl
@[simp] theorem placeCommand_outLen (w : Word) : (s.placeCommand w).outLen = s.outLen := rfl
@[simp] theorem placeCommand_freq (w : Word) : (s.placeCommand w).freq = s.freq := rfl
@[simp] theorem placeCommand_nodeCount (w : Word) : (s.placeCommand w).nodeCount = s.nodeCount := rfl
@[simp] theorem placeCommand_node (w : Word) : (s.placeCommand w).node = s.node := rfl
@[simp] theorem placeCommand_code (w : Word) : (s.placeCommand w).code = s.code := rfl
@[simp] theorem placeCommand_inBuf (w : Word) : (s.placeCommand w).inBuf = s.inBuf := rfl
@[simp] theorem placeCommand_outBuf (w : Word) : (s.placeCommand w).outBuf = s.outBuf := rfl
@[simp] theorem placeCommand_inDraw (w : Word) : (s.placeCommand w).inDraw = s.inDraw := rfl
@[simp] theorem placeCommand_outDraw (w : Word) : (s.placeCommand w).outDraw = s.outDraw := rfl
@[simp] theorem placeCommand_draws (w : Word) : (s.placeCommand w).draws = s.draws := rfl
@[simp] theorem placeCommand_hostSlots (w : Word) : (s.placeCommand w).hostSlots = 0 := rfl
@[simp] theorem placeCommand_latencies (w : Word) : (s.placeCommand w).latencies = s.latencies := rfl
@[simp] theorem placeCommand_host (w : Word) : (s.placeCommand w).host = s.host := rfl
@[simp] theorem placeCommand_resp (w : Word) : (s.placeCommand w).resp = s.resp := rfl

/-! ### overrun -/

@[simp] theorem overrun_cfg : s.overrun.cfg = s.cfg := rfl
@[simp] theorem overrun_irqEn : s.overrun.irqEn = s.irqEn := rfl
@[simp] theorem overrun_lastCmd : s.overrun.lastCmd = s.lastCmd := rfl
@[simp] theorem overrun_pending : s.overrun.pending = s.pending := rfl
@[simp] theorem overrun_status : s.overrun.status = s.status.overran := rfl
@[simp] theorem overrun_error : s.overrun.error = s.error := rfl
@[simp] theorem overrun_inLen : s.overrun.inLen = s.inLen := rfl
@[simp] theorem overrun_outLen : s.overrun.outLen = s.outLen := rfl
@[simp] theorem overrun_freq : s.overrun.freq = s.freq := rfl
@[simp] theorem overrun_nodeCount : s.overrun.nodeCount = s.nodeCount := rfl
@[simp] theorem overrun_node : s.overrun.node = s.node := rfl
@[simp] theorem overrun_code : s.overrun.code = s.code := rfl
@[simp] theorem overrun_inBuf : s.overrun.inBuf = s.inBuf := rfl
@[simp] theorem overrun_outBuf : s.overrun.outBuf = s.outBuf := rfl
@[simp] theorem overrun_inDraw : s.overrun.inDraw = s.inDraw := rfl
@[simp] theorem overrun_outDraw : s.overrun.outDraw = s.outDraw := rfl
@[simp] theorem overrun_draws : s.overrun.draws = s.draws := rfl
@[simp] theorem overrun_hostSlots : s.overrun.hostSlots = s.hostSlots := rfl
@[simp] theorem overrun_latencies : s.overrun.latencies = s.latencies := rfl
@[simp] theorem overrun_host : s.overrun.host = s.host := rfl
@[simp] theorem overrun_resp : s.overrun.resp = s.resp := rfl

/-! ### advanceHost -/

@[simp] theorem advanceHost_cfg (rest : List HostOp) : (s.advanceHost rest).cfg = s.cfg := rfl
@[simp] theorem advanceHost_irqEn (rest : List HostOp) : (s.advanceHost rest).irqEn = s.irqEn := rfl
@[simp] theorem advanceHost_lastCmd (rest : List HostOp) : (s.advanceHost rest).lastCmd = s.lastCmd := rfl
@[simp] theorem advanceHost_pending (rest : List HostOp) : (s.advanceHost rest).pending = s.pending := rfl
@[simp] theorem advanceHost_status (rest : List HostOp) : (s.advanceHost rest).status = s.status := rfl
@[simp] theorem advanceHost_error (rest : List HostOp) : (s.advanceHost rest).error = s.error := rfl
@[simp] theorem advanceHost_inLen (rest : List HostOp) : (s.advanceHost rest).inLen = s.inLen := rfl
@[simp] theorem advanceHost_outLen (rest : List HostOp) : (s.advanceHost rest).outLen = s.outLen := rfl
@[simp] theorem advanceHost_freq (rest : List HostOp) : (s.advanceHost rest).freq = s.freq := rfl
@[simp] theorem advanceHost_nodeCount (rest : List HostOp) : (s.advanceHost rest).nodeCount = s.nodeCount := rfl
@[simp] theorem advanceHost_node (rest : List HostOp) : (s.advanceHost rest).node = s.node := rfl
@[simp] theorem advanceHost_code (rest : List HostOp) : (s.advanceHost rest).code = s.code := rfl
@[simp] theorem advanceHost_inBuf (rest : List HostOp) : (s.advanceHost rest).inBuf = s.inBuf := rfl
@[simp] theorem advanceHost_outBuf (rest : List HostOp) : (s.advanceHost rest).outBuf = s.outBuf := rfl
@[simp] theorem advanceHost_inDraw (rest : List HostOp) : (s.advanceHost rest).inDraw = s.inDraw := rfl
@[simp] theorem advanceHost_outDraw (rest : List HostOp) : (s.advanceHost rest).outDraw = s.outDraw := rfl
@[simp] theorem advanceHost_draws (rest : List HostOp) : (s.advanceHost rest).draws = s.draws := rfl
@[simp] theorem advanceHost_hostSlots (rest : List HostOp) : (s.advanceHost rest).hostSlots = s.hostSlots - 1 := rfl
@[simp] theorem advanceHost_latencies (rest : List HostOp) : (s.advanceHost rest).latencies = s.latencies := rfl
@[simp] theorem advanceHost_host (rest : List HostOp) : (s.advanceHost rest).host = rest := rfl
@[simp] theorem advanceHost_resp (rest : List HostOp) : (s.advanceHost rest).resp = s.resp := rfl

/-! ### Status -/

variable (st : Status)

@[simp] theorem issued_busy : st.issued.busy = true := rfl
@[simp] theorem issued_done : st.issued.done = false := rfl
@[simp] theorem issued_err : st.issued.err = false := rfl
@[simp] theorem issued_overrun : st.issued.overrun = st.overrun := rfl
@[simp] theorem issued_treeValid : st.issued.treeValid = st.treeValid := rfl
@[simp] theorem issued_codesValid : st.issued.codesValid = st.codesValid := rfl

@[simp] theorem completed_busy (b : Bool) : (st.completed b).busy = false := rfl
@[simp] theorem completed_done (b : Bool) : (st.completed b).done = true := rfl
@[simp] theorem completed_err (b : Bool) : (st.completed b).err = b := rfl
@[simp] theorem completed_overrun (b : Bool) : (st.completed b).overrun = st.overrun := rfl
@[simp] theorem completed_treeValid (b : Bool) : (st.completed b).treeValid = st.treeValid := rfl
@[simp] theorem completed_codesValid (b : Bool) : (st.completed b).codesValid = st.codesValid := rfl

@[simp] theorem acked_busy (d : Word) : (st.acked d).busy = st.busy := rfl
@[simp] theorem acked_done (d : Word) : (st.acked d).done = (st.done && !d.getLsbD 1) := rfl
@[simp] theorem acked_err (d : Word) : (st.acked d).err = (st.err && !d.getLsbD 2) := rfl
@[simp] theorem acked_overrun (d : Word) : (st.acked d).overrun = (st.overrun && !d.getLsbD 3) := rfl
@[simp] theorem acked_treeValid (d : Word) : (st.acked d).treeValid = st.treeValid := rfl
@[simp] theorem acked_codesValid (d : Word) : (st.acked d).codesValid = st.codesValid := rfl

@[simp] theorem overran_busy : st.overran.busy = st.busy := rfl
@[simp] theorem overran_done : st.overran.done = st.done := rfl
@[simp] theorem overran_err : st.overran.err = st.err := rfl
@[simp] theorem overran_overrun : st.overran.overrun = true := rfl
@[simp] theorem overran_treeValid : st.overran.treeValid = st.treeValid := rfl
@[simp] theorem overran_codesValid : st.overran.codesValid = st.codesValid := rfl

@[simp] theorem invalidated_busy : st.invalidated.busy = st.busy := rfl
@[simp] theorem invalidated_done : st.invalidated.done = st.done := rfl
@[simp] theorem invalidated_err : st.invalidated.err = st.err := rfl
@[simp] theorem invalidated_overrun : st.invalidated.overrun = st.overrun := rfl
@[simp] theorem invalidated_treeValid : st.invalidated.treeValid = false := rfl
@[simp] theorem invalidated_codesValid : st.invalidated.codesValid = false := rfl

@[simp] theorem treeBuilt_busy : st.treeBuilt.busy = st.busy := rfl
@[simp] theorem treeBuilt_done : st.treeBuilt.done = st.done := rfl
@[simp] theorem treeBuilt_err : st.treeBuilt.err = st.err := rfl
@[simp] theorem treeBuilt_overrun : st.treeBuilt.overrun = st.overrun := rfl
@[simp] theorem treeBuilt_treeValid : st.treeBuilt.treeValid = true := rfl
@[simp] theorem treeBuilt_codesValid : st.treeBuilt.codesValid = false := rfl

@[simp] theorem codesBuilt_busy : st.codesBuilt.busy = st.busy := rfl
@[simp] theorem codesBuilt_done : st.codesBuilt.done = st.done := rfl
@[simp] theorem codesBuilt_err : st.codesBuilt.err = st.err := rfl
@[simp] theorem codesBuilt_overrun : st.codesBuilt.overrun = st.overrun := rfl
@[simp] theorem codesBuilt_treeValid : st.codesBuilt.treeValid = st.treeValid := rfl
@[simp] theorem codesBuilt_codesValid : st.codesBuilt.codesValid = true := rfl

/-! ### Resets -/

variable (p : Params) (d : Nat)

@[simp] theorem powerOn_cfg : (State.powerOn p d).cfg = p := rfl
@[simp] theorem powerOn_irqEn : (State.powerOn p d).irqEn = false := rfl
@[simp] theorem powerOn_lastCmd : (State.powerOn p d).lastCmd = 0 := rfl
@[simp] theorem powerOn_pending : (State.powerOn p d).pending = 0 := rfl
@[simp] theorem powerOn_status : (State.powerOn p d).status = ⟨false, false, false, false, false, false⟩ := rfl
@[simp] theorem powerOn_error : (State.powerOn p d).error = ⟨0, 0⟩ := rfl
@[simp] theorem powerOn_inLen : (State.powerOn p d).inLen = 0 := rfl
@[simp] theorem powerOn_outLen : (State.powerOn p d).outLen = 0 := rfl
@[simp] theorem powerOn_freq : (State.powerOn p d).freq = Vector.replicate 256 0 := rfl
@[simp] theorem powerOn_nodeCount : (State.powerOn p d).nodeCount = 0 := rfl
@[simp] theorem powerOn_inBuf : (State.powerOn p d).inBuf = [] := rfl
@[simp] theorem powerOn_outBuf : (State.powerOn p d).outBuf = [] := rfl
@[simp] theorem powerOn_inDraw : (State.powerOn p d).inDraw = d := rfl
@[simp] theorem powerOn_outDraw : (State.powerOn p d).outDraw = d + 1 := rfl
@[simp] theorem powerOn_draws : (State.powerOn p d).draws = d + 4 := rfl
@[simp] theorem powerOn_hostSlots : (State.powerOn p d).hostSlots = 0 := rfl
@[simp] theorem powerOn_latencies : (State.powerOn p d).latencies = [] := rfl
@[simp] theorem powerOn_host : (State.powerOn p d).host = [] := rfl
@[simp] theorem powerOn_resp : (State.powerOn p d).resp = none := rfl

@[simp] theorem hardReset_cfg : s.hardReset.cfg = (State.powerOn s.cfg s.draws).cfg := rfl
@[simp] theorem hardReset_irqEn : s.hardReset.irqEn = (State.powerOn s.cfg s.draws).irqEn := rfl
@[simp] theorem hardReset_lastCmd : s.hardReset.lastCmd = (State.powerOn s.cfg s.draws).lastCmd := rfl
@[simp] theorem hardReset_pending : s.hardReset.pending = (State.powerOn s.cfg s.draws).pending := rfl
@[simp] theorem hardReset_status : s.hardReset.status = (State.powerOn s.cfg s.draws).status := rfl
@[simp] theorem hardReset_error : s.hardReset.error = (State.powerOn s.cfg s.draws).error := rfl
@[simp] theorem hardReset_inLen : s.hardReset.inLen = (State.powerOn s.cfg s.draws).inLen := rfl
@[simp] theorem hardReset_outLen : s.hardReset.outLen = (State.powerOn s.cfg s.draws).outLen := rfl
@[simp] theorem hardReset_freq : s.hardReset.freq = (State.powerOn s.cfg s.draws).freq := rfl
@[simp] theorem hardReset_nodeCount : s.hardReset.nodeCount = (State.powerOn s.cfg s.draws).nodeCount := rfl
@[simp] theorem hardReset_node : s.hardReset.node = (State.powerOn s.cfg s.draws).node := rfl
@[simp] theorem hardReset_code : s.hardReset.code = (State.powerOn s.cfg s.draws).code := rfl
@[simp] theorem hardReset_inBuf : s.hardReset.inBuf = (State.powerOn s.cfg s.draws).inBuf := rfl
@[simp] theorem hardReset_outBuf : s.hardReset.outBuf = (State.powerOn s.cfg s.draws).outBuf := rfl
@[simp] theorem hardReset_inDraw : s.hardReset.inDraw = (State.powerOn s.cfg s.draws).inDraw := rfl
@[simp] theorem hardReset_outDraw : s.hardReset.outDraw = (State.powerOn s.cfg s.draws).outDraw := rfl
@[simp] theorem hardReset_draws : s.hardReset.draws = (State.powerOn s.cfg s.draws).draws := rfl
@[simp] theorem hardReset_hostSlots : s.hardReset.hostSlots = (State.powerOn s.cfg s.draws).hostSlots := rfl
@[simp] theorem hardReset_latencies : s.hardReset.latencies = s.latencies := rfl
@[simp] theorem hardReset_host : s.hardReset.host = s.host := rfl
@[simp] theorem hardReset_resp : s.hardReset.resp = (State.powerOn s.cfg s.draws).resp := rfl

@[simp] theorem softReset_cfg : s.softReset.cfg = s.hardReset.cfg := rfl
@[simp] theorem softReset_irqEn : s.softReset.irqEn = s.hardReset.irqEn := rfl
@[simp] theorem softReset_lastCmd : s.softReset.lastCmd = s.hardReset.lastCmd := rfl
@[simp] theorem softReset_pending : s.softReset.pending = s.hardReset.pending := rfl
@[simp] theorem softReset_status : s.softReset.status = s.hardReset.status := rfl
@[simp] theorem softReset_error : s.softReset.error = s.hardReset.error := rfl
@[simp] theorem softReset_inLen : s.softReset.inLen = s.hardReset.inLen := rfl
@[simp] theorem softReset_outLen : s.softReset.outLen = s.hardReset.outLen := rfl
@[simp] theorem softReset_freq : s.softReset.freq = s.hardReset.freq := rfl
@[simp] theorem softReset_nodeCount : s.softReset.nodeCount = s.hardReset.nodeCount := rfl
@[simp] theorem softReset_node : s.softReset.node = s.hardReset.node := rfl
@[simp] theorem softReset_code : s.softReset.code = s.hardReset.code := rfl
@[simp] theorem softReset_inBuf : s.softReset.inBuf = s.inBuf := rfl
@[simp] theorem softReset_outBuf : s.softReset.outBuf = s.hardReset.outBuf := rfl
@[simp] theorem softReset_inDraw : s.softReset.inDraw = s.inDraw := rfl
@[simp] theorem softReset_outDraw : s.softReset.outDraw = s.hardReset.outDraw := rfl
@[simp] theorem softReset_draws : s.softReset.draws = s.hardReset.draws := rfl
@[simp] theorem softReset_hostSlots : s.softReset.hostSlots = s.hardReset.hostSlots := rfl
@[simp] theorem softReset_latencies : s.softReset.latencies = s.hardReset.latencies := rfl
@[simp] theorem softReset_host : s.softReset.host = s.hardReset.host := rfl
@[simp] theorem softReset_resp : s.softReset.resp = s.resp := rfl

end Sys2Proof.Machine
end

