-- ==== Sys2Proof/Laws/Bus.lean ====
section
/-! SUPPORT. The host port: what an access decodes to, and what a transaction at it does (20_memory.md). -/

namespace Sys2Proof.Machine

/-! ### Decoding an access -/

/-- What an OK decode says of the access (R62). -/
theorem decodeAccess_facts {cfg a n l} (h : decodeAccess cfg a n = .ok l) : (n = 1 ∨ n = 4) ∧ a % n = 0 ∧
    locate a = some l ∧ l.allows n = true ∧ l.backed cfg n = true := by
  unfold decodeAccess at h
  split at h
  · cases h
  · split at h
    · cases h
    · split at h
      · cases h
      · split at h
        · split at h
          · cases h; refine ⟨by omega, by omega, by assumption, by assumption, by assumption⟩
          · cases h
        · cases h

/-- The legal accesses are those that decode (R62, R63, R70). -/
theorem legalAccess_iff (cfg : Params) (a n : Nat) : LegalAccess cfg a n ↔ ∃ l, decodeAccess cfg a n = .ok l := by
  unfold decodeAccess
  by_cases h1 : n ≠ 1 ∧ n ≠ 4
  · rw [if_pos h1]
    simp only [reduceCtorEq, exists_false, iff_false]
    unfold LegalAccess; omega
  · rw [if_neg h1]
    by_cases h2 : a % n ≠ 0
    · rw [if_pos h2]
      simp only [reduceCtorEq, exists_false, iff_false]
      unfold LegalAccess
      have : n = 1 ∨ n = 4 := by omega
      rcases this with rfl | rfl <;> omega
    · rw [if_neg h2]
      have hn : n = 1 ∨ n = 4 := by omega
      unfold locate
      split
      · rename_i h; split at h
        · cases h
        split at h
        · cases h
        split at h
        · cases h
        split at h
        · cases h
        split at h
        · cases h
        split at h
        · cases h
        simp only [reduceCtorEq, exists_false, iff_false]
        unfold LegalAccess; omega
      · rename_i l h
        have key : (∃ l',
            (if l.allows n = true then
              if l.backed cfg n = true then (Except.ok l : Except BusFault Loc) else .error .beyondCapacity
             else .error .badWidth) = .ok l') ↔
             l.allows n = true ∧ l.backed cfg n = true := by
          split
          · split <;> simp_all
          · simp_all
        rw [key]
        have nf : n ≠ 0 := by omega
        split at h
        · cases h; unfold LegalAccess; simp only [Loc.allows, Loc.backed,
              beq_iff_eq]; rcases hn with rfl | rfl <;> simp <;> omega
        split at h
        · cases h; unfold LegalAccess; simp only [Loc.allows, Loc.backed,
              beq_iff_eq]; rcases hn with rfl | rfl <;> simp <;> omega
        split at h
        · cases h; unfold LegalAccess; simp only [Loc.allows, Loc.backed,
              beq_iff_eq]; rcases hn with rfl | rfl <;> simp <;> omega
        split at h
        · cases h; unfold LegalAccess; simp only [Loc.allows, Loc.backed,
              beq_iff_eq]; rcases hn with rfl | rfl <;> simp <;> omega
        split at h
        · cases h; unfold LegalAccess; simp only [Loc.allows, Loc.backed]; rcases hn with rfl | rfl <;> simp <;> omega
        split at h
        · cases h; unfold LegalAccess; simp only [Loc.allows, Loc.backed]; rcases hn with rfl | rfl <;> simp <;> omega
        cases h

theorem offsetOf_block (cfg : Params) (a : Nat) (h : a < 2 ^ 26) : offsetOf cfg (cfg.blockBase + a) = some a := by
  unfold offsetOf Config.spaceSize
  rw [if_pos (by omega)]
  congr 1
  rw [Nat.add_sub_cancel_left, Nat.mod_eq_of_lt h]

theorem offsetOf_some {cfg : Params} {addr a : Nat} (h : offsetOf cfg addr = some a) : addr = cfg.blockBase + a := by
  unfold offsetOf Config.spaceSize at h
  split at h
  · rename_i hh
    have := Option.some.inj h
    rw [Nat.mod_eq_of_lt (by omega)] at this
    omega
  · cases h

theorem locate_reg {a : Nat} {r : CtrlReg} (h : locate a = some (.reg r)) (h4 : a % 4 = 0) : a = r.offset := by
  unfold locate at h
  split at h
  · have h := Option.some.inj h
    have h := Loc.reg.inj h
    subst h
    obtain ⟨k, rfl⟩ : ∃ k, a = 4 * k := ⟨a / 4, by omega⟩
    have : k = 0 ∨ k = 1 ∨ k = 2 ∨ k = 3 ∨ k = 4 ∨ k = 5 ∨ k = 6 ∨ k = 7 ∨ k = 8 := by omega
    rcases this with rfl | rfl | rfl | rfl | rfl | rfl | rfl | rfl | rfl <;> rfl
  · split at h
    · cases h
    · split at h
      · cases h
      · split at h
        · cases h
        · split at h
          · cases h
          · split at h <;> cases h

theorem decodeAccess_reg (cfg) (a : Nat) (h : a < 0x24) (h4 : a % 4 = 0) :
    decodeAccess cfg a 4 = .ok (.reg (CtrlReg.at a)) := by
  unfold decodeAccess
  rw [if_neg (by omega), if_neg (by omega)]
  unfold locate
  rw [if_pos (by omega)]
  rfl

theorem decodeAccess_freq (cfg : Params) (x : Fin 256) : decodeAccess cfg (0x1000 + 4 * x.val) 4 = .ok (.freq x) := by
  have := x.isLt
  unfold decodeAccess
  rw [if_neg (by omega), if_neg (by omega)]
  unfold locate
  rw [if_neg (by omega), if_pos (by omega)]
  have e : Fin.ofNat 256 ((0x1000 + 4 * x.val - 0x1000) / 4) = x := by ext; simp
  rw [e]; rfl

theorem decodeAccess_node (cfg : Params) (i : Fin 511) (w : Fin 4) :
    decodeAccess cfg (0x2000 + 16 * i.val + 4 * w.val) 4 = .ok (.node i w) := by
  have := i.isLt
  have := w.isLt
  unfold decodeAccess
  rw [if_neg (by omega), if_neg (by omega)]
  unfold locate
  rw [if_neg (by omega), if_neg (by omega), if_pos (by omega)]
  have e : Fin.ofNat 511 ((0x2000 + 16 * i.val + 4 * w.val - 0x2000) / 16) = i := by ext; simp; omega
  have e' : Fin.ofNat 4 ((0x2000 + 16 * i.val + 4 * w.val - 0x2000) % 16 / 4) = w := by ext; simp; omega
  rw [e, e']; rfl

theorem decodeAccess_code (cfg : Params) (i : Fin 256) (w : Fin 16) :
    decodeAccess cfg (0x4000 + 64 * i.val + 4 * w.val) 4 = .ok (.code i w) := by
  have := i.isLt
  have := w.isLt
  unfold decodeAccess
  rw [if_neg (by omega), if_neg (by omega)]
  unfold locate
  rw [if_neg (by omega), if_neg (by omega), if_neg (by omega), if_pos (by omega)]
  have e : Fin.ofNat 256 ((0x4000 + 64 * i.val + 4 * w.val - 0x4000) / 64) = i := by ext; simp; omega
  have e' : Fin.ofNat 16 ((0x4000 + 64 * i.val + 4 * w.val - 0x4000) % 64 / 4) = w := by ext; simp; omega
  rw [e, e']; rfl

theorem decodeAccess_inBuf (cfg : Params) (i n : Nat) (hn : n = 1 ∨ (n = 4 ∧ i % 4 = 0)) (h : i + n ≤ cfg.inCap)
    (hc : cfg.inCap ≤ 2 ^ 24) : decodeAccess cfg (0x1000000 + i) n = .ok (.inBuf i) := by
  unfold decodeAccess
  rw [if_neg (by omega), if_neg (by rcases hn with rfl | ⟨rfl, hn⟩ <;> omega)]
  unfold locate
  rw [if_neg (by omega), if_neg (by omega), if_neg (by omega), if_neg (by omega), if_pos (by omega)]
  rw [Nat.add_sub_cancel_left]
  simp only
  rw [if_pos (by rcases hn with rfl | ⟨rfl, hn⟩ <;> rfl), if_pos (by simpa [Loc.backed] using h)]

theorem decodeAccess_outBuf (cfg : Params) (i n : Nat) (hn : n = 1 ∨ (n = 4 ∧ i % 4 = 0)) (h : i + n ≤ cfg.outCap)
    (hc : cfg.outCap ≤ 2 ^ 24) : decodeAccess cfg (0x2000000 + i) n = .ok (.outBuf i) := by
  unfold decodeAccess
  rw [if_neg (by omega), if_neg (by rcases hn with rfl | ⟨rfl, hn⟩ <;> omega)]
  unfold locate
  rw [if_neg (by omega), if_neg (by omega), if_neg (by omega), if_neg (by omega), if_neg (by omega), if_pos (by omega)]
  rw [Nat.add_sub_cancel_left]
  simp only
  rw [if_pos (by rcases hn with rfl | ⟨rfl, hn⟩ <;> rfl), if_pos (by simpa [Loc.backed] using h)]

/-! ### Transactions -/

/-- An OK read gives the data of its location and draws once. -/
theorem transact_read {s : State} {a n l} (h : a < 2 ^ 26) (hd : decodeAccess s.cfg a n = .ok l) :
    s.transact (.read (s.cfg.blockBase + a) n) =
      { s with resp := some (.readOk (s.load l n)), draws := s.draws + 1 } := by
  simp only [State.transact, offsetOf_block _ _ h, hd]

/-- An OK write does what its location says. -/
theorem transact_write {s : State} {a n l d} (h : a < 2 ^ 26) (hd : decodeAccess s.cfg a n = .ok l) :
    s.transact (.write (s.cfg.blockBase + a) n d) = { s.store l n d with resp := some .writeOk } := by
  simp only [State.transact, offsetOf_block _ _ h, hd]

theorem transact_write_reg (s : State) (a : Nat) (d : Word) (h : a < 0x24) (h4 : a % 4 = 0) :
   s.transact (.write (s.cfg.blockBase + a) 4 d) = { s.store (.reg (CtrlReg.at a)) 4 d with resp := some .writeOk } :=
  transact_write (by omega) (decodeAccess_reg _ _ h h4)

theorem transact_read_reg (s : State) (a : Nat) (h : a < 0x24) (h4 : a % 4 = 0) :
    s.transact (.read (s.cfg.blockBase + a) 4) =
      { s with resp := some (.readOk (s.readReg (CtrlReg.at a))), draws := s.draws + 1 } :=
  transact_read (by omega) (decodeAccess_reg _ _ h h4)

/-- Everything an OK write can do. -/
theorem store_cases (s : State) (l n d) :
   (∃ st e il ib, s.store l n d = { s with status := st, irqEn := e, inLen := il, inBuf := ib } ∧
       (st.overrun = s.status.overrun ∨ st.overrun = true ∨ (l = .reg .status ∧ d.getLsbD 3 = true)) ) ∨
   (l = .reg .ctrl ∧ d.getLsbD 1 = true ∧ s.store l n d = s.softReset) ∨ (∃ w, s.store l n d = s.issue w) ∨
       (∃ F, s.store l n d = s.putFreq F) := by
  cases l with
  | reg r =>
    cases r with
    | ctrl =>
      show (∃ st e il ib, s.writeCtrl d = _ ∧ _) ∨ (_ ∧ _ ∧ s.writeCtrl d = _) ∨ _
      unfold State.writeCtrl; split
      · rename_i h; exact .inr (.inl ⟨rfl, h, rfl⟩)
      · exact .inl ⟨s.status, _, s.inLen, s.inBuf, rfl, .inl rfl⟩
    | cmd =>
      simp only [State.store]; split
      · exact .inl ⟨s.status.overran, s.irqEn, s.inLen, s.inBuf, rfl, .inr (.inl rfl)⟩
      · exact .inr (.inr (.inl ⟨_, rfl⟩))
    | status =>
      refine .inl ⟨(s.acknowledge d).status, s.irqEn, s.inLen, s.inBuf, rfl, ?_⟩
      show (s.status.overrun && !d.getLsbD 3) = _ ∨ (s.status.overrun && !d.getLsbD 3) = _ ∨ _
      cases d.getLsbD 3 <;> simp
    | inLen =>
      simp only [State.store]; split
      · exact .inl ⟨s.status.overran, s.irqEn, s.inLen, s.inBuf, rfl, .inr (.inl rfl)⟩
      · exact .inl ⟨s.status, s.irqEn, _, s.inBuf, rfl, .inl rfl⟩
    | _ => exact .inl ⟨s.status, s.irqEn, s.inLen, s.inBuf, rfl, .inl rfl⟩
  | freq x =>
    simp only [State.store]; split
    · exact .inl ⟨s.status.overran, s.irqEn, s.inLen, s.inBuf, rfl, .inr (.inl rfl)⟩
    · exact .inr (.inr (.inr ⟨_, rfl⟩))
  | inBuf i =>
    simp only [State.store]; split
    · exact .inl ⟨s.status.overran, s.irqEn, s.inLen, s.inBuf, rfl, .inr (.inl rfl)⟩
    · exact .inl ⟨s.status, s.irqEn, s.inLen, _, rfl, .inl rfl⟩
  | _ => exact .inl ⟨s.status, s.irqEn, s.inLen, s.inBuf, rfl, .inl rfl⟩

/-- Everything a transaction can do. -/
theorem transact_cases (s : State) (t : Txn) : (∃ r d, s.transact t = { s with resp := r, draws := d }) ∨
    ∃ a n d l r, t = .write (s.cfg.blockBase + a) n d ∧ decodeAccess s.cfg a n = .ok l ∧
        s.transact t = { s.store l n d with resp := r } := by
  cases t with
  | read addr n =>
    left
    simp only [State.transact]
    split
    · exact ⟨_, s.draws, rfl⟩
    · split <;> exact ⟨_, _, rfl⟩
  | write addr n d =>
    simp only [State.transact]
    split
    · exact .inl ⟨_, s.draws, rfl⟩
    · rename_i a ha
      split
      · exact .inl ⟨_, s.draws, rfl⟩
      · rename_i l hl
        have := offsetOf_some ha
        subst this
        exact .inr ⟨a, n, d, l, _, rfl, hl, rfl⟩

/-- A word put together from its bytes (R66). -/
theorem leWord_leByte (d : Word) : leWord (leByte d 0) (leByte d 1) (leByte d 2) (leByte d 3) = d := by
  apply BitVec.eq_of_getLsbD_eq
  intro k hk
  simp only [leWord, leByte, BitVec.getLsbD_append, BitVec.getLsbD_extractLsb']
  by_cases h1 : k < 8
  · simp [h1]
  · by_cases h2 : k < 16
    · simp [h1, show k - 8 < 8 by omega, show 8 + (k - 8) = k by omega]
    · by_cases h3 : k < 24
      · simp [h1, show ¬ k - 8 < 8 by omega, show k - 8 - 8 < 8 by omega, show 16 + (k - 8 - 8) = k by omega]
      · simp [h1, show ¬ k - 8 < 8 by omega, show ¬ k - 8 - 8 < 8 by omega, show k - 8 - 8 - 8 < 8 by omega,
          show 24 + (k - 8 - 8 - 8) = k by omega]

/-! ### Layouts -/

/-- A word put together from four bytes is the data of an access to them (R66). -/
theorem wordOf_leWord (byte : Nat → Byte) (i : Nat) :
    WordOf (leWord (byte i) (byte (i + 1)) (byte (i + 2)) (byte (i + 3))) byte i := by
  have key (a b c d : Byte) : leByte (leWord a b c d) 0 = a ∧ leByte (leWord a b c d) 1 = b ∧
      leByte (leWord a b c d) 2 = c ∧ leByte (leWord a b c d) 3 = d := by
    refine ⟨?_, ?_, ?_, ?_⟩ <;> apply BitVec.eq_of_getLsbD_eq <;> intro k hk <;>
      simp only [leByte, leWord, BitVec.getLsbD_extractLsb', BitVec.getLsbD_append]
    · simp [hk]
    · simp [hk]
    · simp [hk, show ¬ 16 + k < 8 by omega, show 16 + k - 8 = 8 + k by omega]
    · simp [hk, show ¬ 24 + k < 8 by omega, show 24 + k - 8 = 16 + k by omega, show ¬ 16 + k < 8 by omega,
        show 16 + k - 8 = 8 + k by omega]
  obtain ⟨h0, h1, h2, h3⟩ := key (byte i) (byte (i + 1)) (byte (i + 2)) (byte (i + 3))
  exact ⟨h0, h1, h2, h3⟩

/-- The layout of ERROR (R32). -/
theorem error_word_toNat (e : ErrorReg) : e.word.toNat = 256 * e.op.toNat + e.code.toNat := by
  obtain ⟨c, o⟩ := e
  have : ∀ (o : Byte) (c : BitVec 4),
      ((0 : BitVec 16) ++ o ++ (0 : BitVec 4) ++ c).toNat = 256 * o.toNat + c.toNat := by
    intro o c
    have h1 := o.isLt
    have h2 := c.isLt
    rw [BitVec.toNat_append, BitVec.toNat_append, BitVec.toNat_append, Nat.shiftLeft_eq, Nat.shiftLeft_eq,
      ← Nat.shiftLeft_eq, ← Nat.shiftLeft_eq, ← Nat.shiftLeft_add_eq_or_of_lt h2]
    simp [Nat.shiftLeft_eq]; omega
  exact this o c

/-- The layout of STATUS (R26). -/
theorem status_word_toNat (st : Status) : st.word.toNat = st.busy.toNat + 2 * st.done.toNat + 4 * st.err.toNat +
    8 * st.overrun.toNat + 16 * st.treeValid.toNat + 32 * st.codesValid.toNat := by
  obtain ⟨a, b, c, d, e, f⟩ := st
  revert a b c d e f; decide

/-- A 1-byte read carries its byte in data bits 7:0 (R66). -/
theorem busData_byte (byte : Nat → Byte) (i : Nat) : (busData byte i 1).extractLsb' 0 8 = byte i := by
  apply BitVec.eq_of_getLsbD_eq
  intro k hk
  simp [busData, hk]; omega

end Sys2Proof.Machine
end

