-- ==== Sys2Proof/Laws/Text.lean ====
section
/-! SUPPORT. The laws of table texts: the parser accepts exactly the grammar of 30_encoding.md R102, the serializer
writes a text of it. -/

namespace Sys2Proof.Machine

/-! ### Numbers -/

theorem digitsValue_snoc (T : List Byte) (b : Byte) :
    digitsValue (T ++ [b]) = 10 * digitsValue T + (b.toNat - 0x30) := by
  simp [digitsValue]

theorem toNat_asciiDigit {d : Nat} (h : d ≤ 9) : (BitVec.ofNat 8 (0x30 + d) : Byte).toNat = 0x30 + d := by
  simp [BitVec.toNat_ofNat]; omega

theorem isDigit_iff (b : Byte) : isDigit b = true ↔ ∃ d, d ≤ 9 ∧ b = BitVec.ofNat 8 (0x30 + d) := by
  unfold isDigit
  constructor
  · intro h
    simp only [Bool.and_eq_true, decide_eq_true_eq] at h
    refine ⟨b.toNat - 0x30, by omega, BitVec.eq_of_toNat_eq ?_⟩
    rw [toNat_asciiDigit (by omega)]; omega
  · rintro ⟨d, hd, rfl⟩
    rw [toNat_asciiDigit hd]; simp; omega

/-- What a number text is made of. -/
theorem NumberText.shape {T : List Byte} {v : Nat} (h : NumberText T v) :
    T.all isDigit = true ∧ T ≠ [] ∧ digitsValue T = v ∧ (v ≠ 0 → T.head? ≠ some 0x30) ∧ (v = 0 → T = [0x30]) := by
  induction h with
  | zero => decide
  | first d h1 h2 =>
    refine ⟨by simpa using (isDigit_iff _).2 ⟨d, h2, rfl⟩, by simp, ?_, fun _ => ?_, by omega⟩
    · simp only [digitsValue, List.foldl]; rw [toNat_asciiDigit h2]; omega
    · simp only [List.head?_cons, ne_eq, Option.some.injEq]
      intro e
      have := congrArg BitVec.toNat e
      rw [toNat_asciiDigit h2] at this; simp at this; omega
  | more T v d _ hv hd ih =>
    obtain ⟨i1, i2, i3, i4, -⟩ := ih
    refine ⟨?_, by simp, ?_, fun _ => ?_, by omega⟩
    · rw [List.all_append, i1]; simpa using (isDigit_iff _).2 ⟨d, hd, rfl⟩
    · rw [digitsValue_snoc, i3, toNat_asciiDigit hd]; omega
    · rw [List.head?_append_of_ne_nil _ i2]; exact i4 hv

/-- The parser's numbers are the grammar's numbers. -/
theorem parseNumber_eq_some_iff (T : List Byte) (v : Nat) : parseNumber T = some v ↔ NumberText T v := by
  constructor
  · induction T using List.reverseRecOn generalizing v with
    | nil => simp [parseNumber]
    | append_singleton T b ih =>
      intro h
      unfold parseNumber at h
      split at h
      · rename_i hc
        obtain rfl := Option.some.inj h
        simp only [List.all_append, Bool.and_eq_true, List.all_cons, List.all_nil, Bool.and_true,
          Bool.or_eq_true, beq_iff_eq, bne_iff_ne] at hc
        obtain ⟨⟨⟨hT, hb⟩, -⟩, hz⟩ := hc
        obtain ⟨d, hd, rfl⟩ := (isDigit_iff b).1 hb
        rw [digitsValue_snoc, toNat_asciiDigit hd, show 0x30 + d - 0x30 = d by omega]
        by_cases e : T = []
        · subst e
          by_cases d0 : d = 0
          · subst d0; exact NumberText.zero
          · simpa [digitsValue] using NumberText.first d (by omega) hd
        · have hh : T.head? ≠ some 0x30 := by
            rcases hz with hz | hz
            · have := List.length_pos_iff.2 e; simp at hz; exact absurd hz e
            · rwa [List.head?_append_of_ne_nil _ e] at hz
          have hp : parseNumber T = some (digitsValue T) := by
            simp only [parseNumber, hT, Bool.true_and]
            rw [if_pos]; simp [e]; exact .inr hh
          have hn := ih _ hp
          refine NumberText.more T _ d hn (fun h0 => ?_) hd
          rw [hn.shape.2.2.2.2 h0] at hh; simp at hh
      · cases h
  · intro h
    obtain ⟨h1, h2, h3, h4, h5⟩ := h.shape
    unfold parseNumber
    rw [if_pos, h3]
    by_cases v0 : v = 0
    · rw [h5 v0]; decide
    · simp [h1, h2]; exact .inr (h4 v0)

theorem NumberText.unique {T : List Byte} {v w : Nat} (h : NumberText T v) (h' : NumberText T w) : v = w := by
  rw [← parseNumber_eq_some_iff] at h h'
  exact Option.some.inj (h.symm.trans h')

theorem NumberText.not_mem {T : List Byte} {v : Nat} (h : NumberText T v) {c : Byte} (hc : isDigit c = false) :
    c ∉ T := fun hm => by
  have := List.all_eq_true.1 h.shape.1 c hm
  rw [hc] at this; cases this

theorem decDigits_text (fuel x : Nat) (h : x < fuel) : NumberText ((decDigits fuel x).map asciiDigit) x := by
  induction fuel generalizing x with
  | zero => omega
  | succ fuel ih =>
    unfold decDigits
    split
    · by_cases x0 : x = 0
      · subst x0; exact NumberText.zero
      · exact NumberText.first x (by omega) (by omega)
    · have := NumberText.more _ (x / 10) (x % 10) (ih (x / 10) (by omega)) (by omega) (by omega)
      rw [show 10 * (x / 10) + x % 10 = x by omega] at this
      simpa [List.map_append, asciiDigit] using this

/-- dec(x) spells x. -/
theorem dec_text (x : Nat) : NumberText (dec x) x := decDigits_text _ _ (by omega)

/-! ### Entries -/

theorem EntryText_iff (T : List Byte) (e : Nat × Nat) :
    parseEntry T = some e ↔ ∃ A B, T = A ++ 0x3A :: B ∧ NumberText A e.1 ∧ NumberText B e.2 := by
  constructor
  · intro h
    unfold parseEntry at h
    split at h
    · rename_i A B hs
      have hT := List.intercalate_splitOn chColon (xs := T)
      rw [hs] at hT
      split at h
      · rename_i x y hx hy
        obtain rfl := Option.some.inj h
        exact ⟨A, B, by simpa [List.intercalate, chColon] using hT.symm,
          (parseNumber_eq_some_iff _ _).1 hx, (parseNumber_eq_some_iff _ _).1 hy⟩
      · cases h
    · cases h
  · rintro ⟨A, B, rfl, hA, hB⟩
    have hs : List.splitOn chColon (A ++ 0x3A :: B) = [A, B] := by
      have := List.splitOn_intercalate (ls := [A, B]) chColon
        (by intro l hl; rcases List.mem_cons.1 hl with rfl | hl
            · exact hA.not_mem (by decide)
            · rw [List.mem_singleton.1 hl]; exact hB.not_mem (by decide)) (by simp)
      simpa [List.intercalate, chColon] using this
    unfold parseEntry
    rw [hs]
    simp [(parseNumber_eq_some_iff _ _).2 hA, (parseNumber_eq_some_iff _ _).2 hB]

theorem entry_not_comma {T : List Byte} {e : Nat × Nat} (h : parseEntry T = some e) : chComma ∉ T := by
  obtain ⟨A, B, rfl, hA, hB⟩ := (EntryText_iff _ _).1 h
  have a := hA.not_mem (c := chComma) (by decide)
  have b := hB.not_mem (c := chComma) (by decide)
  simp only [List.mem_append, List.mem_cons, not_or]
  exact ⟨a, by decide, b⟩

theorem mapM_eq_some_forall₂ {α β : Type} (f : α → Option β) (l : List α) (r : List β) :
    l.mapM f = some r ↔ List.Forall₂ (fun a b => f a = some b) l r := by
  induction l generalizing r with
  | nil => cases r <;> simp
  | cons a l ih =>
    cases r with
    | nil => simp [List.mapM_cons, Option.bind_eq_some_iff]
    | cons b r =>
      rw [List.forall₂_cons, ← ih, List.mapM_cons]
      simp [Option.bind_eq_some_iff]

theorem intercalate_cons_cons' (c : Byte) (a b : List Byte) (ls : List (List Byte)) :
    [c].intercalate (a :: b :: ls) = a ++ c :: [c].intercalate (b :: ls) := by
  simp [List.intercalate]

/-- Pieces that are entries, joined by commas, are an entries text. -/
theorem EntriesText.of_pieces {ls : List (List Byte)} {es : List (Nat × Nat)}
    (h : List.Forall₂ (fun l e => parseEntry l = some e) ls es) (hne : ls ≠ []) :
    EntriesText ([chComma].intercalate ls) es := by
  induction h with
  | nil => exact absurd rfl hne
  | @cons l e ls es he hes ih =>
    obtain ⟨A, B, rfl, hA, hB⟩ := (EntryText_iff _ _).1 he
    cases hes with
    | nil => simpa [List.intercalate] using EntriesText.last A B _ _ hA hB
    | cons _ _ =>
      rw [intercalate_cons_cons']
      simpa [chComma] using EntriesText.more A B _ _ _ _ hA hB (ih (by simp))

theorem EntriesText.pieces {T : List Byte} {es : List (Nat × Nat)} (h : EntriesText T es) :
    ∃ ls, ls ≠ [] ∧ T = [chComma].intercalate ls ∧ List.Forall₂ (fun l e => parseEntry l = some e) ls es := by
  induction h with
  | last A B a b hA hB =>
    exact ⟨[A ++ 0x3A :: B], by simp, by simp [List.intercalate],
      .cons ((EntryText_iff _ _).2 ⟨A, B, rfl, hA, hB⟩) .nil⟩
  | more A B R a b es hA hB _ ih =>
    obtain ⟨ls, h1, rfl, h3⟩ := ih
    refine ⟨(A ++ 0x3A :: B) :: ls, by simp, ?_, .cons ((EntryText_iff _ _).2 ⟨A, B, rfl, hA, hB⟩) h3⟩
    cases ls with
    | nil => exact absurd rfl h1
    | cons l ls => rw [intercalate_cons_cons']; simp [chComma]

theorem parseEntries_eq_some_iff (T : List Byte) (es : List (Nat × Nat)) :
    parseEntries T = some es ↔ EntriesText T es := by
  unfold parseEntries
  rw [mapM_eq_some_forall₂]
  constructor
  · intro h
    have := EntriesText.of_pieces h (List.splitOn_ne_nil _ _)
    rwa [List.intercalate_splitOn] at this
  · intro h
    obtain ⟨ls, h1, rfl, h3⟩ := h.pieces
    rwa [List.splitOn_intercalate _ _ h1]
    intro l hl
    obtain ⟨i, hi, rfl⟩ := List.getElem_of_mem hl
    have := (List.forall₂_iff_get.1 h3).2 i hi (by rw [← h3.length_eq]; exact hi)
    exact entry_not_comma this

theorem EntriesText.ne_nil {T : List Byte} {es : List (Nat × Nat)} (h : EntriesText T es) : T ≠ [] := by
  cases h <;> simp

/-- The parser accepts exactly the texts of the grammar, and reads the entries the grammar lists. -/
theorem parseSyntax_eq_some_iff (T : List Byte) (es : List (Nat × Nat)) :
    parseSyntax T = some es ↔ TableText T es := by
  constructor
  · intro h
    unfold parseSyntax at h
    split at h
    · cases h
    · rename_i c T₁
      split at h
      · rename_i hc
        obtain ⟨rfl, hl⟩ := hc
        have e : T₁ = T₁.dropLast ++ [0x7D] := by
          obtain ⟨ys, rfl⟩ := List.getLast?_eq_some_iff.1 hl
          simp [chClose]
        split at h
        · rename_i hd
          obtain rfl := Option.some.inj h
          rw [hd] at e; rw [e]; exact TableText.empty
        · rw [parseEntries_eq_some_iff] at h
          rw [e]; exact TableText.full _ _ h
      · cases h
  · intro h
    cases h with
    | empty => decide
    | full R es hR =>
      have := (parseEntries_eq_some_iff _ _).2 hR
      simp [parseSyntax, chOpen, chClose, this, hR.ne_nil]

theorem TableText.unique {T : List Byte} {es es' : List (Nat × Nat)} (h : TableText T es) (h' : TableText T es') :
    es = es' := by
  rw [← parseSyntax_eq_some_iff] at h h'
  exact Option.some.inj (h.symm.trans h')

/-! ### Semantics -/

theorem entriesOk_iff (es : List (Nat × Nat)) : entriesOk es = true ↔ EntriesLegal es := by
  simp [entriesOk, EntriesLegal, List.all_eq_true, and_assoc]

theorem lookup_eq_some_of_mem {es : List (Nat × Nat)} (hn : (es.map Prod.fst).Nodup) {a b : Nat} (h : (a, b) ∈ es) :
    es.lookup a = some b := by
  induction es with
  | nil => cases h
  | cons e es ih =>
    obtain ⟨x, y⟩ := e
    simp only [List.map_cons, List.nodup_cons] at hn
    rcases List.mem_cons.1 h with e | h
    · obtain ⟨rfl, rfl⟩ := Prod.mk.inj e; simp [List.lookup]
    · have : a ≠ x := fun e => hn.1 (e ▸ List.mem_map_of_mem h)
      have hb : (a == x) = false := by simpa using this
      simp [List.lookup, hb, ih hn.2 h]

theorem lookup_eq_none_of_not_mem {es : List (Nat × Nat)} {a : Nat} (h : ∀ b, (a, b) ∉ es) : es.lookup a = none := by
  induction es with
  | nil => rfl
  | cons e es ih =>
    obtain ⟨x, y⟩ := e
    have : a ≠ x := by rintro rfl; exact h y List.mem_cons_self
    have hb : (a == x) = false := by simpa using this
    simp only [List.lookup, hb]
    exact ih fun b hb => h b (List.mem_cons_of_mem _ hb)

theorem tableOf_spec {es : List (Nat × Nat)} (h : EntriesLegal es) : TableIs (tableOf es) es := by
  constructor
  · intro s b hm
    have hb := (h.1 _ hm).2.2
    simp only [tableOf, Vector.get_ofFn, lookup_eq_some_of_mem h.2 hm, Option.getD_some, BitVec.toNat_ofNat] at hb ⊢
    omega
  · intro s hs
    simp [tableOf, Vector.get_ofFn, lookup_eq_none_of_not_mem hs]

theorem freq_ext {F G : Freq} (h : ∀ s, F.get s = G.get s) : F = G := by
  apply Vector.ext
  intro i hi
  exact h ⟨i, hi⟩

theorem TableIs.unique {F G : Freq} {es : List (Nat × Nat)} (hF : TableIs F es) (hG : TableIs G es) : F = G := by
  refine freq_ext fun s => ?_
  by_cases h : ∃ b, (s.val, b) ∈ es
  · obtain ⟨b, hb⟩ := h
    exact BitVec.eq_of_toNat_eq ((hF.1 s b hb).trans (hG.1 s b hb).symm)
  · have h' : ∀ b, (s.val, b) ∉ es := fun b hb => h ⟨b, hb⟩
    rw [hF.2 s h', hG.2 s h']

/-- Parse(T) (R220, R221). -/
theorem parseTable_eq_some_iff (T : List Byte) (F : Freq) :
    parseTable T = some F ↔ ∃ es, TableText T es ∧ EntriesLegal es ∧ TableIs F es := by
  unfold parseTable
  constructor
  · intro h
    split at h
    · cases h
    · rename_i es hes
      split at h
      · rename_i hok
        obtain rfl := Option.some.inj h
        have hl := (entriesOk_iff es).1 hok
        exact ⟨es, (parseSyntax_eq_some_iff _ _).1 hes, hl, tableOf_spec hl⟩
      · cases h
  · rintro ⟨es, h1, h2, h3⟩
    rw [(parseSyntax_eq_some_iff _ _).2 h1]
    simp [(entriesOk_iff es).2 h2, (tableOf_spec h2).unique h3]

/-! ### The serializer -/

theorem Freq.mem_present (F : Freq) (s : Fin 256) : s ∈ F.present ↔ F.get s ≠ 0 := by
  simp [Freq.present, List.mem_finRange]

theorem Freq.present_nodup (F : Freq) : F.present.Nodup := (List.nodup_finRange 256).filter _

/-- Ser(FREQ) is a table text that lists the FrequencyTable. -/
theorem serTable_text (F : Freq) : TableText (serTable F) F.entries := by
  have hp : List.Forall₂ (fun l e => parseEntry l = some e) (F.present.map (serEntry F)) F.entries := by
    unfold Freq.entries
    induction F.present with
    | nil => exact .nil
    | cons s l ih =>
      refine .cons ((EntryText_iff _ _).2 ⟨_, _, ?_, dec_text _, dec_text _⟩) ih
      simp [serEntry, chColon]
  unfold serTable
  by_cases h : F.present = []
  · simpa [h, Freq.entries, chOpen, chClose] using TableText.empty
  · have := TableText.full _ _ (EntriesText.of_pieces hp (by simpa using h))
    simpa [chOpen, chClose] using this

theorem Freq.entries_legal (F : Freq) : EntriesLegal F.entries := by
  constructor
  · intro e he
    obtain ⟨s, hs, rfl⟩ := List.mem_map.1 he
    have h0 := (F.mem_present s).1 hs
    have h1 : (F.get s).toNat ≠ 0 := fun h => h0 (BitVec.eq_of_toNat_eq h)
    have h2 := (F.get s).isLt
    have h3 := s.isLt
    refine ⟨?_, ?_, ?_⟩ <;> dsimp only <;> omega
  · rw [Freq.entries, List.map_map]
    exact F.present_nodup.map fun a b h => Fin.ext h

theorem Freq.entries_table (F : Freq) : TableIs F F.entries := by
  constructor
  · intro s b hm
    obtain ⟨x, -, hx⟩ := List.mem_map.1 hm
    obtain ⟨h1, h2⟩ := Prod.mk.inj hx
    rw [Fin.ext h1] at h2; exact h2
  · intro s hs
    by_contra h
    exact hs _ (List.mem_map.2 ⟨s, (F.mem_present s).2 h, rfl⟩)

end Sys2Proof.Machine
end

