-- ==== Sys2Proof/Laws/Tree.lean ====
section
/-! SUPPORT. The laws of the Tree Builder: what one removal from LIVE does, the induction over the merge rounds, and
the invariant of the rounds. -/

namespace Sys2Proof.Machine

/-! ### Removing the least key -/

theorem TreeKey.less_iff (a b : TreeKey) :
    TreeKey.less a b = true ↔ a.1.toNat < b.1.toNat ∨ a.1.toNat = b.1.toNat ∧ a.2 < b.2 := by
  simp [TreeKey.less]

theorem TreeKey.eq_of_not_less {a b : TreeKey} (h1 : ¬ TreeKey.less a b = true) (h2 : ¬ TreeKey.less b a = true) :
    a = b := by
  rw [TreeKey.less_iff] at h1 h2
  exact Prod.ext (BitVec.eq_of_toNat_eq (by omega)) (by omega)

theorem TreeKey.least_spec (k : TreeKey) (ks : List TreeKey) :
    TreeKey.least k ks ∈ k :: ks ∧ ∀ x ∈ k :: ks, ¬ TreeKey.less x (TreeKey.least k ks) = true := by
  induction ks generalizing k with
  | nil =>
    refine ⟨by simp [TreeKey.least], fun x hx => ?_⟩
    rw [List.mem_singleton.1 hx, TreeKey.less_iff, TreeKey.least]; omega
  | cons y ys ih =>
    unfold TreeKey.least
    obtain ⟨h1, h2⟩ := ih (if TreeKey.less y k then y else k)
    constructor
    · rcases List.mem_cons.1 h1 with h | h
      · rw [h]; split <;> simp
      · exact List.mem_cons_of_mem _ (List.mem_cons_of_mem _ h)
    · have h0 := h2 _ List.mem_cons_self
      intro x hx
      simp only [List.mem_cons] at hx
      by_cases hy : TreeKey.less y k = true
      · rw [if_pos hy] at h0 h2 ⊢
        rcases hx with rfl | rfl | hx
        · rw [TreeKey.less_iff] at *; omega
        · exact h0
        · exact h2 x (List.mem_cons_of_mem _ hx)
      · rw [if_neg hy] at h0 h2 ⊢
        rcases hx with rfl | rfl | hx
        · exact h0
        · rw [TreeKey.less_iff] at *; omega
        · exact h2 x (List.mem_cons_of_mem _ hx)

/-- What one removal from LIVE does: the key removed is in LIVE and less than every other, the rest is LIVE less it. -/
theorem takeLeast_spec {live rest : List TreeKey} {m : TreeKey} (h : takeLeast live = some (m, rest)) :
    m ∈ live ∧ rest = live.erase m ∧ ∀ x ∈ live, x ≠ m → TreeKey.less m x = true := by
  cases live with
  | nil => cases h
  | cons k ks =>
    simp only [takeLeast, Option.some.injEq, Prod.mk.injEq] at h
    obtain ⟨rfl, rfl⟩ := h
    obtain ⟨h1, h2⟩ := TreeKey.least_spec k ks
    refine ⟨h1, rfl, fun x hx hne => ?_⟩
    by_contra hl
    exact hne (TreeKey.eq_of_not_less (h2 x hx) hl)

theorem takeLeast_eq_none_iff (live : List TreeKey) : takeLeast live = none ↔ live = [] := by
  cases live <;> simp [takeLeast]

/-- The induction over the merge rounds, packaged once: what a round keeps holds of the finished arena. -/
theorem mergeRounds_induction (P : List Node → List TreeKey → Prop)
    (round : ∀ arena live a live₁ b live₂, P arena live → takeLeast live = some (a, live₁) →
      takeLeast live₁ = some (b, live₂) →
      P (arena ++ [mergeNode a b]) (nodeKey (mergeNode a b) arena.length :: live₂))
    (fuel : Nat) (arena : List Node) (live : List TreeKey) (h1 : 1 ≤ live.length) (h2 : live.length ≤ fuel)
    (hP : P arena live) : ∃ k, P (mergeRounds fuel arena live) [k] := by
  induction fuel generalizing arena live with
  | zero => omega
  | succ fuel ih =>
    unfold mergeRounds
    split
    · rename_i h; rw [takeLeast_eq_none_iff] at h; simp [h] at h1
    · rename_i a live₁ ha
      obtain ⟨ha1, rfl, -⟩ := takeLeast_spec ha
      have l1 := List.length_erase_of_mem ha1
      split
      · rename_i hb
        rw [takeLeast_eq_none_iff] at hb
        rw [hb, List.length_nil] at l1
        obtain ⟨k, rfl⟩ := List.length_eq_one_iff.1 (show live.length = 1 by omega)
        exact ⟨k, hP⟩
      · rename_i b live₂ hb
        obtain ⟨hb1, rfl, -⟩ := takeLeast_spec hb
        have l2 := List.length_erase_of_mem hb1
        have := List.length_pos_of_mem hb1
        exact ih _ _ (by simp) (by simp only [List.length_cons]; omega) (round _ _ _ _ _ _ hP ha hb)

/-! ### Trees as data -/

/-- A tree over arena entries, as data. -/
inductive HTree where
  | leaf (s : Byte)
  | node (l r : HTree)

/-- The symbols at the leaves, left to right. -/
def HTree.syms : HTree → List Byte
  | .leaf s => [s]
  | .node l r => l.syms ++ r.syms

/-- How many nodes a tree has. -/
def HTree.size : HTree → Nat
  | .leaf _ => 1
  | .node l r => 1 + l.size + r.size

/-- The arena entry i is the root of the tree t. -/
inductive SubTree (N : List Node) : Nat → HTree → Prop where
  | leaf (i : Nat) (n : Node) : N[i]? = some n → n.leaf = true → SubTree N i (.leaf n.sym)
  | node (i : Nat) (n : Node) (l r : HTree) : N[i]? = some n → n.leaf = false →
      SubTree N n.left.toNat l → SubTree N n.right.toNat r → SubTree N i (.node l r)

theorem SubTree.append {N : List Node} {i : Nat} {t : HTree} (h : SubTree N i t) (M : List Node) :
    SubTree (N ++ M) i t := by
  have get {j : Nat} {n : Node} (hj : N[j]? = some n) : (N ++ M)[j]? = some n := by
    rw [List.getElem?_append_left (List.getElem?_eq_some_iff.1 hj).1]; exact hj
  induction h with
  | leaf i n h1 h2 => exact .leaf i n (get h1) h2
  | node i n l r h1 h2 _ _ ihl ihr => exact .node i n l r (get h1) h2 ihl ihr

/-! ### The invariant of the merge rounds -/

theorem LiveAt.append_iff {N : List Node} {n k : Nat} (hk : k ≤ N.length) (M : List Node) (i : Nat) :
    LiveAt (N ++ M) n k i ↔ LiveAt N n k i := by
  unfold LiveAt
  refine and_congr_right fun _ => forall_congr' fun j => forall_congr' fun m => ?_
  refine imp_congr_right fun _ => imp_congr_right fun hj => ?_
  rw [List.getElem?_append_left (by omega)]

/-- What holds before and after every round, for a table F: the arena written so far and LIVE as keys. -/
structure MergeInv (F : Freq) (N : List Node) (live : List TreeKey) : Prop where
  length : N.length + live.length = 2 * F.present.length
  start : F.present.length ≤ N.length
  key : ∀ k ∈ live, ∃ m, N[k.2]? = some m ∧ m.f = k.1
  nodup : (live.map Prod.snd).Nodup
  liveAt : ∀ i, i ∈ live.map Prod.snd ↔ LiveAt N F.present.length N.length i
  leaf : ∀ (k : Nat) (s : Fin 256), F.present[k]? = some s →
    N[k]? = some (Node.mk true (BitVec.ofFin s) ((F.get s).setWidth 40) 0 0)
  merge : ∀ (k : Nat) (m : Node), F.present.length ≤ k → N[k]? = some m →
    m.leaf = false ∧ m.sym = 0 ∧
    LiveAt N F.present.length k m.left.toNat ∧ LiveAt N F.present.length k m.right.toNat ∧
    m.left ≠ m.right ∧
    (∃ a b, N[m.left.toNat]? = some a ∧ N[m.right.toNat]? = some b ∧ m.f.toNat = a.f.toNat + b.f.toNat) ∧
    (∀ i, LiveAt N F.present.length k i → i ≠ m.left.toNat → KeyLess N m.left.toNat i) ∧
    (∀ i, LiveAt N F.present.length k i → i ≠ m.left.toNat → i ≠ m.right.toNat → KeyLess N m.right.toNat i)
  sum : (live.map fun k => k.1.toNat).sum = F.total
  trees : ∃ ts, List.Forall₂ (fun (k : TreeKey) t => SubTree N k.2 t) live ts ∧
    (ts.flatMap HTree.syms).Perm (F.present.map BitVec.ofFin)
  root : ∀ k, live = [k] → k.2 + 1 = N.length

theorem KeyLess.append {N : List Node} {i j : Nat} (h : KeyLess N i j) (M : List Node) : KeyLess (N ++ M) i j := by
  obtain ⟨a, b, ha, hb, h⟩ := h
  refine ⟨a, b, ?_, ?_, h⟩
  · rw [List.getElem?_append_left (List.getElem?_eq_some_iff.1 ha).1]; exact ha
  · rw [List.getElem?_append_left (List.getElem?_eq_some_iff.1 hb).1]; exact hb

theorem Freq.present_length_le (F : Freq) : F.present.length ≤ 256 := by
  have := List.length_filter_le (fun s => F.get s != 0) (List.finRange 256)
  simpa [Freq.present] using this

theorem sum_map_le (l : List (Fin 256)) (f : Fin 256 → Nat) (b : Nat) (h : ∀ s, f s ≤ b) :
    (l.map f).sum ≤ l.length * b := by
  induction l with
  | nil => simp
  | cons a l ih => have := h a; simp only [List.map_cons, List.sum_cons, List.length_cons]; rw [Nat.add_mul]; omega

/-- The sum of all counts fits 40 bits (R146). -/
theorem Freq.total_lt (F : Freq) : F.total < 2 ^ 40 := by
  have := sum_map_le (List.finRange 256) (fun s => (F.get s).toNat) (2 ^ 32 - 1)
    (fun s => by have := (F.get s).isLt; omega)
  rw [List.length_finRange] at this
  unfold Freq.total; omega

theorem Freq.total_eq_present (F : Freq) : F.total = (F.present.map fun s => (F.get s).toNat).sum := by
  unfold Freq.total Freq.present
  induction List.finRange 256 with
  | nil => rfl
  | cons a l ih =>
    by_cases h : F.get a = 0
    · simpa [h] using ih
    · have : (F.get a != 0) = true := by simpa using h
      simp only [List.filter_cons, this, if_true, List.map_cons, List.sum_cons, ih]

theorem leaves_getElem? (F : Freq) (k : Nat) :
    (leaves F)[k]? = (F.present[k]?).map fun s => leafNode s (F.get s) := by
  simp [leaves]

theorem mergeInv_start (F : Freq) :
    MergeInv F (leaves F) ((leaves F).zipIdx.map fun p => nodeKey p.1 p.2) := by
  have hl : (leaves F).length = F.present.length := by simp [leaves]
  have hsnd : ((leaves F).zipIdx.map fun p => nodeKey p.1 p.2).map Prod.snd = List.range (leaves F).length := by
    rw [List.map_map, List.range_eq_range']
    exact List.zipIdx_map_snd 0 (leaves F)
  have hfst : ((leaves F).zipIdx.map fun p => nodeKey p.1 p.2).map (fun k => k.1.toNat)
      = F.present.map fun s => (F.get s).toNat := by
    have e : ((leaves F).zipIdx.map fun p => nodeKey p.1 p.2).map (fun k => k.1.toNat)
        = ((leaves F).zipIdx.map Prod.fst).map fun n => n.f.toNat := by
      rw [List.map_map, List.map_map]; rfl
    rw [e, List.zipIdx_map_fst, leaves, List.map_map]
    refine List.map_congr_left fun s _ => ?_
    have := (F.get s).isLt
    simp [leafNode]; omega
  refine ⟨?_, by omega, ?_, ?_, ?_, ?_, ?_, ?_, ?_, ?_⟩
  · simp [hl]; omega
  · intro k hk
    obtain ⟨⟨n, i⟩, hp, rfl⟩ := List.mem_map.1 hk
    exact ⟨n, List.mem_zipIdx_iff_getElem?.1 hp, rfl⟩
  · rw [hsnd]; exact List.nodup_range
  · intro i
    rw [hsnd, List.mem_range]
    refine ⟨fun h => ⟨h, fun j m h1 h2 => ?_⟩, fun h => h.1⟩
    omega
  · intro k s hs; rw [leaves_getElem?, hs]; rfl
  · intro k m hk hm
    have := (List.getElem?_eq_some_iff.1 hm).1
    omega
  · rw [hfst, F.total_eq_present]
  · refine ⟨F.present.map fun s => HTree.leaf (BitVec.ofFin s), ?_, ?_⟩
    · rw [List.forall₂_iff_get]
      refine ⟨by simp [hl], fun i h1 h2 => ?_⟩
      have hi : i < F.present.length := by simpa using h2
      have hget : (leaves F)[i]? = some (leafNode F.present[i] (F.get F.present[i])) := by
        rw [leaves_getElem?, List.getElem?_eq_getElem hi]; rfl
      have hs := SubTree.leaf i _ hget rfl
      simpa [nodeKey, leafNode] using hs
    · have : (F.present.map fun s => HTree.leaf (BitVec.ofFin s)).flatMap HTree.syms = F.present.map BitVec.ofFin := by
        induction F.present with
        | nil => rfl
        | cons a l ih => simp [HTree.syms] at ih ⊢; exact ih
      rw [this]
  · intro k hk
    have h1 := congrArg List.length hk
    have h2 : ((leaves F).zipIdx.map fun p => nodeKey p.1 p.2).map Prod.snd = [k.2] := by rw [hk]; rfl
    rw [hsnd] at h2
    simp only [List.length_map, List.length_zipIdx, List.length_singleton] at h1
    rw [h1] at h2 ⊢
    simp [List.range_succ] at h2
    omega

theorem mem_erase_of_snd {live : List TreeKey} (hn : (live.map Prod.snd).Nodup) {a : TreeKey} (ha : a ∈ live)
    (x : TreeKey) :
    x ∈ live.erase a ↔ x ∈ live ∧ x.2 ≠ a.2 := by
  have hn' : live.Nodup := hn.of_map
  rw [hn'.mem_erase_iff]
  constructor
  · rintro ⟨h1, h2⟩
    exact ⟨h2, fun e => h1 (List.inj_on_of_nodup_map hn h2 ha e)⟩
  · rintro ⟨h1, h2⟩
    exact ⟨fun e => h2 (e ▸ rfl), h1⟩

theorem forall₂_erase {R : TreeKey → HTree → Prop} {live : List TreeKey} {ts : List HTree}
    (h : List.Forall₂ R live ts) {a : TreeKey} (ha : a ∈ live) :
    ∃ t ts', R a t ∧ List.Forall₂ R (live.erase a) ts' ∧ ts.Perm (t :: ts') := by
  induction h with
  | nil => cases ha
  | @cons k t live ts hk hl ih =>
    by_cases e : k = a
    · subst e; exact ⟨t, ts, hk, by simpa using hl, .refl _⟩
    · obtain ⟨t', ts', h1, h2, h3⟩ := ih ((List.mem_cons.1 ha).resolve_left fun h => e h.symm)
      refine ⟨t', t :: ts', h1, ?_, ?_⟩
      · rw [List.erase_cons_tail (by simpa using e)]; exact .cons hk h2
      · exact (h3.cons t).trans (.swap t' t ts')

theorem mergeInv_round {F : Freq} {N : List Node} {live live₁ live₂ : List TreeKey} {a b : TreeKey}
    (h : MergeInv F N live) (ha : takeLeast live = some (a, live₁)) (hb : takeLeast live₁ = some (b, live₂)) :
    MergeInv F (N ++ [mergeNode a b]) (nodeKey (mergeNode a b) N.length :: live₂) := by
  obtain ⟨ha1, rfl, ha3⟩ := takeLeast_spec ha
  obtain ⟨hb1, rfl, hb3⟩ := takeLeast_spec hb
  have hb2 := (mem_erase_of_snd h.nodup ha1 b).1 hb1
  have nd1 : ((live.erase a).map Prod.snd).Nodup := h.nodup.sublist ((List.erase_sublist).map _)
  have l1 := List.length_erase_of_mem ha1
  have l2 := List.length_erase_of_mem hb1
  have p1 := List.length_pos_of_mem ha1
  have p2 := List.length_pos_of_mem hb1
  have hlen := h.length
  have h256 := F.present_length_le
  obtain ⟨na, hna, hfa⟩ := h.key a ha1
  obtain ⟨nb, hnb, hfb⟩ := h.key b hb2.1
  have ia := (List.getElem?_eq_some_iff.1 hna).1
  have ib := (List.getElem?_eq_some_iff.1 hnb).1
  have eL : (mergeNode a b).left.toNat = a.2 := by simp [mergeNode, BitVec.toNat_ofNat]; omega
  have eR : (mergeNode a b).right.toNat = b.2 := by simp [mergeNode, BitVec.toNat_ofNat]; omega
  have get {j : Nat} {n : Node} (hj : N[j]? = some n) : (N ++ [mergeNode a b])[j]? = some n := by
    rw [List.getElem?_append_left (List.getElem?_eq_some_iff.1 hj).1]; exact hj
  have getNew : (N ++ [mergeNode a b])[N.length]? = some (mergeNode a b) := by simp
  -- membership of the new LIVE
  have mem2 (x : TreeKey) : x ∈ (live.erase a).erase b ↔ x ∈ live ∧ x.2 ≠ a.2 ∧ x.2 ≠ b.2 := by
    rw [mem_erase_of_snd nd1 hb1, mem_erase_of_snd h.nodup ha1]; tauto
  have memIdx (i : Nat) : i ∈ ((live.erase a).erase b).map Prod.snd ↔ i ∈ live.map Prod.snd ∧ i ≠ a.2 ∧ i ≠ b.2 := by
    simp only [List.mem_map, mem2]
    constructor
    · rintro ⟨x, ⟨h1, h2, h3⟩, rfl⟩; exact ⟨⟨x, h1, rfl⟩, h2, h3⟩
    · rintro ⟨⟨x, h1, rfl⟩, h2, h3⟩; exact ⟨x, ⟨h1, h2, h3⟩, rfl⟩
  -- the sum
  have sumA := ((List.perm_cons_erase ha1).map fun k : TreeKey => k.1.toNat).sum_eq
  have sumB := ((List.perm_cons_erase hb1).map fun k : TreeKey => k.1.toNat).sum_eq
  have hsum := h.sum
  rw [List.map_cons, List.sum_cons] at sumA sumB
  have htot := F.total_lt
  have hnowrap : (mergeNode a b).f.toNat = a.1.toNat + b.1.toNat := by
    simp only [mergeNode, BitVec.toNat_add]; omega
  -- children of earlier entries lie below them
  have child (j : Nat) (m : Node) (h1 : F.present.length ≤ j) (h2 : N[j]? = some m) :
      m.left.toNat < j ∧ m.right.toNat < j := by
    obtain ⟨-, -, h3, h4, -⟩ := h.merge j m h1 h2
    exact ⟨h3.1, h4.1⟩
  have liveLess (i : Nat) (hi : LiveAt N F.present.length N.length i) : ∃ x ∈ live, x.2 = i := by
    obtain ⟨x, hx, rfl⟩ := List.mem_map.1 ((h.liveAt i).2 hi); exact ⟨x, hx, rfl⟩
  have keyLess {x y : TreeKey} (hx : x ∈ live) (hy : y ∈ live) (hl : TreeKey.less x y = true) : KeyLess N x.2 y.2 := by
    obtain ⟨mx, gx, fx⟩ := h.key x hx
    obtain ⟨my, gy, fy⟩ := h.key y hy
    rw [TreeKey.less_iff] at hl
    exact ⟨mx, my, gx, gy, by rw [fx, fy]; exact hl⟩
  refine ⟨?_, ?_, ?_, ?_, ?_, ?_, ?_, ?_, ?_, ?_⟩
  · simp only [List.length_append, List.length_cons, List.length_nil]; omega
  · have := h.start; simp only [List.length_append]; omega
  · intro k hk
    rcases List.mem_cons.1 hk with rfl | hk
    · exact ⟨_, getNew, rfl⟩
    · obtain ⟨m, h1, h2⟩ := h.key k ((mem2 k).1 hk).1
      exact ⟨m, get h1, h2⟩
  · rw [List.map_cons, List.nodup_cons]
    refine ⟨fun hm => ?_, nd1.sublist ((List.erase_sublist).map _)⟩
    have := ((h.liveAt _).1 ((memIdx _).1 hm).1).1
    simp [nodeKey] at this
  · intro i
    rw [List.map_cons, List.mem_cons, memIdx, h.liveAt]
    simp only [nodeKey, List.length_append, List.length_singleton]
    constructor
    · rintro (rfl | ⟨hi, h1, h2⟩)
      · refine ⟨by omega, fun j m hj1 hj2 hj => ?_⟩
        by_cases e : j = N.length
        · subst e; rw [getNew] at hj; obtain rfl := Option.some.inj hj; rw [eL, eR]; omega
        · rw [List.getElem?_append_left (by omega)] at hj
          have := child j m hj1 hj; omega
      · refine ⟨by have := hi.1; omega, fun j m hj1 hj2 hj => ?_⟩
        by_cases e : j = N.length
        · subst e; rw [getNew] at hj; obtain rfl := Option.some.inj hj; rw [eL, eR]
          exact ⟨fun e => h1 e.symm, fun e => h2 e.symm⟩
        · rw [List.getElem?_append_left (by omega)] at hj
          exact hi.2 j m hj1 (by omega) hj
    · rintro ⟨h1, h2⟩
      by_cases e : i = N.length
      · exact .inl e
      · have hnew := h2 N.length _ h.start (by omega) getNew
        rw [eL, eR] at hnew
        refine .inr ⟨⟨by omega, fun j m hj1 hj2 hj => h2 j m hj1 (by omega) (get hj)⟩, ?_, ?_⟩
        · exact fun e => hnew.1 e.symm
        · exact fun e => hnew.2 e.symm
  · intro k s hs; exact get (h.leaf k s hs)
  · intro k m hk hm
    by_cases e : k = N.length
    · subst e
      rw [getNew] at hm
      obtain rfl := Option.some.inj hm
      have la : LiveAt N F.present.length N.length a.2 := (h.liveAt _).1 (List.mem_map_of_mem ha1)
      have lb : LiveAt N F.present.length N.length b.2 := (h.liveAt _).1 (List.mem_map_of_mem hb2.1)
      simp only [LiveAt.append_iff (Nat.le_refl N.length), eL, eR]
      refine ⟨rfl, rfl, la, lb, ?_, ⟨na, nb, get hna, get hnb, by rw [hnowrap, hfa, hfb]⟩, ?_, ?_⟩
      · intro e
        have := congrArg BitVec.toNat e
        rw [eL, eR] at this; exact hb2.2 this.symm
      · intro i hi hne
        obtain ⟨x, hx, rfl⟩ := liveLess i hi
        exact (keyLess ha1 hx (ha3 x hx fun e => hne (e ▸ rfl))).append _
      · intro i hi hne hne'
        obtain ⟨x, hx, rfl⟩ := liveLess i hi
        refine (keyLess hb2.1 hx (hb3 x ((mem_erase_of_snd h.nodup ha1 x).2 ⟨hx,
            hne⟩) fun e => hne' (e ▸ rfl))).append _
    · have hk2 : k < N.length := by
        have := (List.getElem?_eq_some_iff.1 hm).1
        simp at this; omega
      rw [List.getElem?_append_left hk2] at hm
      simp only [LiveAt.append_iff (Nat.le_of_lt hk2)]
      obtain ⟨c1, c2, c3, c4, c5, ⟨x, y, hx, hy, hf⟩, c7, c8⟩ := h.merge k m hk hm
      exact ⟨c1, c2, c3, c4, c5, ⟨x, y, get hx, get hy, hf⟩,
        fun i hi hne => (c7 i hi hne).append _, fun i hi h1 h2 => (c8 i hi h1 h2).append _⟩
  · rw [List.map_cons, List.sum_cons]
    simp only [nodeKey]
    rw [hnowrap]; omega
  · obtain ⟨ts, h1, h2⟩ := h.trees
    obtain ⟨ta, ts₁, ra, h3, h4⟩ := forall₂_erase h1 ha1
    obtain ⟨tb, ts₂, rb, h5, h6⟩ := forall₂_erase h3 hb1
    refine ⟨.node ta tb :: ts₂, .cons ?_ ?_, ?_⟩
    · refine SubTree.node N.length _ ta tb getNew rfl ?_ ?_
      · rw [eL]; exact ra.append _
      · rw [eR]; exact rb.append _
    · exact h5.imp fun _ _ ht => ht.append _
    · refine List.Perm.trans ?_ h2
      refine List.Perm.trans ?_ ((h4.trans (h6.cons ta)).symm.flatMap_right _)
      simp [HTree.syms]
  · intro k hk
    obtain ⟨rfl, -⟩ := List.cons.inj hk
    simp [nodeKey]

/-- The finished arena of a table with at least one entry. -/
theorem buildTree_inv {F : Freq} {N : List Node} (h : buildTree F = some N) :
    1 ≤ F.present.length ∧ ∃ k, MergeInv F N [k] := by
  unfold buildTree at h
  simp only at h
  split at h
  · cases h
  · rename_i hne
    have hl : (leaves F).length = F.present.length := by simp [leaves]
    have hpos : 1 ≤ (leaves F).length := List.length_pos_iff.2 (by simpa using hne)
    obtain rfl := Option.some.inj h
    refine ⟨by omega, ?_⟩
    exact mergeRounds_induction (MergeInv F) (fun _ _ _ _ _ _ h1 h2 h3 => mergeInv_round h1 h2 h3) _ _ _
      (by simpa using hpos) (by simp) (mergeInv_start F)

theorem buildTree_eq_none_iff (F : Freq) : buildTree F = none ↔ F.present = [] := by
  unfold buildTree
  simp only
  split
  · rename_i h; simpa [leaves] using h
  · rename_i h; simpa [leaves] using h

/-- How many entries the arena has, and where its root is (R143, R149 a). -/
theorem buildTree_length {F : Freq} {N : List Node} (h : buildTree F = some N) :
    N.length = 2 * F.present.length - 1 ∧ 1 ≤ F.present.length ∧ N.length ≤ 511 := by
  obtain ⟨h1, k, hk⟩ := buildTree_inv h
  have h2 := hk.length
  have h3 := F.present_length_le
  simp only [List.length_singleton] at h2
  omega

/-- The arena is the root of one tree over all symbols of the table. -/
theorem buildTree_tree {F : Freq} {N : List Node} (h : buildTree F = some N) :
    ∃ t, SubTree N (N.length - 1) t ∧ t.syms.Perm (F.present.map BitVec.ofFin) := by
  obtain ⟨h1, k, hk⟩ := buildTree_inv h
  obtain ⟨ts, h2, h3⟩ := hk.trees
  have hr := hk.root k rfl
  cases h2 with
  | cons ht hn =>
    cases hn
    refine ⟨_, ?_, by simpa using h3⟩
    rw [← hr]; exact ht

/-! ### The built arena as the spec describes it -/

/-- A table with a nonzero entry has a symbol (R35). -/
theorem Freq.present_ne_nil (F : Freq) (h : ∃ x, F.get x ≠ 0) : F.present ≠ [] := by
  obtain ⟨x, hx⟩ := h
  intro e
  have := (F.mem_present x).2 hx
  rw [e] at this; cases this

/-- BuildTree answers an arena for a table with a nonzero entry (R143). -/
theorem buildTree_some (F : Freq) (h : ∃ x, F.get x ≠ 0) : ∃ N, buildTree F = some N := by
  cases hb : buildTree F with
  | some N => exact ⟨N, rfl⟩
  | none => exact absurd ((buildTree_eq_none_iff F).1 hb) (Freq.present_ne_nil F h)

/-- BuildTree fails on the empty table (R145). -/
theorem buildTree_none (F : Freq) (h : ∀ x, F.get x = 0) : buildTree F = none := by
  rw [buildTree_eq_none_iff, List.eq_nil_iff_forall_not_mem]
  intro x hx
  exact (F.mem_present x).1 hx (h x)

/-- The arena BuildTree gives is a greedy one (R140 to R143). -/
theorem greedyArena_of_buildTree {F : Freq} {N : List Node} (h : buildTree F = some N) : GreedyArena F N := by
  obtain ⟨h1, k, hk⟩ := buildTree_inv h
  exact ⟨(buildTree_length h).1, hk.leaf, hk.merge⟩

end Sys2Proof.Machine
end

