-- ==== Sys2Proof/Laws/Codes.lean ====
section
/-! SUPPORT. The laws of the Code Table Generator: the traversal writes the path of every leaf, and the code set of a
tree is prefix-free. -/

namespace Sys2Proof.Machine

/-! ### Bit strings as numbers -/

theorem bitsValue_snoc (p : Bits) (b : Bool) : bitsValue (p ++ [b]) = 2 * bitsValue p + b.toNat := by
  simp [bitsValue]

theorem bitsValue_testBits (p : Bits) :
    (List.range p.length).map (fun j => (bitsValue p).testBit (p.length - 1 - j)) = p := by
  induction p using List.reverseRecOn with
  | nil => rfl
  | append_singleton p b ih =>
    rw [List.length_append, List.length_singleton, List.range_succ, List.map_append, bitsValue_snoc]
    congr 1
    · refine Eq.trans (List.map_congr_left fun j hj => ?_) ih
      have hj := List.mem_range.1 hj
      rw [show p.length + 1 - 1 - j = (p.length - 1 - j) + 1 by omega, Nat.testBit_succ]
      congr 1
      cases b <;> (simp; try omega)
    · cases b <;> simp [Nat.testBit_zero]

theorem bitsValue_lt (p : Bits) : bitsValue p < 2 ^ p.length := by
  induction p using List.reverseRecOn with
  | nil => simp [bitsValue]
  | append_singleton p b ih =>
    rw [bitsValue_snoc, List.length_append, List.length_singleton, Nat.pow_succ]
    cases b <;> simp <;> omega

/-- The code written for a path is that path as a bit string (10_state.md R38). -/
theorem Code.bits_of_path (p : Bits) (h : p.length ≤ 255) :
    Code.bits ⟨BitVec.ofNat 8 p.length, BitVec.ofNat 255 (bitsValue p)⟩ = p := by
  have hl : (BitVec.ofNat 8 p.length).toNat = p.length := by rw [BitVec.toNat_ofNat]; omega
  unfold Code.bits
  simp only [hl]
  refine Eq.trans (List.map_congr_left fun j hj => ?_) (bitsValue_testBits p)
  have hj := List.mem_range.1 hj
  rw [BitVec.getLsbD_ofNat]
  simp; omega

@[simp] theorem Code.bits_length (c : Code) : c.bits.length = c.len.toNat := by simp [Code.bits]

/-! ### The code table as a map -/

theorem CodeTable.of_put (T : CodeTable) (s x : Byte) (l v : Nat) :
    (T.put s l v).of x = if x = s then ⟨BitVec.ofNat 8 l, BitVec.ofNat 255 v⟩ else T.of x := by
  unfold CodeTable.put CodeTable.of
  simp only [Vector.get_eq_getElem, Vector.getElem_set]
  by_cases h : x = s
  · subst h; simp
  · have : ¬ s.toFin.val = x.toFin.val := fun e => h (BitVec.eq_of_toFin_eq (Fin.ext e.symm))
    rw [if_neg this, if_neg h]

theorem CodeTable.of_empty (x : Byte) : CodeTable.empty.of x = ⟨0, 0⟩ := by
  simp [CodeTable.empty, CodeTable.of, Vector.get_eq_getElem]

/-! ### The traversal -/

/-- The symbols of a tree with the lengths and values the traversal writes for them. -/
def HTree.codes : HTree → (l v : Nat) → List (Byte × Nat × Nat)
  | .leaf s, l, v => [(s, l, v)]
  | .node t u, l, v => t.codes (l + 1) (2 * v) ++ u.codes (l + 1) (2 * v + 1)

/-- The symbols of a tree with the paths from its root. -/
def HTree.paths : HTree → List (Byte × Bits)
  | .leaf s => [(s, [])]
  | .node t u => (t.paths.map fun e => (e.1, false :: e.2)) ++ (u.paths.map fun e => (e.1, true :: e.2))

/-- The symbols of a tree with their codes: the paths, and "0" for a single leaf (R162). -/
def HTree.codeList : HTree → List (Byte × Bits)
  | .leaf s => [(s, [false])]
  | .node t u => (HTree.node t u).paths

/-- Writing a list of codes into a table. -/
def CodeTable.putAll (T : CodeTable) (cs : List (Byte × Nat × Nat)) : CodeTable :=
  cs.foldl (fun T c => T.put c.1 c.2.1 c.2.2) T

theorem CodeTable.putAll_append (T : CodeTable) (cs ds : List (Byte × Nat × Nat)) :
    T.putAll (cs ++ ds) = (T.putAll cs).putAll ds := by simp [CodeTable.putAll]

/-- An arena register file holds the entries N. -/
def ArenaHolds (node : Arena) (N : List Node) : Prop :=
  ∀ (i : Fin 511) (n : Node), N[i.val]? = some n → node.get i = n

theorem ArenaHolds.at {node : Arena} {N : List Node} (h : ArenaHolds node N) (hN : N.length ≤ 511) {i : Nat} {n : Node}
    (hi : N[i]? = some n) : node.at i = n := by
  have hlt := (List.getElem?_eq_some_iff.1 hi).1
  have := h ⟨i, by omega⟩ n hi
  rw [Vector.get_eq_getElem] at this
  simp only at this
  unfold Arena.at
  rw [List.getElem?_eq_getElem (by simp; omega)]
  simpa using this

/-- Walking a subtree on top of the stack writes its codes and leaves the rest of the stack. -/
theorem walkTree_subTree {node : Arena} {N : List Node} (hh : ArenaHolds node N) (hN : N.length ≤ 511) {i : Nat}
    {t : HTree} (ht : SubTree N i t) (fuel l v : Nat) (stack : List (Nat × Nat × Nat)) (T : CodeTable) :
    walkTree node (t.size + fuel) ((i, l, v) :: stack) T = walkTree node fuel stack (T.putAll (t.codes l v)) := by
  induction ht generalizing fuel l v stack T with
  | leaf i n h1 h2 =>
    rw [HTree.size, Nat.add_comm, walkTree]
    simp only [hh.at hN h1, h2, if_true]
    rfl
  | node i n tl tr h1 h2 _ _ ihl ihr =>
    rw [HTree.size, show 1 + tl.size + tr.size + fuel = (tl.size + (tr.size + fuel)) + 1 by omega, walkTree]
    simp only [hh.at hN h1, h2]
    rw [ihl, ihr, HTree.codes, CodeTable.putAll_append]
    rfl

theorem HTree.codes_eq_paths (t : HTree) (q : Bits) :
    t.codes q.length (bitsValue q) = t.paths.map fun e => (e.1, (q ++ e.2).length, bitsValue (q ++ e.2)) := by
  induction t generalizing q with
  | leaf s => simp [HTree.codes, HTree.paths]
  | node t u iht ihu =>
    have h0 := iht (q ++ [false])
    have h1 := ihu (q ++ [true])
    rw [bitsValue_snoc, List.length_append, List.length_singleton] at h0 h1
    simp only [Bool.toNat_false, Bool.toNat_true, Nat.add_zero] at h0 h1
    rw [HTree.codes, h0, h1, HTree.paths, List.map_append, List.map_map, List.map_map]
    simp [Function.comp_def]

theorem HTree.paths_syms (t : HTree) : t.paths.map Prod.fst = t.syms := by
  induction t with
  | leaf s => rfl
  | node t u iht ihu => simp [HTree.paths, HTree.syms, Function.comp_def, ← iht, ← ihu]

theorem HTree.codeList_syms (t : HTree) : t.codeList.map Prod.fst = t.syms := by
  cases t with
  | leaf s => rfl
  | node t u => exact HTree.paths_syms _

theorem HTree.syms_pos (t : HTree) : 1 ≤ t.syms.length := by
  induction t with
  | leaf s => simp [HTree.syms]
  | node t u iht ihu => simp only [HTree.syms, List.length_append]; omega

/-- A tree of n leaves has depth at most n − 1 (R149 f). -/
theorem HTree.path_length {t : HTree} {e : Byte × Bits} (h : e ∈ t.paths) : e.2.length + 1 ≤ t.syms.length := by
  induction t generalizing e with
  | leaf s => simp [HTree.paths] at h; subst h; simp [HTree.syms]
  | node t u iht ihu =>
    have ht := t.syms_pos
    have hu := u.syms_pos
    simp only [HTree.paths, List.mem_append, List.mem_map] at h
    simp only [HTree.syms, List.length_append]
    rcases h with ⟨x, hx, rfl⟩ | ⟨x, hx, rfl⟩
    · have := iht hx; simp only [List.length_cons]; omega
    · have := ihu hx; simp only [List.length_cons]; omega

theorem HTree.size_eq (t : HTree) : t.size + 1 = 2 * t.syms.length := by
  induction t with
  | leaf s => rfl
  | node t u iht ihu => simp only [HTree.size, HTree.syms, List.length_append]; omega

/-- No path of a tree is a prefix of another's. -/
theorem HTree.paths_prefixFree {t : HTree} {e f : Byte × Bits} (he : e ∈ t.paths) (hf : f ∈ t.paths)
    (h : e.2 <+: f.2) : e.2 = f.2 ∧ (t.syms.Nodup → e.1 = f.1) := by
  induction t generalizing e f with
  | leaf s => simp [HTree.paths] at he hf; subst he; subst hf; simp
  | node t u iht ihu =>
    simp only [HTree.paths, List.mem_append, List.mem_map] at he hf
    rcases he with ⟨x, hx, rfl⟩ | ⟨x, hx, rfl⟩ <;> rcases hf with ⟨y, hy, rfl⟩ | ⟨y, hy, rfl⟩
    · obtain ⟨h1, h2⟩ := iht hx hy (List.cons_prefix_cons.1 h).2
      exact ⟨by simp [h1], fun hn => h2 (List.nodup_append.1 hn).1⟩
    · exact absurd (List.cons_prefix_cons.1 h).1 (by decide)
    · exact absurd (List.cons_prefix_cons.1 h).1 (by decide)
    · obtain ⟨h1, h2⟩ := ihu hx hy (List.cons_prefix_cons.1 h).2
      exact ⟨by simp [h1], fun hn => h2 (List.nodup_append.1 hn).2.1⟩

theorem HTree.codeList_prefixFree {t : HTree} {e f : Byte × Bits} (hn : t.syms.Nodup) (he : e ∈ t.codeList)
    (hf : f ∈ t.codeList) (h : e.2 <+: f.2) : e.1 = f.1 := by
  cases t with
  | leaf s => simp [HTree.codeList] at he hf; rw [he, hf]
  | node t u => exact (HTree.paths_prefixFree he hf h).2 hn

theorem CodeTable.of_putAll_of_not_mem (T : CodeTable) (cs : List (Byte × Nat × Nat)) (x : Byte)
    (h : x ∉ cs.map Prod.fst) : (T.putAll cs).of x = T.of x := by
  induction cs generalizing T with
  | nil => rfl
  | cons c cs ih =>
    simp only [List.map_cons, List.mem_cons, not_or] at h
    rw [CodeTable.putAll, List.foldl_cons]
    have := ih (T.put c.1 c.2.1 c.2.2) h.2
    rw [CodeTable.putAll] at this
    rw [this, CodeTable.of_put, if_neg h.1]

theorem CodeTable.of_putAll_of_mem (T : CodeTable) {cs : List (Byte × Nat × Nat)} (hn : (cs.map Prod.fst).Nodup)
    {c : Byte × Nat × Nat} (h : c ∈ cs) :
    (T.putAll cs).of c.1 = ⟨BitVec.ofNat 8 c.2.1, BitVec.ofNat 255 c.2.2⟩ := by
  induction cs generalizing T with
  | nil => cases h
  | cons d cs ih =>
    simp only [List.map_cons, List.nodup_cons] at hn
    rcases List.mem_cons.1 h with rfl | h
    · have := CodeTable.of_putAll_of_not_mem (T.put c.1 c.2.1 c.2.2) cs c.1 hn.1
      rw [CodeTable.putAll] at this ⊢
      rw [List.foldl_cons, this, CodeTable.of_put, if_pos rfl]
    · have := ih (T.put d.1 d.2.1 d.2.2) hn.2 h
      rw [CodeTable.putAll] at this ⊢
      rwa [List.foldl_cons]

/-- The root entry of a tree. -/
theorem SubTree.root_entry {N : List Node} {i : Nat} {t : HTree} (h : SubTree N i t) :
    ∃ n, N[i]? = some n ∧ (∀ s, t = .leaf s → n.sym = s) := by
  cases h with
  | leaf _ n h1 h2 => exact ⟨n, h1, fun s e => by cases e; rfl⟩
  | node _ n l r h1 h2 h3 h4 => exact ⟨n, h1, fun s e => by cases e⟩

/-- GenCodes of a built arena: the code table of one tree over the symbols of the table (R161 to R163). -/
theorem genCodes_spec {F : Freq} {N : List Node} {node : Arena} (hb : buildTree F = some N) (hh : ArenaHolds node N) :
    ∃ t, SubTree N (N.length - 1) t ∧ t.syms.Perm (F.present.map BitVec.ofFin) ∧ t.syms.Nodup ∧
      (∀ e ∈ t.codeList, (1 ≤ e.2.length ∧ e.2.length ≤ 255) ∧
        (genCodes node N.length).of e.1 = ⟨BitVec.ofNat 8 e.2.length, BitVec.ofNat 255 (bitsValue e.2)⟩) ∧
      ∀ x, x ∉ t.syms → (genCodes node N.length).of x = ⟨0, 0⟩ := by
  obtain ⟨t, ht, hp⟩ := buildTree_tree hb
  obtain ⟨hlen, hpos, h511⟩ := buildTree_length hb
  have h256 := F.present_length_le
  have hsl : t.syms.length = F.present.length := by simpa using hp.length_eq
  have hn : t.syms.Nodup := by
    rw [hp.nodup_iff]; exact F.present_nodup.map fun a b h => BitVec.ofFin.inj h
  refine ⟨t, ht, hp, hn, ?_⟩
  -- the table is the empty one with the codes of a list of bit strings put in
  have main : genCodes node N.length =
      CodeTable.empty.putAll (t.codeList.map fun e => (e.1, e.2.length, bitsValue e.2)) := by
    unfold genCodes
    split
    · rename_i h1
      have : t.syms.length = 1 := by omega
      cases t with
      | leaf s =>
        obtain ⟨n, hn1, hn2⟩ := ht.root_entry
        rw [h1] at hn1
        rw [hh.at h511 hn1, hn2 s rfl]; rfl
      | node l r =>
        have := l.syms_pos; have := r.syms_pos
        simp only [HTree.syms, List.length_append] at *; omega
    · rename_i h1
      have hsz := t.size_eq
      have hw := walkTree_subTree hh h511 ht (Config.maxNodes - t.size) 0 0 [] CodeTable.empty
      rw [show t.size + (Config.maxNodes - t.size) = Config.maxNodes by unfold Config.maxNodes; omega] at hw
      rw [hw]
      have hc := t.codes_eq_paths []
      simp only [List.length_nil, List.nil_append] at hc
      have e0 : bitsValue [] = 0 := rfl
      rw [e0] at hc
      rw [hc]
      cases t with
      | leaf s => simp [HTree.syms] at hsl; omega
      | node l r =>
        have : ∀ fuel T, walkTree node fuel [] T = T := by intro fuel T; cases fuel <;> rfl
        rw [this]; rfl
  have hfst : (t.codeList.map fun e => (e.1, e.2.length, bitsValue e.2)).map Prod.fst = t.syms := by
    rw [List.map_map, ← t.codeList_syms]; rfl
  have hlens : ∀ e ∈ t.codeList, 1 ≤ e.2.length ∧ e.2.length ≤ 255 := by
    intro e he
    cases t with
    | leaf s => simp [HTree.codeList] at he; subst he; simp
    | node l r =>
      have h1 := HTree.path_length he
      refine ⟨?_, by omega⟩
      simp only [HTree.codeList, HTree.paths, List.mem_append, List.mem_map] at he
      rcases he with ⟨x, -, rfl⟩ | ⟨x, -, rfl⟩ <;> simp
  rw [main]
  constructor
  · intro e he
    have h1 := CodeTable.of_putAll_of_mem CodeTable.empty (by rw [hfst]; exact hn)
      (List.mem_map_of_mem (f := fun e : Byte × Bits => (e.1, e.2.length, bitsValue e.2)) he)
    exact ⟨hlens e he, h1⟩
  · intro x hx
    rw [CodeTable.of_putAll_of_not_mem _ _ _ (by rw [hfst]; exact hx), CodeTable.of_empty]

/-- The code written for a path has that path as its bits, and is a code. -/
theorem Code.of_path {c : Code} {p : Bits} (hp : 1 ≤ p.length ∧ p.length ≤ 255)
    (hc : c = ⟨BitVec.ofNat 8 p.length, BitVec.ofNat 255 (bitsValue p)⟩) : c.bits = p ∧ c.len ≠ 0 := by
  subst hc
  refine ⟨Code.bits_of_path _ hp.2, fun h0 => ?_⟩
  have := congrArg BitVec.toNat h0
  rw [BitVec.toNat_ofNat] at this
  simp only [BitVec.ofNat_eq_ofNat, BitVec.toNat_ofNat] at this
  omega

/-- Which symbols have a code (R163). -/
theorem genCodes_coded_iff {F : Freq} {N : List Node} {node : Arena} (hb : buildTree F = some N)
    (hh : ArenaHolds node N) (x : Byte) : (genCodes node N.length).coded x ↔ F.get x.toFin ≠ 0 := by
  obtain ⟨t, -, hp, -, h1, h2⟩ := genCodes_spec hb hh
  rw [← F.mem_present]
  have hm : x.toFin ∈ F.present ↔ x ∈ t.syms := by
    rw [hp.mem_iff, List.mem_map]
    exact ⟨fun h => ⟨_, h, rfl⟩, fun ⟨a, ha, e⟩ => by rw [← e]; exact ha⟩
  rw [hm]
  constructor
  · intro hc
    by_contra hx
    exact hc (by rw [h2 x hx])
  · intro hx
    rw [← t.codeList_syms] at hx
    obtain ⟨e, he, rfl⟩ := List.mem_map.1 hx
    exact (Code.of_path (h1 e he).1 (h1 e he).2).2

/-- The code set of a built arena is prefix-free (R164). -/
theorem genCodes_codes_prefixFree {F : Freq} {N : List Node} {node : Arena} (hb : buildTree F = some N)
    (hh : ArenaHolds node N) : (genCodes node N.length).prefixFree := by
  obtain ⟨t, -, -, hn, h1, h2⟩ := genCodes_spec hb hh
  have mem (x : Byte) (hx : (genCodes node N.length).coded x) : ∃ e ∈ t.codeList, e.1 = x := by
    have : x ∈ t.syms := by by_contra h; exact hx (by rw [h2 x h])
    rw [← t.codeList_syms] at this
    simpa using this
  intro x y hx hy hpre
  obtain ⟨e, he, rfl⟩ := mem x hx
  obtain ⟨f, hf, rfl⟩ := mem y hy
  rw [(Code.of_path (h1 e he).1 (h1 e he).2).1, (Code.of_path (h1 f hf).1 (h1 f hf).2).1] at hpre
  exact HTree.codeList_prefixFree hn he hf hpre

/-- A descent from the root of a tree ends at a subtree, whose paths continue it (R160). -/
theorem NodePath.subTree {node : Arena} {N : List Node} (hh : ArenaHolds node N) {root : Nat} {t : HTree}
    (ht : SubTree N root t) {p : Bits} {i : Nat} (h : NodePath node root p i) :
    ∃ u, SubTree N i u ∧ ∀ e ∈ u.paths, (e.1, p ++ e.2) ∈ t.paths := by
  have step {p : Bits} {i : Fin 511} (ih : ∃ u, SubTree N i.val u ∧ ∀ e ∈ u.paths, (e.1, p ++ e.2) ∈ t.paths)
      (hl : (node.get i).leaf = false) : ∃ l r, SubTree N (node.get i).left.toNat l ∧
        SubTree N (node.get i).right.toNat r ∧ ∀ e ∈ (HTree.node l r).paths, (e.1, p ++ e.2) ∈ t.paths := by
    obtain ⟨u, hu, hp⟩ := ih
    cases hu with
    | leaf _ n h1 h2 => rw [hh i n h1, h2] at hl; cases hl
    | node _ n l r h1 h2 h3 h4 => rw [hh i n h1]; exact ⟨l, r, h3, h4, hp⟩
  induction h with
  | root => exact ⟨t, ht, fun e he => by simpa using he⟩
  | left p i _ hl ih =>
    obtain ⟨l, r, h1, -, h3⟩ := step ih hl
    refine ⟨l, h1, fun e he => ?_⟩
    have := h3 (e.1, false :: e.2) (by simp [HTree.paths]; exact he)
    simpa using this
  | right p i _ hl ih =>
    obtain ⟨l, r, -, h2, h3⟩ := step ih hl
    refine ⟨r, h2, fun e he => ?_⟩
    have := h3 (e.1, true :: e.2) (by simp [HTree.paths]; exact he)
    simpa using this

/-! ### The code table as the spec describes it -/

/-- The code of a leaf: its path, and "0" for a root that is a leaf (R160, R162). -/
theorem HTree.codeList_of_path {t : HTree} {x : Byte} {p : Bits} (h : (x, p) ∈ t.paths) :
    (x, if p = [] then [false] else p) ∈ t.codeList := by
  cases t with
  | leaf s => simp [HTree.paths] at h; obtain ⟨rfl, rfl⟩ := h; simp [HTree.codeList]
  | node l r =>
    have : p ≠ [] := by
      simp only [HTree.paths, List.mem_append, List.mem_map] at h
      rcases h with ⟨e, -, h⟩ | ⟨e, -, h⟩ <;> (cases h; simp)
    rw [if_neg this]; exact h

/-- No bit of CODE_VAL at or above CODE_LEN is set (R38). -/
theorem genCodes_rightAligned {F : Freq} {N : List Node} {node : Arena} (hb : buildTree F = some N)
    (hh : ArenaHolds node N) (x : Byte) :
    ((genCodes node N.length).of x).val.toNat < 2 ^ ((genCodes node N.length).of x).len.toNat := by
  obtain ⟨T, hT, hp, hn, g1, g2⟩ := genCodes_spec hb hh
  by_cases hx : x ∈ T.syms
  · rw [← T.codeList_syms] at hx
    obtain ⟨e, he, rfl⟩ := List.mem_map.1 hx
    obtain ⟨h1, h2⟩ := g1 e he
    rw [h2]
    have hl : (BitVec.ofNat 8 e.2.length).toNat = e.2.length := by rw [BitVec.toNat_ofNat]; omega
    simp only [hl, BitVec.toNat_ofNat]
    exact lt_of_le_of_lt (Nat.mod_le _ _) (bitsValue_lt _)
  · rw [g2 x hx]; simp

/-- The codes of a state whose CODE is GenCodes of its tree (R160 to R163). -/
theorem pathCodes_of_build {t : State} {N : List Node} (hb : buildTree t.freq = some N) (hh : t.holdsTree N)
    (hc : t.code = genCodes t.node t.nodeCount.toNat) : t.PathCodes := by
  have h1 : ArenaHolds t.node N := hh.2
  rw [hh.1] at hc
  obtain ⟨T, hT, hp, hn, g1, g2⟩ := genCodes_spec hb h1
  constructor
  · intro p i hpath hleaf
    rw [hh.1] at hpath
    obtain ⟨u, hu, hue⟩ := NodePath.subTree h1 hT hpath
    cases hu with
    | node _ n l r a b _ _ => rw [h1 i n a, b] at hleaf; cases hleaf
    | leaf _ n a b =>
      rw [h1 i n a, hc]
      have hm := hue (n.sym, []) (by simp [HTree.paths])
      simp only [List.append_nil] at hm
      have hm := HTree.codeList_of_path hm
      have := Code.of_path (g1 _ hm).1 (g1 _ hm).2
      exact ⟨this.2, this.1⟩
  · intro x hx
    rw [hc]
    refine g2 x fun hm => ?_
    rw [hp.mem_iff, List.mem_map] at hm
    obtain ⟨a, ha, rfl⟩ := hm
    exact (t.freq.mem_present a).1 ha hx
  · intro x; rw [hc]; exact genCodes_rightAligned hb h1 x

theorem CodesOf.prefixFree {F : Freq} {T} (h : CodesOf F T) : T.prefixFree := by
  obtain ⟨N, node, a, b, rfl⟩ := h; exact genCodes_codes_prefixFree a b

theorem CodesOf.coded_iff {F : Freq} {T} (h : CodesOf F T) (x : Byte) : T.coded x ↔ F.get x.toFin ≠ 0 := by
  obtain ⟨N, node, a, b, rfl⟩ := h; exact genCodes_coded_iff a b x

/-- GenCodes reads only the entries of the tree (R165). -/
theorem genCodes_congr {F : Freq} {N : List Node} {node node' : Arena} (hb : buildTree F = some N)
    (h : ArenaHolds node N) (h' : ArenaHolds node' N) :
    genCodes node N.length = genCodes node' N.length := by
  obtain ⟨T, hT, hp, hn, g1, g2⟩ := genCodes_spec hb h
  obtain ⟨T', hT', hp', hn', g1', g2'⟩ := genCodes_spec hb h'
  have uniq : ∀ {i : Nat} {t t' : HTree}, SubTree N i t → SubTree N i t' → t = t' := by
    intro i t t' a
    induction a generalizing t' with
    | leaf i n h1 h2 =>
      intro b; cases b with
      | leaf _ n' h1' h2' => rw [h1] at h1'; cases h1'; rfl
      | node _ n' l r h1' h2' => rw [h1] at h1'; cases h1'; rw [h2] at h2'; cases h2'
    | node i n l r h1 h2 h3 h4 ih1 ih2 =>
      intro b; cases b with
      | leaf _ n' h1' h2' => rw [h1] at h1'; cases h1'; rw [h2] at h2'; cases h2'
      | node _ n' l' r' h1' h2' h3' h4' => rw [h1] at h1'; cases h1'; rw [ih1 h3', ih2 h4']
  have := uniq hT hT'
  subst this
  have key : ∀ x, (genCodes node N.length).of x = (genCodes node' N.length).of x := by
    intro x
    by_cases hx : x ∈ T.syms
    · rw [← T.codeList_syms] at hx
      obtain ⟨e, he, rfl⟩ := List.mem_map.1 hx
      rw [(g1 e he).2, (g1' e he).2]
    · rw [g2 x hx, g2' x hx]
  apply Vector.ext
  intro i hi
  exact key (BitVec.ofFin ⟨i, hi⟩)

/-- A table has one code table (R148, R165). -/
theorem CodesOf.unique {F : Freq} {T T'} (h : CodesOf F T) (h' : CodesOf F T') : T = T' := by
  obtain ⟨N, node, a, b, rfl⟩ := h
  obtain ⟨N', node', a', b', rfl⟩ := h'
  rw [a] at a'; cases a'
  exact genCodes_congr a b b'

theorem CodeTable.empty_prefixFree : CodeTable.empty.prefixFree := fun x y h => absurd (by rw [CodeTable.of_empty]) h

end Sys2Proof.Machine
end

