-- ==== Sys2Proof/Laws/Memory.lean ====
section
/-! SUPPORT. The laws of the buffers: every operation keeps the canonical form, reads after writes, the range of the
indices listed, and equal reads of canonical buffers mean equal buffers. -/

namespace Sys2Proof.Machine

@[simp] theorem Memory.read?_nil (b : Nat) : Memory.read? [] b = none := rfl

theorem Memory.read?_cons (c : Host.Cell) (m : Memory) (b : Nat) :
    Memory.read? (c :: m) b = if b = c.1 then some c.2 else Memory.read? m b := by
  obtain ⟨k, x⟩ := c
  by_cases h : b = k
  · simp [Memory.read?, List.lookup, h]
  · have : (b == k) = false := by simpa using h
    simp [Memory.read?, List.lookup, h, this]

/-- What a write leaves at every index. -/
theorem Memory.read?_write (m : Memory) (a b : Nat) (v : Byte) (hm : m.wf) :
    (m.write a v).read? b = if b = a then some v else m.read? b := by
  induction m with
  | nil => simp [Memory.write, Memory.read?_cons]
  | cons c m ih =>
    obtain ⟨k, x⟩ := c
    have hm' : Memory.wf m := (List.pairwise_cons.1 hm).2
    unfold Memory.write
    split
    · simp [Memory.read?_cons]
    · split
      · subst a; simp only [Memory.read?_cons]; split <;> rfl
      · simp only [Memory.read?_cons, ih hm']
        by_cases h1 : b = k
        · subst h1; simp [show ¬ b = a by omega]
        · simp [h1]

theorem Memory.mem_write {m : Memory} {a : Nat} {v : Byte} {c : Host.Cell} (h : c ∈ m.write a v) :
    c = (a, v) ∨ c ∈ m := by
  induction m with
  | nil => simpa [Memory.write] using h
  | cons d m ih =>
    obtain ⟨k, x⟩ := d
    unfold Memory.write at h
    split at h
    · simpa using h
    · split at h
      · rcases List.mem_cons.1 h with h | h
        · exact .inl h
        · exact .inr (List.mem_cons_of_mem _ h)
      · rcases List.mem_cons.1 h with h | h
        · exact .inr (h ▸ List.mem_cons_self)
        · exact (ih h).imp id (List.mem_cons_of_mem _)

/-- A write keeps the canonical form. -/
theorem Memory.write_wf {m : Memory} (a : Nat) (v : Byte) (hm : m.wf) : (m.write a v).wf := by
  induction m with
  | nil => simp [Memory.write, Memory.wf]
  | cons c m ih =>
    obtain ⟨k, x⟩ := c
    obtain ⟨h1, h2⟩ := List.pairwise_cons.1 hm
    unfold Memory.write
    split
    · refine List.pairwise_cons.2 ⟨?_, hm⟩
      intro d hd
      rcases List.mem_cons.1 hd with rfl | hd
      · assumption
      · have := h1 d hd; simp only at this ⊢; omega
    · split
      · subst a; exact List.pairwise_cons.2 ⟨h1, h2⟩
      · refine List.pairwise_cons.2 ⟨?_, ih h2⟩
        intro d hd
        rcases Memory.mem_write hd with rfl | hd
        · simp only; omega
        · exact h1 d hd

/-- Writing a byte sequence keeps the canonical form. -/
theorem Memory.writeBytes_wf {m : Memory} (bs : List Byte) (a : Nat) (hm : m.wf) : (m.writeBytes a bs).wf := by
  induction bs generalizing a with
  | nil => exact hm
  | cons b bs ih => exact Memory.write_wf _ _ (ih (a + 1))

/-- What writing a byte sequence leaves at every index. -/
theorem Memory.read?_writeBytes (m : Memory) (bs : List Byte) (a b : Nat) (hm : m.wf) :
    (m.writeBytes a bs).read? b = if a ≤ b ∧ b < a + bs.length then bs[b - a]? else m.read? b := by
  induction bs generalizing a with
  | nil => simp [Memory.writeBytes, show ¬ (a ≤ b ∧ b < a) by omega]
  | cons x bs ih =>
    rw [Memory.writeBytes, Memory.read?_write _ _ _ _ (Memory.writeBytes_wf _ _ hm), ih]
    by_cases h : b = a
    · subst h; simp
    · rw [if_neg h]
      by_cases h2 : a + 1 ≤ b ∧ b < a + 1 + bs.length
      · have e : b - a = (b - (a + 1)) + 1 := by omega
        have h3 : a ≤ b ∧ b < a + (x :: bs).length := by simp only [List.length_cons]; omega
        rw [if_pos h2, if_pos h3, e, List.getElem?_cons_succ]
      · have h3 : ¬ (a ≤ b ∧ b < a + (x :: bs).length) := by simp only [List.length_cons]; omega
        rw [if_neg h2, if_neg h3]

theorem Memory.mem_writeBytes {m : Memory} {bs : List Byte} {a : Nat} {c : Host.Cell}
    (h : c ∈ m.writeBytes a bs) : (a ≤ c.1 ∧ c.1 < a + bs.length) ∨ c ∈ m := by
  induction bs generalizing a with
  | nil => exact .inr h
  | cons b bs ih =>
    rcases Memory.mem_write h with rfl | h
    · left; simp
    · rcases ih h with h | h
      · left; simp only [List.length_cons]; omega
      · exact .inr h

/-- Reading finds exactly the listed bytes. -/
theorem Memory.read?_eq_some_iff {m : Memory} (hm : m.wf) (a : Nat) (v : Byte) :
    m.read? a = some v ↔ (a, v) ∈ m := by
  induction m with
  | nil => simp
  | cons c m ih =>
    obtain ⟨k, x⟩ := c
    obtain ⟨h1, h2⟩ := List.pairwise_cons.1 hm
    rw [Memory.read?_cons]
    by_cases h : a = k
    · subst h
      have : (a, v) ∉ m := fun hh => by have := h1 _ hh; simp at this
      simp [this, eq_comm]
    · simp [h, ih h2]

/-- Canonical buffers with equal reads are equal data. -/
theorem Memory.ext_read {m m' : Memory} (hm : m.wf) (hm' : m'.wf) (h : ∀ a, m.read? a = m'.read? a) : m = m' := by
  induction m generalizing m' with
  | nil =>
    cases m' with
    | nil => rfl
    | cons c m' =>
      have := h c.1
      simp [Memory.read?_cons] at this
  | cons c m ih =>
    obtain ⟨k, x⟩ := c
    obtain ⟨h1, h2⟩ := List.pairwise_cons.1 hm
    cases m' with
    | nil => have := h k; simp [Memory.read?_cons] at this
    | cons d m' =>
      obtain ⟨l, y⟩ := d
      obtain ⟨g1, g2⟩ := List.pairwise_cons.1 hm'
      have mem (p : Host.Cell) : p ∈ ((k, x) :: m : Memory) ↔ p ∈ ((l, y) :: m' : Memory) := by
        rw [← Memory.read?_eq_some_iff hm, ← Memory.read?_eq_some_iff hm', h]
      have hk : (k, x) = (l, y) := by
        have a1 := (mem (k, x)).1 List.mem_cons_self
        have a2 := (mem (l, y)).2 List.mem_cons_self
        rcases List.mem_cons.1 a1 with e | a1
        · exact e
        · rcases List.mem_cons.1 a2 with e | a2
          · exact e.symm
          · have := h1 _ a2; have := g1 _ a1; simp only at *; omega
      obtain ⟨rfl, rfl⟩ := Prod.mk.inj hk
      congr 1
      refine ih h2 g2 fun a => ?_
      have ha := h a
      rw [Memory.read?_cons, Memory.read?_cons] at ha
      by_cases e : a = k
      · subst e
        have n1 : Memory.read? m a = none := by
          by_contra hne
          obtain ⟨v, hv⟩ := Option.ne_none_iff_exists'.1 hne
          have := h1 _ ((Memory.read?_eq_some_iff h2 a v).1 hv); simp at this
        have n2 : Memory.read? m' a = none := by
          by_contra hne
          obtain ⟨v, hv⟩ := Option.ne_none_iff_exists'.1 hne
          have := g1 _ ((Memory.read?_eq_some_iff g2 a v).1 hv); simp at this
        rw [n1, n2]
      · simpa [e] using ha

end Sys2Proof.Machine
end

