-- ==== Sys2Proof/Laws/Ops.lean ====
section
/-! SUPPORT. One lemma per shared operation that says everything the operation can do, in the terms of Safety.lean. -/

namespace Sys2Proof.Machine

/-! ### Relations between states -/

theorem SameInputs.refl (s : State) : SameInputs s s := ⟨rfl, rfl, rfl, rfl, rfl, fun _ => rfl, rfl, rfl, rfl, rfl⟩

theorem SameInputs.trans {s t u : State} (h : SameInputs s t) (g : SameInputs t u) : SameInputs s u :=
  ⟨g.cfg.trans h.cfg, g.irqEn.trans h.irqEn, g.lastCmd.trans h.lastCmd, g.pending.trans h.pending,
    g.inLen.trans h.inLen, fun a => (g.inBuf a).trans (h.inBuf a), g.latencies.trans h.latencies,
    g.host.trans h.host, g.hostSlots.trans h.hostSlots, g.resp.trans h.resp⟩

theorem SameOutput.refl (s : State) : SameOutput s s := ⟨rfl, fun _ => rfl⟩

theorem SameTables.refl (s : State) : SameTables s s := ⟨rfl, rfl, rfl, rfl, rfl, rfl⟩

theorem SameInputs.input {s t : State} (h : SameInputs s t) : t.input = s.input := by
  unfold State.input
  rw [h.inLen]
  exact List.map_congr_left fun a _ => h.inBuf a

/-! ### Reads of the buffers -/

theorem inByte_congr {s t : State} (h1 : t.inBuf = s.inBuf) (h2 : t.inDraw = s.inDraw) (a : Nat) :
    t.inByte a = s.inByte a := by rw [State.inByte, State.inByte, h1, h2]

theorem outByte_congr {s t : State} (h1 : t.outBuf = s.outBuf) (h2 : t.outDraw = s.outDraw) (a : Nat) :
    t.outByte a = s.outByte a := by rw [State.outByte, State.outByte, h1, h2]

/-! ### Completion -/

/-- Everything a completion report does. -/
theorem report_spec (s : State) (e : BitVec 4) :
    Completed s (s.report e) e ∧ SameInputs s (s.report e) ∧ SameOutput s (s.report e) ∧ SameTables s (s.report e) :=
  ⟨⟨rfl, rfl, rfl, rfl, rfl⟩, ⟨rfl, rfl, rfl, rfl, rfl, fun _ => rfl, rfl, rfl, rfl, rfl⟩, ⟨rfl, fun _ => rfl⟩,
    ⟨rfl, rfl, rfl, rfl, rfl, rfl⟩⟩

/-- Everything taking an exception does. -/
theorem raise_spec (s : State) (i : Instr) (e : ErrorCode) :
    Completed s (s.raise i e) e.num ∧ SameInputs s (s.raise i e) ∧ SameTables s (s.raise i e) ∧
      (isOutput i = false → SameOutput s (s.raise i e)) ∧ (isOutput i = true → OutputLost s (s.raise i e)) := by
  unfold State.raise
  cases h : isOutput i
  · rw [if_neg (by decide)]
    exact ⟨⟨rfl, rfl, rfl, rfl, rfl⟩, ⟨rfl, rfl, rfl, rfl, rfl, fun _ => rfl, rfl, rfl, rfl, rfl⟩,
      ⟨rfl, rfl, rfl, rfl, rfl, rfl⟩, fun _ => ⟨rfl, fun _ => rfl⟩, fun h => absurd h (by decide)⟩
  · rw [if_pos rfl]
    exact ⟨⟨rfl, rfl, rfl, rfl, rfl⟩, ⟨rfl, rfl, rfl, rfl, rfl, fun _ => rfl, rfl, rfl, rfl, rfl⟩,
      ⟨rfl, rfl, rfl, rfl, rfl, rfl⟩, fun h => absurd h (by decide), fun _ => ⟨rfl, fun _ => rfl, Nat.lt_succ_self _⟩⟩

theorem ErrorCode.num_le (e : ErrorCode) : e.num.toNat ≤ 9 := by cases e <;> decide

theorem ErrorCode.num_ne_zero (e : ErrorCode) : e.num ≠ 0 := by cases e <;> decide

/-- Everything committing a result does: the bytes of the result from index 0 on, nothing else of OUT_BUF. -/
theorem putOutput_spec (s : State) (R : List Byte) (hw : s.outBuf.wf) (hR : R.length < 2 ^ 32) :
    OutputIs s (s.putOutput R) R ∧ SameInputs s (s.putOutput R) ∧ SameTables s (s.putOutput R) := by
  have hlen : (s.putOutput R).outLen.toNat = R.length := by simp [BitVec.toNat_ofNat]; omega
  have hbyte (a : Nat) : (s.putOutput R).outByte a = if h : a < R.length then R[a] else s.outByte a := by
    unfold State.outByte
    simp only [putOutput_outBuf, putOutput_outDraw, Memory.read?_writeBytes _ _ _ _ hw]
    by_cases h : a < R.length <;> simp [h]
  refine ⟨⟨hlen, ?_, fun a ha => ?_⟩,
    ⟨rfl, rfl, rfl, rfl, rfl, fun _ => rfl, rfl, rfl, rfl, rfl⟩, ⟨rfl, rfl, rfl, rfl, rfl, rfl⟩⟩
  · unfold State.output
    rw [hlen]
    apply List.ext_getElem (by simp)
    intro i h1 h2
    simp only [List.getElem_map, List.getElem_range, hbyte]
    rw [dif_pos h2]
  · rw [hbyte, dif_neg (by omega)]

/-- Everything the end of an output command does (R254, R255, R275). -/
theorem finishOutput_spec (s : State) (i : Instr) (R : List Byte) (hi : isOutput i = true) (hw : s.outBuf.wf)
    (hcap : s.cfg.outCap < 2 ^ 32) :
    SameInputs s (s.finishOutput i R) ∧ SameTables s (s.finishOutput i R) ∧
    (R.length ≤ s.cfg.outCap → Completed s (s.finishOutput i R) 0 ∧ OutputIs s (s.finishOutput i R) R) ∧
    (s.cfg.outCap < R.length → Completed s (s.finishOutput i R) 0x5 ∧ OutputLost s (s.finishOutput i R)) := by
  unfold State.finishOutput
  split
  · rename_i h
    obtain ⟨h1, h2, h3, -, h5⟩ := raise_spec s i .outputOverflow
    exact ⟨h2, h3, fun h' => by omega, fun _ => ⟨h1, h5 hi⟩⟩
  · rename_i h
    obtain ⟨h1, h2, h3⟩ := putOutput_spec s R hw (by omega)
    exact ⟨⟨rfl, rfl, rfl, rfl, rfl, fun _ => rfl, rfl, rfl, rfl, rfl⟩,
      ⟨rfl, rfl, rfl, rfl, rfl, rfl⟩, fun _ => ⟨⟨rfl, rfl, rfl, rfl, rfl⟩, ⟨h1.outLen, h1.result, h1.above⟩⟩,
      fun h' => by omega⟩

theorem State.input_length (s : State) : s.input.length = s.inLen.toNat := by simp [State.input]

/-- An output command that raises (R255). -/
theorem raise_failsOutput (s : State) (i : Instr) (e : ErrorCode) (hi : isOutput i = true) :
    FailsOutput s (s.raise i e) e.num := by
  obtain ⟨a, b, c, -, d⟩ := raise_spec s i e
  exact ⟨a, b, c, d hi⟩

/-- An output command that succeeds (R254). -/
theorem putOutput_delivers (s : State) (R : List Byte) (hw : s.outBuf.wf) (hR : R.length < 2 ^ 32) :
    Delivers s (s.putOutput R).succeed R := by
  obtain ⟨h1, h2, h3⟩ := putOutput_spec s R hw hR
  exact ⟨⟨rfl, rfl, rfl, rfl, rfl⟩, ⟨rfl, rfl, rfl, rfl, rfl, fun _ => rfl, rfl, rfl, rfl, rfl⟩,
      ⟨rfl, rfl, rfl, rfl, rfl, rfl⟩, ⟨h1.outLen, h1.result, h1.above⟩⟩

/-- Writing an arena writes its entries and keeps those above (R147). -/
theorem putTree_holdsTree (s : State) (N : List Node) (h : N.length ≤ 511) : (s.putTree N).holdsTree N ∧
    ∀ i : Fin 511, N.length ≤ i.val → (s.putTree N).node.get i = s.node.get i := by
  refine ⟨⟨by simp [BitVec.toNat_ofNat]; omega, fun i n hi => ?_⟩, fun i hi => ?_⟩
  · simp [Vector.get_eq_getElem, hi]
  · simp [Vector.get_eq_getElem, List.getElem?_eq_none hi]

end Sys2Proof.Machine
end

