-- ==== Sys2Proof/Laws/Payload.lean ====
section
/-! SUPPORT. The laws of the Bit Packer / Unpacker: greedy matching parses a stream into codes, uniquely for a
prefix-free table. -/

namespace Sys2Proof.Machine

/-! ### The inverse table -/

theorem mem_inverseTable (T : CodeTable) (c : Bits) (x : Byte) :
    (c, x) ∈ inverseTable T ↔ T.coded x ∧ (T.of x).bits = c := by
  unfold inverseTable CodeTable.coded CodeTable.of
  rw [List.mem_filterMap]
  constructor
  · rintro ⟨s, -, hs⟩
    split at hs
    · cases hs
    · rename_i h
      obtain ⟨rfl, rfl⟩ := Prod.mk.inj (Option.some.inj hs)
      exact ⟨by simpa using h, rfl⟩
  · rintro ⟨h1, rfl⟩
    refine ⟨x.toFin, List.mem_finRange _, ?_⟩
    rw [if_neg (by simpa using h1)]

theorem mem_of_lookup {l : List (Bits × Byte)} {c : Bits} {x : Byte} (h : l.lookup c = some x) : (c, x) ∈ l := by
  induction l with
  | nil => cases h
  | cons e l ih =>
    obtain ⟨d, y⟩ := e
    by_cases hc : c = d
    · subst hc
      simp [List.lookup] at h; subst h; exact List.mem_cons_self
    · have : (c == d) = false := by simpa using hc
      simp only [List.lookup, this] at h
      exact List.mem_cons_of_mem _ (ih h)

theorem lookup_ne_none {l : List (Bits × Byte)} {c : Bits} {x : Byte} (h : (c, x) ∈ l) : l.lookup c ≠ none := by
  induction l with
  | nil => cases h
  | cons e l ih =>
    obtain ⟨d, y⟩ := e
    by_cases hc : c = d
    · subst hc; simp [List.lookup]
    · have hb : (c == d) = false := by simpa using hc
      simp only [List.lookup, hb]
      refine ih ((List.mem_cons.1 h).resolve_left fun e => hc ?_)
      exact (Prod.mk.inj e).1

/-- What a match of the candidate means (R166). -/
theorem lookup_sound {T : CodeTable} {c : Bits} {x : Byte} (h : (inverseTable T).lookup c = some x) :
    T.coded x ∧ (T.of x).bits = c :=
  (mem_inverseTable T c x).1 (mem_of_lookup h)

/-- In a prefix-free table the code of a symbol matches that symbol (R166). -/
theorem lookup_code {T : CodeTable} (hT : T.prefixFree) {x : Byte} (hx : T.coded x) :
    (inverseTable T).lookup (T.of x).bits = some x := by
  obtain ⟨y, hy⟩ := Option.ne_none_iff_exists'.1 (lookup_ne_none ((mem_inverseTable T _ x).2 ⟨hx, rfl⟩))
  obtain ⟨h1, h2⟩ := lookup_sound hy
  rw [hy, hT y x h1 hx (by rw [h2])]

theorem bits_ne_nil {T : CodeTable} {x : Byte} (hx : T.coded x) : (T.of x).bits ≠ [] := fun h => by
  have := congrArg List.length h
  rw [Code.bits_length, List.length_nil] at this
  exact hx (BitVec.eq_of_toNat_eq this)

/-! ### Greedy matching -/

/-- Greedy matching reads the code of a symbol, from any candidate that is a proper beginning of it. -/
theorem greedy_code {T : CodeTable} (hT : T.prefixFree) {x : Byte} (hx : T.coded x) (r cand D : Bits) (hr : r ≠ [])
    (hc : cand ++ r = (T.of x).bits) :
    greedy (inverseTable T) cand (r ++ D) =
      (x :: (greedy (inverseTable T) [] D).1, (greedy (inverseTable T) [] D).2) := by
  induction r generalizing cand with
  | nil => exact absurd rfl hr
  | cons b r ih =>
    rw [List.cons_append, greedy]
    by_cases h : r = []
    · subst h
      rw [hc, lookup_code hT hx]; rfl
    · have hnone : (inverseTable T).lookup (cand ++ [b]) = none := by
        by_contra hne
        obtain ⟨y, hy⟩ := Option.ne_none_iff_exists'.1 hne
        obtain ⟨h1, h2⟩ := lookup_sound hy
        have hp : (T.of y).bits <+: (T.of x).bits := by rw [h2, ← hc]; exact ⟨r, by simp⟩
        obtain rfl := hT y x h1 hx hp
        have := congrArg List.length (h2.trans (by rfl : cand ++ [b] = cand ++ [b]))
        rw [← hc] at this
        simp at this
        exact h this
      rw [hnone]
      exact ih (cand ++ [b]) h (by rw [← hc]; simp)

/-- Greedy matching of the codes of X and then D emits X and goes on with D (R192). -/
theorem greedy_encode {T : CodeTable} (hT : T.prefixFree) (X : List Byte) (hX : ∀ x ∈ X, T.coded x) (D : Bits) :
    greedy (inverseTable T) [] (encodeSymbols X T ++ D) =
      (X ++ (greedy (inverseTable T) [] D).1, (greedy (inverseTable T) [] D).2) := by
  induction X with
  | nil => rfl
  | cons x X ih =>
    have hx := hX x List.mem_cons_self
    have e : encodeSymbols (x :: X) T ++ D = (T.of x).bits ++ (encodeSymbols X T ++ D) := by
      simp [encodeSymbols]
    rw [e, greedy_code hT hx _ [] _ (bits_ne_nil hx) rfl, ih fun y hy => hX y (List.mem_cons_of_mem _ hy)]
    rfl

/-- Whatever greedy matching emits and leaves, the bits are the codes of the symbols emitted and then the candidate
left: nothing is dropped. -/
theorem greedy_concat (T : CodeTable) (D cand : Bits) :
    cand ++ D = encodeSymbols (greedy (inverseTable T) cand D).1 T ++ (greedy (inverseTable T) cand D).2 ∧
      ∀ x ∈ (greedy (inverseTable T) cand D).1, T.coded x := by
  induction D generalizing cand with
  | nil => simp [greedy, encodeSymbols]
  | cons b D ih =>
    rw [greedy]
    split
    · rename_i x hx
      obtain ⟨h1, h2⟩ := lookup_sound hx
      obtain ⟨i1, i2⟩ := ih []
      constructor
      · have : cand ++ b :: D = (cand ++ [b]) ++ D := by simp
        rw [this, ← h2]
        simp only [encodeSymbols, List.flatMap_cons, List.append_assoc] at i1 ⊢
        rw [← i1]; rfl
      · intro y hy
        rcases List.mem_cons.1 hy with rfl | hy
        · exact h1
        · exact i2 y hy
    · have := ih (cand ++ [b])
      simpa using this

theorem inverseTable_empty : inverseTable CodeTable.empty = [] := by
  unfold inverseTable
  rw [List.filterMap_eq_nil_iff]
  intro s _
  simp [CodeTable.empty, Vector.get_eq_getElem]

/-- With an empty table no candidate matches (R192). -/
theorem greedy_nil (cand D : Bits) : greedy [] cand D = ([], cand ++ D) := by
  induction D generalizing cand with
  | nil => simp [greedy]
  | cons b D ih => rw [greedy]; simp [ih]

/-! ### Unpack -/

/-- The end-of-stream checks pass exactly for an empty candidate, the expected count and a result that fits (R193). -/
theorem checkStream_ok_iff (r : List Byte × Bits) (n cap : Nat) (X : List Byte) :
    checkStream r n cap = .ok X ↔ r = (X, []) ∧ X.length = n ∧ X.length ≤ cap := by
  obtain ⟨out, cand⟩ := r
  unfold checkStream
  simp only [ne_eq]
  split
  · rename_i h
    simp [h]
  · rename_i h
    simp only [not_not] at h
    split
    · rename_i h2
      constructor
      · intro h; cases h
      · rintro ⟨h3, h4, -⟩; cases h3; exact absurd h4 h2
    · rename_i h2
      split
      · rename_i h3
        constructor
        · intro h; cases h
        · rintro ⟨h4, -, h5⟩; cases h4; omega
      · rename_i h3
        constructor
        · intro h4; cases h4; exact ⟨by rw [h], by omega, by omega⟩
        · rintro ⟨h4, -, -⟩; cases h4; rfl

theorem padding_zero_iff (B : Bits) (p : Nat) (hp : p ≤ B.length) :
    (B.drop (B.length - p)).any id = false ↔ B = B.take (B.length - p) ++ List.replicate p false := by
  constructor
  · intro h
    conv_lhs => rw [← List.take_append_drop (B.length - p) B]
    congr 1
    rw [List.eq_replicate_iff]
    refine ⟨by rw [List.length_drop]; omega, fun b hb => ?_⟩
    have := List.any_eq_false.1 h b hb
    simpa using this
  · intro h
    rw [h]
    rw [show (B.take (B.length - p) ++ List.replicate p false).length - p = (B.take (B.length - p)).length by
      simp]
    rw [List.drop_left]
    simp [List.any_replicate]

/-- What unpack answers on a payload whose padding byte, padding length and padding bits pass (R190). -/
theorem unpack_of_payload {P : List Byte} {D : Bits} (hP : PayloadOf P D) (T : CodeTable) (n cap : Nat) :
    unpack P T n cap = checkStream (greedy (inverseTable T) [] D) n cap := by
  obtain ⟨p, Y, rfl, hp, hY⟩ := hP
  have hl := congrArg List.length hY
  rw [List.length_append, List.length_replicate] at hl
  unfold unpack Config.padMax
  simp only
  rw [if_neg (by omega), if_neg (by omega), hY]
  have e : (D ++ List.replicate p.toNat false).length - p.toNat = D.length := by simp
  rw [e, List.drop_left, List.take_left]
  simp [List.any_replicate]

/-- Unpack succeeds exactly on the packed payloads of the expected number of coded symbols that fit (R190). -/
theorem unpack_ok_iff {T : CodeTable} (hT : T.prefixFree) (P : List Byte) (n cap : Nat) (X : List Byte) :
    unpack P T n cap = .ok X ↔
      PayloadOf P (encodeSymbols X T) ∧ (∀ x ∈ X, T.coded x) ∧ X.length = n ∧ X.length ≤ cap := by
  constructor
  · intro h
    cases P with
    | nil => cases h
    | cons p Y =>
      unfold unpack Config.padMax at h
      simp only at h
      split at h
      · cases h
      · rename_i h1
        split at h
        · cases h
        · rename_i h2
          split at h
          · cases h
          · rename_i h3
            obtain ⟨g1, g2, g3⟩ := (checkStream_ok_iff _ _ _ _).1 h
            have hz := (padding_zero_iff (bytesBits Y) p.toNat (by omega)).1 (by simpa using h3)
            have hc := greedy_concat T ((bytesBits Y).take ((bytesBits Y).length - p.toNat)) []
            rw [g1] at hc
            simp only [List.nil_append, List.append_nil] at hc
            refine ⟨⟨p, Y, rfl, by omega, ?_⟩, hc.2, g2, g3⟩
            rw [← hc.1]; exact hz
  · rintro ⟨h1, h2, h3, h4⟩
    rw [unpack_of_payload h1, checkStream_ok_iff]
    have := greedy_encode hT X h2 []
    rw [List.append_nil] at this
    rw [this]
    exact ⟨by simp [greedy], h3, h4⟩

/-- PackBits succeeds exactly when every symbol has a code (R180). -/
theorem packBits_ok {X : List Byte} {T : CodeTable} (h : ∀ x ∈ X, T.coded x) :
    packBits X T = .ok (framePayload (encodeSymbols X T)) := by
  unfold packBits
  rw [if_neg]
  rw [List.any_eq_true]
  rintro ⟨x, hx, hz⟩
  exact h x hx (by simpa using hz)

theorem packBits_error {X : List Byte} {T : CodeTable} (h : ∃ x ∈ X, ¬ T.coded x) :
    packBits X T = .error .symbolNotCoded := by
  obtain ⟨x, hx, hz⟩ := h
  unfold packBits
  rw [if_pos]
  rw [List.any_eq_true]
  exact ⟨x, hx, by simpa [CodeTable.coded] using hz⟩

/-- A stream cut short parses into fewer symbols or leaves a candidate (R246 b). -/
theorem greedy_cut {T : CodeTable} (hT : T.prefixFree) {X : List Byte} (hX : ∀ x ∈ X, T.coded x) {D E : Bits}
    (hD : D ++ E = encodeSymbols X T) (hE : E ≠ []) :
    (greedy (inverseTable T) [] D).2 ≠ [] ∨ (greedy (inverseTable T) [] D).1.length < X.length := by
  by_cases h : (greedy (inverseTable T) [] D).2 = []
  · right
    obtain ⟨h1, h2⟩ := greedy_concat T D []
    rw [h, List.append_nil, List.nil_append] at h1
    have a := greedy_encode hT _ h2 E
    have b := greedy_encode hT X hX []
    rw [List.append_nil, ← hD] at b
    rw [← h1, b] at a
    obtain ⟨a1, a2⟩ := Prod.mk.inj a
    rw [show (greedy (inverseTable T) [] []).1 = [] from rfl, List.append_nil] at a1
    have hne : (greedy (inverseTable T) [] E).1 ≠ [] := by
      intro he
      have hc := (greedy_concat T E []).1
      rw [he, ← a2] at hc
      exact hE (by simpa [encodeSymbols, greedy] using hc)
    have := List.length_pos_iff.2 hne
    have hl := congrArg List.length a1
    rw [List.length_append] at hl
    omega
  · exact .inl h

/-! ### Unpack, row by row -/

/-- What the rows of R190 say is what unpack answers, for a prefix-free code set. -/
theorem UnpackGives.unpack_eq {T : CodeTable} (hT : T.prefixFree) {P : List Byte} {n cap : Nat} {r}
    (h : UnpackGives P T n cap r) : unpack P T n cap = r := by
  have enc (X : List Byte) (hX : ∀ x ∈ X, T.coded x) : greedy (inverseTable T) [] (encodeSymbols X T) = (X, []) := by
    have := greedy_encode hT X hX []
    rw [List.append_nil] at this
    rw [this]; simp [greedy]
  cases h with
  | noPadding h => subst h; rfl
  | badPadding p Y h h7 => subst h; unfold unpack Config.padMax; simp only; rw [if_pos h7]
  | longPadding p Y h h7 hl =>
    subst h; unfold unpack Config.padMax; simp only; rw [if_neg (by omega), if_pos (by rw [bytesBits_length]; omega)]
  | dirtyPadding p Y h h7 hl hd =>
    subst h; unfold unpack Config.padMax; simp only
    rw [if_neg (by omega), if_neg (by rw [bytesBits_length]; omega), if_pos]
    rw [List.any_eq_true]
    exact ⟨true, by rw [bytesBits_length]; exact hd, rfl⟩
  | leftover D hP hD =>
    rw [unpack_of_payload hP]
    unfold checkStream
    rw [if_pos]
    intro h
    obtain ⟨h1, h2⟩ := greedy_concat T D []
    rw [h, List.append_nil, List.nil_append] at h1
    exact hD _ h2 h1
  | badCount X hP hX hn =>
    rw [unpack_of_payload hP, enc X hX]
    unfold checkStream; simp [hn]
  | overflow X hP hX hn hc =>
    rw [unpack_of_payload hP, enc X hX]
    unfold checkStream; simp [hn, hc]
  | ok X hP hX hn hc =>
    rw [unpack_of_payload hP, enc X hX]
    unfold checkStream; simp [hn]; omega

/-- Some row of R190 applies to every payload. -/
theorem UnpackGives.exists_outcome {T : CodeTable} (P : List Byte) (n cap : Nat) : ∃ r, UnpackGives P T n cap r := by
  cases P with
  | nil => exact ⟨_, .noPadding rfl⟩
  | cons p Y =>
    by_cases h7 : 7 < p.toNat
    · exact ⟨_, .badPadding p Y rfl h7⟩
    · by_cases hl : 8 * Y.length < p.toNat
      · exact ⟨_, .longPadding p Y rfl (by omega) hl⟩
      · by_cases hd : true ∈ (bytesBits Y).drop (8 * Y.length - p.toNat)
        · exact ⟨_, .dirtyPadding p Y rfl (by omega) (by omega) hd⟩
        · have hz := (padding_zero_iff (bytesBits Y) p.toNat (by rw [bytesBits_length]; omega)).1 (by
            rw [bytesBits_length, List.any_eq_false]
            intro b hb hb'
            cases b
            · cases hb'
            · exact hd hb)
          have hP : PayloadOf (p :: Y) ((bytesBits Y).take ((bytesBits Y).length - p.toNat)) := ⟨p, Y, rfl,
              by omega, hz⟩
          generalize (bytesBits Y).take ((bytesBits Y).length - p.toNat) = D at hP
          by_cases hX : ∃ X, (∀ x ∈ X, T.coded x) ∧ D = encodeSymbols X T
          · obtain ⟨X, hX, rfl⟩ := hX
            by_cases hn : X.length = n
            · by_cases hc : cap < n
              · exact ⟨_, .overflow X hP hX hn hc⟩
              · exact ⟨_, .ok X hP hX hn (by omega)⟩
            · exact ⟨_, .badCount X hP hX hn⟩
          · push Not at hX
            exact ⟨_, .leftover D hP hX⟩

theorem unpack_ok_length {P : List Byte} {T n cap X} (h : unpack P T n cap = .ok X) : X.length ≤ cap := by
  cases P with
  | nil => cases h
  | cons p Y =>
    unfold unpack at h
    simp only at h
    split at h
    · cases h
    · split at h
      · cases h
      · split at h
        · cases h
        · exact ((checkStream_ok_iff _ _ _ _).1 h).2.2

theorem packBits_error_kind {X T e} (h : packBits X T = .error e) : e = .symbolNotCoded := by
  unfold packBits at h; split at h <;> cases h; rfl

theorem checkStream_error_kind {r n c e} (h : checkStream r n c = .error e) : e = .corruptPayload ∨
    e = .outputOverflow := by
  unfold checkStream at h
  split at h
  · cases h; exact .inl rfl
  · split at h
    · cases h; exact .inl rfl
    · split at h <;> cases h
      exact .inr rfl

theorem unpack_error_kind {P T n c e} (h : unpack P T n c = .error e) : e = .corruptPayload ∨ e = .outputOverflow ∨
    e = .unsupportedPadding := by
  cases P with
  | nil => cases h; exact .inl rfl
  | cons p Y =>
    unfold unpack at h
    simp only at h
    split at h
    · cases h; simp
    · split at h
      · cases h; simp
      · split at h
        · cases h; simp
        · rcases checkStream_error_kind h with h | h <;> simp [h]

end Sys2Proof.Machine
end

