-- ==== Sys2Proof/Laws/Codec.lean ====
section
/-! SUPPORT. Counting, table texts as lengths, the container, and what rebuilding the tree and the codes does
(40_frequency_analyzer.md, 44_container_codec.md). -/

namespace Sys2Proof.Machine

/-! ### Counting -/

/-- The counter of a symbol is its number of occurrences (R130). -/
theorem countSymbols_get (X : List Byte) (hX : X.length < 2 ^ 32) (x : Byte) :
    ((countSymbols X).get x.toFin).toNat = X.count x := by
  have h : X.count x ≤ X.length := List.count_le_length
  unfold countSymbols
  rw [Vector.get_eq_getElem]
  simp only [Vector.getElem_ofFn, BitVec.toNat_ofNat]
  have e : BitVec.ofFin (⟨x.toFin.val, x.toFin.isLt⟩ : Fin 256) = x := by cases x; rfl
  rw [show (BitVec.ofFin (⟨x.toFin.val, x.toFin.isLt⟩ : Fin (2^8))) = x from e]
  omega

theorem sum_map_add (l : List (Fin 256)) (f g : Fin 256 → Nat) :
    (l.map fun s => f s + g s).sum = (l.map f).sum + (l.map g).sum := by
  induction l with
  | nil => rfl
  | cons a l ih => simp only [List.map_cons, List.sum_cons, ih]; omega

theorem sum_map_indicator (b : Byte) (l : List (Fin 256)) (h : l.Nodup) :
    (l.map fun s : Fin 256 => if b = BitVec.ofFin s then 1 else 0).sum = if b.toFin ∈ l then 1 else 0 := by
  induction l with
  | nil => rfl
  | cons a l ih =>
    rw [List.nodup_cons] at h
    simp only [List.map_cons, List.sum_cons, ih h.2, List.mem_cons]
    have e : b = BitVec.ofFin a ↔ b.toFin = a := ⟨fun h => by rw [h], fun h => by rw [← h]⟩
    simp only [e]
    by_cases h1 : b.toFin = a
    · subst h1; simp [h.1]
    · simp [h1]

/-- The counts sum to the length (R131). -/
theorem sum_counts (X : List Byte) :
    ((List.finRange 256).map fun s : Fin 256 => X.count (BitVec.ofFin s)).sum = X.length := by
  induction X with
  | nil =>
    have : ∀ l : List (Fin 256), (l.map fun s : Fin 256 => ([] : List Byte).count (BitVec.ofFin s)).sum = 0 := by
      intro l; induction l <;> simp_all
    exact this _
  | cons b X ih =>
    have e : (fun s : Fin 256 => (b :: X).count (BitVec.ofFin s)) = fun s :
        Fin 256 => X.count (BitVec.ofFin s) + if b = BitVec.ofFin s then 1 else 0 := by
      funext s
      rw [List.count_cons]
      simp only [beq_iff_eq]
    rw [e, sum_map_add, ih, sum_map_indicator _ _ (List.nodup_finRange 256), if_pos (List.mem_finRange _),
        List.length_cons]

theorem countSymbols_total (X : List Byte) (h : X.length < 2 ^ 32) : (countSymbols X).total = X.length := by
  unfold Freq.total
  have : ((List.finRange 256).map fun x : Fin 256 => ((countSymbols X).get x).toNat) =
      (List.finRange 256).map fun s' : Fin 256 => X.count (BitVec.ofFin s') :=
    List.map_congr_left fun x _ => countSymbols_get X h (BitVec.ofFin x)
  rw [this, sum_counts]

/-! ### Table texts -/

/-- A number has one text (R102). -/
theorem NumberText.text_unique {A B : List Byte} {v : Nat} (hA : NumberText A v) (hB : NumberText B v) : A = B := by
  induction hA generalizing B with
  | zero => exact (hB.shape.2.2.2.2 rfl).symm
  | first d h1 h9 =>
    cases hB with
    | zero => omega
    | first => rfl
    | more T w e hT hw he => exfalso; omega
  | more T v d hT hv hd ih =>
    generalize hx : 10 * v + d = x at hB
    cases hB with
    | zero => omega
    | first => omega
    | more T' w e hT' hw he =>
      have e1 : v = w := by omega
      have e2 : d = e := by omega
      subst e1; subst e2; rw [ih hT']

theorem EntriesText.text_unique {A B : List Byte} {es} (hA : EntriesText A es) (hB : EntriesText B es) : A = B := by
  induction hA generalizing B with
  | last A1 B1 a b h1 h2 =>
    cases hB with
    | last A2 B2 _ _ g1 g2 => rw [NumberText.text_unique h1 g1, NumberText.text_unique h2 g2]
    | more A2 B2 R _ _ es g1 g2 g3 => cases g3
  | more A1 B1 R a b es h1 h2 h3 ih =>
    cases hB with
    | last A2 B2 _ _ g1 g2 => cases h3
    | more A2 B2 R _ _ es g1 g2 g3 => rw [NumberText.text_unique h1 g1, NumberText.text_unique h2 g2, ih g3]

/-- A list of entries has one text (R102). -/
theorem TableText.text_unique {A B : List Byte} {es} (hA : TableText A es) (hB : TableText B es) : A = B := by
  cases hA with
  | empty => cases hB with
    | empty => rfl
    | full R _ h => cases h
  | full R _ h => cases hB with
    | empty => cases h
    | full R' _ h' => rw [EntriesText.text_unique h h']

theorem NumberText.length_bound {T : List Byte} {v : Nat} (h : NumberText T v) : v = 0 ∧ T.length = 1 ∨
    10 ^ (T.length - 1) ≤ v ∧ 1 ≤ T.length := by
  induction h with
  | zero => simp
  | first d h1 h9 => right; simp; omega
  | more T v d hT hv hd ih =>
    right
    rcases ih with ⟨h, -⟩ | ⟨h, h1⟩
    · exact absurd h hv
    · rw [List.length_append, List.length_singleton]
      refine ⟨?_, by omega⟩
      obtain ⟨k, hk⟩ := Nat.exists_eq_add_of_le h1
      rw [hk] at h ⊢
      rw [show 1 + k + 1 - 1 = k + 1 by omega, Nat.pow_succ]
      rw [show 1 + k - 1 = k by omega] at h
      omega

theorem dec_length_le (x n : Nat) (h : x < 10 ^ n) (hn : 1 ≤ n) : (dec x).length ≤ n := by
  rcases NumberText.length_bound (dec_text x) with ⟨-, h1⟩ | ⟨h1, h2⟩
  · omega
  · by_contra hc
    have : 10 ^ n ≤ 10 ^ ((dec x).length - 1) := Nat.pow_le_pow_right (by omega) (by omega)
    omega

theorem intercalate_length (ls : List (List Byte)) (h : ls ≠ []) :
    ([chComma].intercalate ls).length + 1 = (ls.map fun l => l.length + 1).sum := by
  induction ls with
  | nil => exact absurd rfl h
  | cons a ls ih =>
    cases ls with
    | nil => simp [List.intercalate]
    | cons b ls =>
      rw [intercalate_cons_cons', List.length_append, List.length_cons, ih (by simp)]
      simp; omega

/-- Ser(F) denotes F (R223). -/
theorem serTable_textOf (F : Freq) : TextOf (serTable F) F := ⟨_, serTable_text F, F.entries_legal, F.entries_table⟩

/-! ### Containers -/

/-- Container assembly gives a container (R231). -/
theorem container_containerOf (T P : List Byte) (h : T.length < 2 ^ 32) : ContainerOf (container T P) T P := by
  obtain ⟨x, hx⟩ : ∃ x : Word, BitVec.ofNat 32 T.length = x := ⟨_, rfl⟩
  refine ⟨x.extractLsb' 24 8, x.extractLsb' 16 8, x.extractLsb' 8 8, x.extractLsb' 0 8, by rw [container, hx]; rfl, ?_⟩
  have := rdBE_be32 x
  simp only [rdBE, be32, List.foldl] at this
  have hx := congrArg BitVec.toNat hx
  rw [BitVec.toNat_ofNat] at hx
  omega

theorem container_length (T P : List Byte) :
    (container T P).length = 4 + T.length + P.length := by simp [container, be32]; omega

theorem rdBE_four (b0 b1 b2 b3 : Byte) :
    rdBE [b0, b1, b2, b3] = b0.toNat * 2 ^ 24 + b1.toNat * 2 ^ 16 + b2.toNat * 2 ^ 8 + b3.toNat := by
  simp only [rdBE, List.foldl]; omega

/-- Taking a container apart (R240 step 1). -/
theorem splitContainer_of_containerOf {C T P : List Byte} (h : ContainerOf C T P) :
    splitContainer C = (parseTable T).map fun F => (F, P) := by
  obtain ⟨b0, b1, b2, b3, rfl, hl⟩ := h
  rw [← rdBE_four] at hl
  unfold splitContainer
  have e1 : (b0 :: b1 :: b2 :: b3 :: (T ++ P)).take 4 = [b0, b1, b2, b3] := rfl
  have e2 : (b0 :: b1 :: b2 :: b3 :: (T ++ P)).drop 4 = T ++ P := rfl
  simp only [e1, e2, ← hl]
  rw [if_neg (by simp), if_neg (by simp; omega), List.take_left]
  have e3 : (b0 :: b1 :: b2 :: b3 :: (T ++ P)).drop (4 + T.length) = P := by rw [← List.drop_drop, e2, List.drop_left]
  rw [e3]
  cases parseTable T <;> rfl

/-- Step 1 of DECODE fails on what is no container with a legal table (R241). -/
theorem splitContainer_none {C : List Byte} (h : ∀ T P F, ContainerOf C T P → ¬ TextOf T F) :
    splitContainer C = none := by
  match C with
  | b0 :: b1 :: b2 :: b3 :: D =>
    by_cases hl : rdBE [b0, b1, b2, b3] ≤ D.length
    · have hc : ContainerOf (b0 :: b1 :: b2 :: b3 :: D) (D.take (rdBE [b0, b1, b2, b3]))
          (D.drop (rdBE [b0, b1, b2, b3])) :=
        ⟨b0, b1, b2, b3, by rw [List.take_append_drop], by rw [List.length_take, ← rdBE_four]; omega⟩
      rw [splitContainer_of_containerOf hc]
      cases hp : parseTable (D.take (rdBE [b0, b1, b2, b3])) with
      | none => rfl
      | some F => exact absurd ((parseTable_eq_some_iff _ _).1 hp) (h _ _ F hc)
    · unfold splitContainer
      have e1 : (b0 :: b1 :: b2 :: b3 :: D).take 4 = [b0, b1, b2, b3] := rfl
      simp only [e1]
      rw [if_neg (by simp), if_pos (by simp; omega)]
  | [] => rfl
  | [_] => rfl
  | [_, _] => rfl
  | [_, _, _] => rfl

theorem splitContainer_some {C T P F} (h : ContainerOf C T P) (hF : TextOf T F) : splitContainer C = some (F, P) := by
  rw [splitContainer_of_containerOf h, (parseTable_eq_some_iff T F).2 hF]; rfl

/-! ### Rebuilding -/

theorem rebuild_none {s : State} (h : buildTree s.freq = none) : s.rebuild = s := by unfold State.rebuild; rw [h]

theorem rebuild_some {s : State} {N : List Node} (h : buildTree s.freq = some N) :
    s.rebuild = (s.putTree N).putCodes (genCodes (s.putTree N).node (s.putTree N).nodeCount.toNat) := by
  unfold State.rebuild; rw [h]

/-- Everything rebuilding leaves alone. -/
theorem rebuild_kept (s : State) : SameInputs s s.rebuild ∧ s.rebuild.outBuf = s.outBuf ∧
    s.rebuild.outLen = s.outLen ∧ s.rebuild.outDraw = s.outDraw
   ∧ s.rebuild.freq = s.freq ∧ s.rebuild.draws = s.draws ∧ s.rebuild.error = s.error ∧
       s.rebuild.status.busy = s.status.busy ∧ s.rebuild.status.done = s.status.done ∧
       s.rebuild.status.err = s.status.err ∧ s.rebuild.status.overrun = s.status.overrun ∧
       s.rebuild.inBuf = s.inBuf ∧ s.rebuild.inDraw = s.inDraw := by
  cases h : buildTree s.freq with
  | none => rw [rebuild_none h]; exact ⟨SameInputs.refl _, rfl, rfl, rfl, rfl, rfl, rfl, rfl, rfl, rfl, rfl, rfl, rfl⟩
  | some N => rw [rebuild_some h]; exact ⟨⟨rfl, rfl, rfl, rfl, rfl, fun _ => rfl, rfl, rfl, rfl, rfl⟩, rfl, rfl, rfl,
      rfl, rfl, rfl, rfl, rfl, rfl, rfl, rfl, rfl⟩

/-- Everything rebuilding does after FREQ is loaded (R230, R240). -/
theorem rebuild_spec (s : State) (F : Freq) : Rebuilt s (s.putFreq F).rebuild F ∧
   ((∀ x, F.get x = 0) → (s.putFreq F).rebuild.decodeTable = CodeTable.empty ∧ (s.putFreq F).rebuild = s.putFreq F) ∧
   ((∃ x, F.get x ≠ 0) → CodesOf F (s.putFreq F).rebuild.code ∧
       (s.putFreq F).rebuild.decodeTable = (s.putFreq F).rebuild.code) := by
  by_cases h : ∃ x, F.get x ≠ 0
  · obtain ⟨N, hN⟩ := buildTree_some _ h
    have hl := buildTree_length hN
    rw [rebuild_some (s := s.putFreq F) hN]
    have hh := putTree_holdsTree (s.putFreq F) N hl.2.2
    refine ⟨⟨rfl, fun h' => ?_, fun _ => ⟨rfl, rfl, ?_, N, greedyArena_of_buildTree hN, hh.1, hh.2⟩⟩, fun h' => ?_,
        fun _ => ⟨⟨N, _, hN, hh.1.2, ?_⟩, rfl⟩⟩
    · obtain ⟨x, hx⟩ := h; exact absurd (h' x) hx
    · exact pathCodes_of_build (N := N) hN hh.1 rfl
    · obtain ⟨x, hx⟩ := h; exact absurd (h' x) hx
    · rw [← hh.1.1]; rfl
  · have h' : ∀ x, F.get x = 0 := by simpa using h
    rw [rebuild_none (s := s.putFreq F) (buildTree_none F h')]
    exact ⟨⟨rfl, fun _ => ⟨rfl, rfl, rfl, rfl, rfl⟩, fun h'' => absurd h'' h⟩, fun _ => ⟨rfl, rfl⟩,
        fun h'' => absurd h'' h⟩

theorem Rebuilt.congr {s t u : State} {F : Freq} (h : Rebuilt s t F) (g : SameTables t u) : Rebuilt s u F := by
  obtain ⟨a, b, c⟩ := h
  obtain ⟨g1, g2, g3, g4, g5, g6⟩ := g
  refine ⟨g1.trans a, fun h => ?_, fun h => ?_⟩
  · obtain ⟨p, q, r⟩ := b h
    exact ⟨g5.trans p, g6.trans q, g2.trans r.1, g3.trans r.2, g4.trans r.3⟩
  · obtain ⟨p, q, ⟨r1, r2, r3⟩, N, x, y, z⟩ := c h
    refine ⟨g5.trans p, g6.trans q, ⟨?_, ?_, ?_⟩, N, x, ⟨?_, ?_⟩, ?_⟩
    · rw [g2, g3, g4]; exact r1
    · rw [g1, g4]; exact r2
    · rw [g4]; exact r3
    · rw [g3]; exact y.1
    · rw [g2]; exact y.2
    · rw [g2]; exact z

end Sys2Proof.Machine
end

