-- ==== Sys2Proof/Laws/Context.lean ====
section
/-! SUPPORT. What a command does not look at: BLOCK_BASE and the flags BUSY, DONE, ERR and OVERRUN. Changing
them before a command changes nothing after it but BLOCK_BASE and OVERRUN themselves. -/

namespace Sys2Proof.Machine

/-- s with another base address and other values of the four flags. -/
def State.inContext (s : State) (b : Nat) (bu dn er ov : Bool) : State :=
  { s with
    cfg := { s.cfg with blockBase := b }
    status := { s.status with busy := bu, done := dn, err := er, overrun := ov } }

/-- t with another base address and another OVERRUN. -/
def State.leftIn (t : State) (b : Nat) (ov : Bool) : State :=
  { t with
    cfg := { t.cfg with blockBase := b }
    status := { t.status with overrun := ov } }

section

variable (s : State) (b : Nat) (bu dn er ov : Bool)

theorem inContext_fields :
    (s.inContext b bu dn er ov).lengthBad = s.lengthBad ∧ (s.inContext b bu dn er ov).input = s.input ∧
    (s.inContext b bu dn er ov).freq = s.freq ∧ (s.inContext b bu dn er ov).code = s.code ∧
    (s.inContext b bu dn er ov).status.codesValid = s.status.codesValid ∧
    (s.inContext b bu dn er ov).cfg.outCap = s.cfg.outCap ∧
    (s.inContext b bu dn er ov).decodeTable = s.decodeTable := ⟨rfl, rfl, rfl, rfl, rfl, rfl, rfl⟩

theorem inContext_raise (i : Instr) (e : ErrorCode) :
    (s.inContext b bu dn er ov).raise i e = (s.raise i e).leftIn b ov := by
  unfold State.raise; cases isOutput i <;> rfl

theorem inContext_succeed : (s.inContext b bu dn er ov).succeed = s.succeed.leftIn b ov := rfl

theorem inContext_putOutput (R : List Byte) :
    (s.inContext b bu dn er ov).putOutput R = (s.putOutput R).inContext b bu dn er ov := rfl

theorem inContext_putFreq (F : Freq) :
    (s.inContext b bu dn er ov).putFreq F = (s.putFreq F).inContext b bu dn er ov := rfl

theorem inContext_finish (i : Instr) (R : List Byte) :
    (s.inContext b bu dn er ov).finishOutput i R = (s.finishOutput i R).leftIn b ov := by
  unfold State.finishOutput
  rw [inContext_raise, inContext_putOutput, inContext_succeed]
  show (if s.cfg.outCap < R.length then _ else _) = _
  split <;> rfl

theorem inContext_rebuild : (s.inContext b bu dn er ov).rebuild = s.rebuild.inContext b bu dn er ov := by
  unfold State.rebuild
  show (match buildTree s.freq with | none => _ | some N => _) = _
  cases buildTree s.freq <;> rfl

/-- A command does not look at them. -/
theorem exec_inContext (i : Instr) {t : State} (h : exec i s = .next t) :
    exec i (s.inContext b bu dn er ov) = .next (t.leftIn b ov) := by
  obtain ⟨e1, e2, e3, e4, e5, e6, e7⟩ := inContext_fields s b bu dn er ov
  cases i <;> obtain rfl := Host.Outcome.next.inj h <;> refine congrArg Host.Outcome.next ?_
  case count =>
    rw [e1, e2, inContext_raise, inContext_putFreq, inContext_succeed]; split <;> rfl
  case buildTree =>
    rw [e3]; split
    · exact inContext_raise ..
    · rfl
  case genCodes =>
    show (if s.status.treeValid = true then _ else _) = _
    rw [inContext_raise]; split <;> rfl
  case pack =>
    rw [e1, e2, e4, e5, inContext_raise, inContext_raise]
    split
    · rfl
    · split
      · split
        · exact inContext_raise ..
        · exact inContext_finish ..
      · rfl
  case unpack =>
    rw [e1, e2, e3, e4, e5, e6, inContext_raise, inContext_raise]
    split
    · rfl
    · split
      · split
        · exact inContext_raise ..
        · rfl
      · rfl
  case serTable => exact inContext_finish ..
  case parseTable =>
    rw [e1, e2, inContext_raise]
    split
    · rfl
    · split
      · exact inContext_raise ..
      · rfl
  case encode =>
    dsimp only
    rw [e1, e2, inContext_raise, inContext_putFreq, inContext_rebuild]
    obtain ⟨_, _, f3, f4, _⟩ := inContext_fields (s.putFreq (countSymbols s.input)).rebuild b bu dn er ov
    rw [f3, f4]
    split
    · rfl
    · split
      · exact inContext_raise ..
      · exact inContext_finish ..
  case decode =>
    dsimp only
    rw [e1, e2, inContext_raise]
    split
    · rfl
    · split
      · exact inContext_raise ..
      · rename_i F P _
        rw [inContext_putFreq, inContext_rebuild]
        obtain ⟨_, _, f3, f4, _, _, f7⟩ := inContext_fields (s.putFreq F).rebuild b bu dn er ov
        rw [f7, e6]
        split
        · exact inContext_raise ..
        · rfl

end

end Sys2Proof.Machine
end

