-- ==== Sys2Proof/Laws/Invariant.lean ====
section
/-! SUPPORT. The invariant of Safety.lean: what it gives, and that each shared operation keeps it. -/

namespace Sys2Proof.Machine

/-! ### The parameters -/

theorem add_seven_le {b : Nat} (hb : b < 16777210)  : b + 7 ≤ 2 ^ 24 := by
  have : 2 ^ 24 = 16777216 := rfl
  rw [this]; omega

theorem params_mk_wf (a b c : Nat) (ha : a < 2 ^ 24) (hb : b < 16777210) : Params.wf ⟨a + 1, b + 7, c * 2 ^ 26⟩ :=
  ⟨⟨Nat.le_add_left 1 a, ha⟩, ⟨Nat.le_add_left 7 b, add_seven_le hb⟩, Nat.mul_mod_left _ _⟩

theorem config_params_eq : Config.params = ⟨Config.inCapExtra.val + 1, Config.outCapExtra.val + 7,
    Config.blockIndex * 2 ^ 26⟩ := rfl

/-- The parameters of the machine at hand are as R7 asks. -/
theorem config_params_wf : Config.params.wf := by
  rw [config_params_eq]
  exact params_mk_wf Config.inCapExtra.val Config.outCapExtra.val Config.blockIndex
    Config.inCapExtra.isLt Config.outCapExtra.isLt

/-! ### What it gives -/

theorem State.Inv.outCap_lt {s : State} (h : s.Inv) : s.cfg.outCap < 2 ^ 32 := by have := h.params.2.1.2; omega

/-- While CODES_VALID = 1, CODE is GenCodes of the tree of FREQ (R41). -/
theorem State.Inv.codes_of_valid {s : State} (hi : s.Inv) (h : s.status.codesValid = true) :
    ∃ N, buildTree s.freq = some N ∧ ArenaHolds s.node N ∧ s.code = genCodes s.node N.length := by
  obtain ⟨ht, hc⟩ := hi.validity.codes h
  obtain ⟨N, hN, hh, -⟩ := hi.validity.tree ht
  exact ⟨N, hN, hh.2, by rw [hc, hh.1]⟩

theorem State.Inv.code_prefixFree {s : State} (hi : s.Inv) (h : s.status.codesValid = true) : s.code.prefixFree := by
  obtain ⟨N, a, b, c⟩ := State.Inv.codes_of_valid hi h
  rw [c]; exact genCodes_codes_prefixFree a b

theorem State.Inv.coded_iff {s : State} (hi : s.Inv) (h : s.status.codesValid = true) (x : Byte) : s.code.coded x ↔
    s.freq.get x.toFin ≠ 0 := by
  obtain ⟨N, a, b, c⟩ := State.Inv.codes_of_valid hi h
  rw [c]; exact genCodes_coded_iff a b x

/-! ### The operations keep it -/

theorem State.Inv.report {s : State} (h : s.Inv) (e : BitVec 4) (he : e.toNat ≤ 9) : (s.report e).Inv where
  params := h.params
  buffers := ⟨h.buffers.inForm, h.buffers.outForm, h.buffers.inRange, h.buffers.outRange, h.buffers.outLen⟩
  protocol := ⟨fun h => (nomatch h), fun h => (nomatch h), fun h => (nomatch h)⟩
  errorCode := he
  validity := ⟨h.validity.tree, h.validity.codes⟩
  draws := ⟨h.draws.1, h.draws.2, h.draws.3⟩

theorem State.Inv.dropOutput {s : State} (h : s.Inv) : s.dropOutput.Inv where
  params := h.params
  buffers := ⟨h.buffers.inForm, List.Pairwise.nil, h.buffers.inRange, fun _ h => (nomatch h), Nat.zero_le _⟩
  protocol := ⟨h.protocol.latched, h.protocol.notDone, h.protocol.notErr⟩
  errorCode := h.errorCode
  validity := ⟨h.validity.tree, h.validity.codes⟩
  draws := ⟨by have := h.draws.1; show s.inDraw < s.draws + 1; omega,
      by show s.draws < s.draws + 1; omega,
      by have := h.draws.1; show s.inDraw ≠ s.draws; omega⟩

theorem State.Inv.raise {s : State} (h : s.Inv) (i e) : (s.raise i e).Inv := by
  unfold State.raise
  split
  · exact State.Inv.report (State.Inv.dropOutput h) _ e.num_le
  · exact State.Inv.report h _ e.num_le

theorem State.Inv.succeed {s : State} (h : s.Inv) : s.succeed.Inv := State.Inv.report h 0 (Nat.zero_le _)

theorem State.Inv.putOutput {s : State} (h : s.Inv) (R) (hR : R.length ≤ s.cfg.outCap) : (s.putOutput R).Inv where
  params := h.params
  buffers := ⟨h.buffers.inForm, Memory.writeBytes_wf _ _ h.buffers.outForm, h.buffers.inRange, fun c hc => by
      rcases Memory.mem_writeBytes hc with h' | h'
      · show c.1 < s.cfg.outCap
        omega
      · exact h.buffers.outRange c h', by
      have := State.Inv.outCap_lt h
      show (BitVec.ofNat 32 R.length).toNat ≤ s.cfg.outCap
      rw [BitVec.toNat_ofNat, Nat.mod_eq_of_lt (by omega)]; exact hR⟩
  protocol := ⟨h.protocol.latched, h.protocol.notDone, h.protocol.notErr⟩
  errorCode := h.errorCode
  validity := ⟨h.validity.tree, h.validity.codes⟩
  draws := ⟨h.draws.1, h.draws.2, h.draws.3⟩

theorem State.Inv.finishOutput {s : State} (h : s.Inv) (i R) : (s.finishOutput i R).Inv := by
  unfold State.finishOutput
  split
  · exact State.Inv.raise h _ _
  · exact State.Inv.succeed (State.Inv.putOutput h R (by omega))

theorem State.Inv.putFreq {s : State} (h : s.Inv) (F) : (s.putFreq F).Inv where
  params := h.params
  buffers := ⟨h.buffers.inForm, h.buffers.outForm, h.buffers.inRange, h.buffers.outRange, h.buffers.outLen⟩
  protocol := ⟨h.protocol.latched, h.protocol.notDone, h.protocol.notErr⟩
  errorCode := h.errorCode
  validity := ⟨fun h => (nomatch h), fun h => (nomatch h)⟩
  draws := ⟨h.draws.1, h.draws.2, h.draws.3⟩

theorem State.Inv.putTree {s : State} (h : s.Inv) {N} (hN : buildTree s.freq = some N) : (s.putTree N).Inv where
  params := h.params
  buffers := ⟨h.buffers.inForm, h.buffers.outForm, h.buffers.inRange, h.buffers.outRange, h.buffers.outLen⟩
  protocol := ⟨h.protocol.latched, h.protocol.notDone, h.protocol.notErr⟩
  errorCode := h.errorCode
  validity := ⟨fun _ => ⟨N, hN, (putTree_holdsTree s N (buildTree_length hN).2.2).1, (buildTree_length hN).1,
      (buildTree_length hN).2.1⟩, fun h => (nomatch h)⟩
  draws := ⟨h.draws.1, h.draws.2, h.draws.3⟩

theorem State.Inv.putCodes {s : State} (h : s.Inv) (ht : s.status.treeValid = true) :
    (s.putCodes (genCodes s.node s.nodeCount.toNat)).Inv where
  params := h.params
  buffers := ⟨h.buffers.inForm, h.buffers.outForm, h.buffers.inRange, h.buffers.outRange, h.buffers.outLen⟩
  protocol := ⟨h.protocol.latched, h.protocol.notDone, h.protocol.notErr⟩
  errorCode := h.errorCode
  validity := ⟨h.validity.tree, fun _ => ⟨ht, rfl⟩⟩
  draws := ⟨h.draws.1, h.draws.2, h.draws.3⟩

theorem State.Inv.rebuild {s : State} (h : s.Inv) : s.rebuild.Inv := by
  cases hb : buildTree s.freq with
  | none => rw [rebuild_none hb]; exact h
  | some N => rw [rebuild_some hb]; exact State.Inv.putCodes (State.Inv.putTree h hb) rfl

theorem powerOn_inv (p : Params) (d : Nat) (h : p.wf) : (State.powerOn p d).Inv where
  params := h
  buffers := ⟨List.Pairwise.nil, List.Pairwise.nil, fun _ h => (nomatch h), fun _ h => (nomatch h), Nat.zero_le _⟩
  protocol := ⟨fun h => (nomatch h), fun h => (nomatch h), fun h => (nomatch h)⟩
  errorCode := Nat.zero_le _
  validity := ⟨fun h => (nomatch h), fun h => (nomatch h)⟩
  draws := ⟨by show d < d + 4; omega,
      by show d + 1 < d + 4; omega,
      by show d ≠ d + 1; omega⟩

theorem State.Inv.hardReset {s : State} (h : s.Inv) : s.hardReset.Inv := by
  have := powerOn_inv s.cfg s.draws h.params
  exact ⟨this.params, ⟨this.buffers.1, this.buffers.2, this.buffers.3, this.buffers.4, this.buffers.5⟩,
      ⟨this.protocol.1, this.protocol.2, this.protocol.3⟩, this.errorCode, ⟨this.validity.1, this.validity.2⟩,
      ⟨this.draws.1, this.draws.2, this.draws.3⟩⟩

theorem State.Inv.softReset {s : State} (h : s.Inv) : s.softReset.Inv := by
  have := powerOn_inv s.cfg s.draws h.params
  exact ⟨this.params, ⟨h.buffers.1, this.buffers.2, h.buffers.3, this.buffers.4, this.buffers.5⟩,
      ⟨this.protocol.1, this.protocol.2, this.protocol.3⟩, this.errorCode, ⟨this.validity.1, this.validity.2⟩,
    ⟨by have := h.draws.1; show s.inDraw < s.draws + 4; omega,
      by show s.draws + 1 < s.draws + 4; omega,
      by have := h.draws.1; show s.inDraw ≠ s.draws + 1; omega⟩⟩

/-- It does not depend on the response, on further draws or on the host's program. -/
theorem State.Inv.bookkeeping {s t : State} (h : s.Inv)
    (e : t = { s with resp := t.resp, draws := t.draws, host := t.host, hostSlots := t.hostSlots })
    (hd : s.draws ≤ t.draws) : t.Inv := by
  have h1 := h.draws.1
  have h2 := h.draws.2
  rw [e]
  exact ⟨h.params, ⟨h.buffers.1, h.buffers.2, h.buffers.3, h.buffers.4, h.buffers.5⟩,
      ⟨h.protocol.1, h.protocol.2, h.protocol.3⟩, h.errorCode, ⟨h.validity.1, h.validity.2⟩,
      ⟨Nat.lt_of_lt_of_le h1 hd, Nat.lt_of_lt_of_le h2 hd, h.draws.3⟩⟩

theorem State.Inv.overrun {s : State} (h : s.Inv) : s.overrun.Inv :=
  ⟨h.params, ⟨h.buffers.1, h.buffers.2, h.buffers.3, h.buffers.4, h.buffers.5⟩,
      ⟨h.protocol.1, h.protocol.2, h.protocol.3⟩, h.errorCode, ⟨h.validity.1, h.validity.2⟩,
      ⟨h.draws.1, h.draws.2, h.draws.3⟩⟩

theorem State.Inv.acknowledge {s : State} (h : s.Inv) (d : Word) : (s.acknowledge d).Inv where
  params := h.params
  buffers := ⟨h.buffers.1, h.buffers.2, h.buffers.3, h.buffers.4, h.buffers.5⟩
  protocol := ⟨h.protocol.1, fun hb => by
      have := h.protocol.2 hb
      show (s.status.done && !d.getLsbD 1) = false
      rw [this]; rfl, fun hb => by
      have := h.protocol.3 hb
      show (s.status.err && !d.getLsbD 2) = false
      rw [this]; rfl⟩
  errorCode := h.errorCode
  validity := ⟨h.validity.1, h.validity.2⟩
  draws := ⟨h.draws.1, h.draws.2, h.draws.3⟩

theorem State.Inv.issue {s : State} (h : s.Inv) (w : Word) : (s.issue w).Inv where
  params := h.params
  buffers := ⟨h.buffers.1, h.buffers.2, h.buffers.3, h.buffers.4, h.buffers.5⟩
  protocol := ⟨fun _ => rfl, fun _ => rfl, fun _ => rfl⟩
  errorCode := h.errorCode
  validity := ⟨h.validity.1, h.validity.2⟩
  draws := ⟨by have := h.draws.1; show s.inDraw < s.draws + 1; omega,
      by have := h.draws.2; show s.outDraw < s.draws + 1; omega,
      h.draws.3⟩

end Sys2Proof.Machine
end

