-- ==== Sys2Proof/Laws/PerInstr.lean ====
section
/-! SUPPORT. Statements about each command as syntax, one lemma per constructor. -/

namespace Sys2Proof.Laws.WordLayout

/-- The command word of a command (30_encoding.md R90, R91): its reserved field is 0, its OP field is the opcode, the
word passes the legality test, and the command is well-formed. -/
def Statement (i : Instr) : Prop :=
  rsvdField (encode i) = 0 ∧ opField (encode i) = opcode i ∧ legalWord (encode i) = true ∧ i.wf = true

theorem encode : Statement .encode := by unfold Statement; decide

theorem decode : Statement .decode := by unfold Statement; decide

theorem count : Statement .count := by unfold Statement; decide

theorem buildTree : Statement .buildTree := by unfold Statement; decide

theorem genCodes : Statement .genCodes := by unfold Statement; decide

theorem pack : Statement .pack := by unfold Statement; decide

theorem unpack : Statement .unpack := by unfold Statement; decide

theorem serTable : Statement .serTable := by unfold Statement; decide

theorem parseTable : Statement .parseTable := by unfold Statement; decide

end Sys2Proof.Laws.WordLayout
end

