-- ==== Sys2Proof/Laws/Steps.lean ====
section
/-! SUPPORT. The steps of the two agents, and a run of several steps. -/

namespace Sys2Proof.Machine

/-- The engine's move is the meaning of the pending command (R253). -/
theorem step_eq_exec {s : State} {i : Instr} (hb : s.status.busy = true) (h : s.hostSlots = 0 ∨ s.host = [])
    (hd : decode s.pending = .ok i) :
   step s = exec i s := by
  have : s.engineTurn = true := by
    unfold State.engineTurn; rcases h with h | h <;> simp [hb, h]
  unfold step State.engineStep State.fetch
  rw [this, hd]; rfl

/-- While the engine is not to move, the step is the host's (20_memory.md R74). -/
theorem step_eq_hostStep {s : State} (h : s.status.busy = false ∨ (s.hostSlots ≠ 0 ∧ s.host ≠ [])) :
    step s = s.hostStep := by
  have : s.engineTurn = false := by
    unfold State.engineTurn; rcases h with h | ⟨h, g⟩ <;> simp [h, *]
  unfold step
  rw [this]; rfl

/-- A host transaction is carried out as it stands (R61). -/
theorem hostStep_txn {s : State} {x : Txn} {rest : List HostOp} (h : s.host = .txn x :: rest) :
    s.hostStep = .next ((s.advanceHost rest).transact x) := by
  unfold State.hostStep; rw [h]

/-- An item of the WAIT loop is a read of STATUS, and stays while BUSY is 1 (30_encoding.md R97). -/
theorem hostStep_wait {s : State} {rest : List HostOp} (h : s.host = .wait :: rest) :
    s.hostStep = .next ((s.advanceHost (if s.status.busy then .wait :: rest else rest)).transact
      (.read (s.cfg.blockBase + 0x010) 4)) := by
  unfold State.hostStep; rw [h]; rfl

theorem core_run_succ (M : Host.Core) {s t : M.State} (k : Nat) (h : M.step s = .next t) :
    M.run (k + 1) s = M.run k t := by
  simp only [Host.Core.run, h]

theorem status_word_busy (st : Status) : st.word.getLsbD 0 = st.busy := by
  obtain ⟨a, b, c, d, e, f⟩ := st
  revert a b c d e f; decide

end Sys2Proof.Machine
end

