-- ==== Sys2Proof/Machine/Script.lean ====
section
/-! DEFINITION. The host-script notation of 30_encoding.md R97: each form gives the host steps it stands for, on a
block whose offset 0 is at the host address base. -/

namespace Sys2Proof.Machine

/-- `W32 off, v`. -/
def w32 (base off : Nat) (v : Word) : List HostOp := [.txn (.write (base + off) 4 v)]

/-- `W8 off, v`. -/
def w8 (base off : Nat) (v : Byte) : List HostOp := [.txn (.write (base + off) 1 (v.setWidth 32))]

/-- `R32 off`. -/
def r32 (base off : Nat) : List HostOp := [.txn (.read (base + off) 4)]

/-- `R8 off`. -/
def r8 (base off : Nat) : List HostOp := [.txn (.read (base + off) 1)]

/-- `IN+i`. -/
def offIn (i : Nat) : Nat := 0x1000000 + i

/-- `OUT+i`. -/
def offOut (i : Nat) : Nat := 0x2000000 + i

/-- `FREQ+s`. -/
def offFreq (s : Nat) : Nat := 0x1000 + 4 * s

/-- `NODE+i`. -/
def offNode (i : Nat) : Nat := 0x2000 + 16 * i

/-- `CODE+s`. -/
def offCode (s : Nat) : Nat := 0x4000 + 64 * s

/-- `ISSUE <mnemonic>`. -/
def issueOp (base : Nat) (i : Instr) : List HostOp := w32 base CtrlReg.cmd.offset (encode i)

/-- `WAIT`. -/
def waitOp : List HostOp := [.wait]

/-- `LOADIN "<bytes>"`: the bytes one by one, then IN_LEN. -/
def loadIn (base : Nat) (X : List Byte) : List HostOp :=
  (X.zipIdx.flatMap fun p => w8 base (offIn p.2) p.1) ++
    w32 base CtrlReg.inLen.offset (BitVec.ofNat 32 X.length)

end Sys2Proof.Machine
end

