-- ==== Sys2Proof/Tests/Slice0.lean ====
section
/-! SUPPORT. Tests, each expected result from the vectors of 95_test_vectors.md or worked out by hand from the rule it
names, and a witness for the hypotheses of every statement. -/

namespace Sys2Proof.Tests

open Sys2Proof Sys2Proof.Machine

/-! ### Well-formed words and parameters -/

/-- One ill-formed word for each way of R91: a reserved bit, the highest reserved bit, and reserved opcodes. -/
theorem test_ill_formed_words :
    legalWord 0x00000101 = false ∧ legalWord 0x80000001 = false ∧ legalWord 0x00000000 = false ∧
    legalWord 0x00000003 = false ∧ legalWord 0x0000000F = false ∧ legalWord 0x00000017 = false ∧
    legalWord 0x000000FF = false ∧ legalWord 0x00000016 = true := by decide

/-- One ill-formed choice for each constraint of R7, and the least and the greatest well-formed ones. -/
theorem test_ill_formed_parameters :
    ¬ Params.wf ⟨0, 64, 0⟩ ∧ ¬ Params.wf ⟨2 ^ 24 + 1, 64, 0⟩ ∧ ¬ Params.wf ⟨64, 6, 0⟩ ∧
    ¬ Params.wf ⟨64, 2 ^ 24 + 1, 0⟩ ∧ ¬ Params.wf ⟨64, 64, 2 ^ 25⟩ ∧
    Params.wf ⟨1, 7, 0⟩ ∧ Params.wf ⟨2 ^ 24, 2 ^ 24, 2 ^ 26⟩ := by decide

/-- Every command is well-formed: none has an operand to check. -/
theorem test_commands_well_formed : ∀ i : Instr, i.wf = true := by intro i; cases i <;> rfl

/-! ### Decoding, the words written out from the table of R92 -/

/-- Container Codec. -/
theorem test_decode_codec :
    decode 0b00000000_00000000_00000000_00000001 = .ok .encode ∧
    decode 0b00000000_00000000_00000000_00000010 = .ok .decode ∧
    decode 0b00000000_00000000_00000000_00010101 = .ok .serTable ∧
    decode 0b00000000_00000000_00000000_00010110 = .ok .parseTable := by decide

/-- Frequency Analyzer, Tree Builder, Code Table Generator, Bit Packer. -/
theorem test_decode_sub_blocks :
    decode 0b00000000_00000000_00000000_00010000 = .ok .count ∧
    decode 0b00000000_00000000_00000000_00010001 = .ok .buildTree ∧
    decode 0b00000000_00000000_00000000_00010010 = .ok .genCodes ∧
    decode 0b00000000_00000000_00000000_00010011 = .ok .pack ∧
    decode 0b00000000_00000000_00000000_00010100 = .ok .unpack := by decide

/-- R95, V-CTL-1 to V-CTL-4: rejected by name. -/
theorem test_decode_rejects :
    decode 0x00000100 = .error .reservedField ∧ decode 0x00000113 = .error .reservedField ∧
    decode 0x000000FF = .error .reservedOpcode ∧ decode 0x00000000 = .error .reservedOpcode := by decide

theorem test_table_words :
    decodeTableWord 32 0x12 = some .genCodes ∧ decodeTableWord 32 0x112 = none ∧ decodeTableWord 32 0x17 = none := by
  decide

/-- A command placed after reset is the first the machine runs. -/
theorem test_first_command_after_reset :
    step (State.reset.withFetchWord 32 0x10) = exec .count (State.reset.withFetchWord 32 0x10) := rfl

/-! ### States to test on -/

/-- A small machine after reset. -/
def base : State := State.powerOn ⟨64, 64, 0x40000000⟩ 0

/-- The same with the smallest OUT_CAP of R7. -/
def tight : State := State.powerOn ⟨64, 7, 0x40000000⟩ 0

/-- s with X in IN_BUF and IN_LEN = |X|, as LOADIN leaves it (R97). -/
def withInput (s : State) (X : List Byte) : State :=
  { s with inBuf := Memory.writeBytes [] 0 X, inLen := BitVec.ofNat 32 X.length }

/-- The state after a completion step of i with no host step before it. -/
def after (i : Instr) (s : State) : State :=
  match step (s.placeCommand (encode i)) with
  | .next t => t
  | .fault _ => s
  | .refused _ => s

/-- STATUS and ERROR as register words. -/
def regs (s : State) : Nat × Nat := (s.status.word.toNat, s.error.word.toNat)

/-- The FREQ of V-BUILD-1: A 1, B 1, C 2. -/
def freqABC : Freq := (((Vector.replicate 256 (0 : Word)).set 0x41 1).set 0x42 1).set 0x43 2

/-- The FREQ of V-BUILD-2: a 4. -/
def freqA : Freq := (Vector.replicate 256 (0 : Word)).set 0x61 4

/-- The machine with the tree of V-BUILD-1 and the codes of V-GEN-1. -/
def coded : State := (base.putFreq freqABC).rebuild

/-- The machine with the tree of V-BUILD-2 and the code of V-GEN-2, and OUT_CAP = 7. -/
def single : State := (tight.putFreq freqA).rebuild

/-- A code as a list of bits, for a symbol. -/
def codeBits (s : State) (x : Byte) : List Nat := (s.code.of x).bits.map Bool.toNat

/-! ### The commands -/

/-- V-COUNT-4. -/
theorem test_count :
    let t := after .count (withInput coded [0x41, 0x42, 0x43, 0x43])
    t.freq.get 0x41 = 1 ∧ t.freq.get 0x43 = 2 ∧ t.freq.get 0x44 = 0 ∧ regs t = (0x02, 0x1000) := by decide +kernel

/-- V-COUNT-5: the length is checked first, and nothing is written. -/
theorem test_count_range :
    let t := after .count { base.putFreq freqA with inLen := 65 }
    t.freq.get 0x61 = 4 ∧ regs t = (0x06, 0x1006) := by decide +kernel

/-- V-BUILD-1: in the second merge the leaf C, of the lower index, goes before the internal node of the same f. -/
theorem test_build_tree :
    (buildTree freqABC).map (·.drop 3) = some [⟨false, 0, 2, 0, 1⟩, ⟨false, 0, 4, 2, 3⟩] := by decide +kernel

/-- V-BUILD-3. -/
theorem test_build_tree_empty : regs (after .buildTree base) = (0x06, 0x1103) := by decide +kernel

/-- V-GEN-1: C "0", A "10", B "11". -/
theorem test_gen_codes :
    let t := after .genCodes (base.putTree
      [⟨true, 0x41, 1, 0, 0⟩, ⟨true, 0x42, 1, 0, 0⟩, ⟨true, 0x43, 2, 0, 0⟩, ⟨false, 0, 2, 0, 1⟩, ⟨false, 0, 4, 2, 3⟩])
    codeBits t 0x43 = [0] ∧ codeBits t 0x41 = [1, 0] ∧ codeBits t 0x42 = [1, 1] ∧ codeBits t 0x44 = [] ∧
    regs t = (0x32, 0x1200) := by decide +kernel

/-- V-GEN-2, a root that is a leaf, and V-GEN-8. -/
theorem test_gen_codes_single :
    codeBits (after .genCodes (base.putTree [⟨true, 0x61, 4, 0, 0⟩])) 0x61 = [0] ∧
    regs (after .genCodes base) = (0x06, 0x1208) := by decide +kernel

/-- V-PACK-1. -/
theorem test_pack :
    let t := after .pack (withInput coded [0x41, 0x42, 0x43, 0x43])
    t.output = [0x02, 0xB0] ∧ regs t = (0x32, 0x1300) := by decide +kernel

/-- V-PACK-5, and 56 bits of payload for an OUT_CAP of 7, as V-PACK-8. -/
theorem test_pack_errors :
    regs (after .pack (withInput coded [0x41, 0x42, 0x44])) = (0x36, 0x1309) ∧
    regs (after .pack (withInput single (List.replicate 56 0x61))) = (0x36, 0x1305) := by decide +kernel

/-- V-UNPACK-1. -/
theorem test_unpack :
    let t := after .unpack (withInput coded [0x02, 0xB0])
    t.output = [0x41, 0x42, 0x43, 0x43] ∧ regs t = (0x32, 0x1400) := by decide +kernel

/-- V-UNPACK-4, V-UNPACK-6 and V-UNPACK-8: the padding byte, a padding bit that is 1, and a wrong count. -/
theorem test_unpack_errors :
    let codes := ((CodeTable.empty.put 0x43 1 0).put 0x41 2 2).put 0x42 2 3
    unpack [0xFF] codes 4 64 = .error .unsupportedPadding ∧
    unpack [0x02, 0xB1] codes 4 64 = .error .corruptPayload ∧
    unpack [0x02, 0xB8] codes 4 64 = .error .corruptPayload := by decide +kernel

/-- V-SER-1. -/
theorem test_ser_table :
    (after .serTable (base.putFreq freqA)).output = [0x7B, 0x39, 0x37, 0x3A, 0x34, 0x7D] := by decide +kernel

/-- V-PARSE-3. -/
theorem test_parse_table :
    let t := after .parseTable (withInput coded [0x7B, 0x39, 0x38, 0x3A, 0x31, 0x2C, 0x39, 0x37, 0x3A, 0x31, 0x7D])
    t.freq.get 0x61 = 1 ∧ t.freq.get 0x62 = 1 ∧ t.freq.get 0x41 = 0 ∧ regs t = (0x02, 0x1600) := by decide +kernel

/-- V-PARSE-7, V-PARSE-8 and V-PARSE-13: a symbol of 256, a leading zero, a trailing comma. -/
theorem test_parse_table_errors :
    parseTable [0x7B, 0x32, 0x35, 0x36, 0x3A, 0x31, 0x7D] = none ∧
    parseTable [0x7B, 0x30, 0x39, 0x37, 0x3A, 0x31, 0x7D] = none ∧
    parseTable [0x7B, 0x39, 0x37, 0x3A, 0x31, 0x2C, 0x7D] = none := by decide +kernel

/-- The container of "ab" (V-ENC-3). -/
def containerAB : List Byte :=
  [0x00, 0x00, 0x00, 0x0B, 0x7B, 0x39, 0x37, 0x3A, 0x31, 0x2C, 0x39, 0x38, 0x3A, 0x31, 0x7D, 0x06, 0x40]

/-- The state after ENCODE of "ab". -/
def encodedAB : State := after .encode (withInput base [0x61, 0x62])

/-- V-ENC-3. -/
theorem test_encode :
    encodedAB.output = containerAB ∧ regs encodedAB = (0x32, 0x0100) ∧ encodedAB.status.err = false ∧
    encodedAB.freq.get 0x61 = 1 ∧ encodedAB.nodeCount ≠ 0 := by
  decide +kernel

/-- V-DEC-1. -/
theorem test_decode :
    let t := after .decode (withInput base [0, 0, 0, 6, 0x7B, 0x39, 0x37, 0x3A, 0x34, 0x7D, 4, 0])
    t.output = [0x61, 0x61, 0x61, 0x61] ∧ regs t = (0x32, 0x0200) := by decide +kernel

/-- V-DEC-6 and V-DEC-7. -/
theorem test_decode_errors :
    regs (after .decode (withInput base [0xFF, 0xFF, 0xFF, 0xFF, 0])) = (0x06, 0x0201) ∧
    regs (after .decode (withInput base [0, 0, 0, 2, 0x7B, 0x7D])) = (0x06, 0x0202) := by decide +kernel

/-- V-CTL-4: an illegal word, its OP field recorded all the same. -/
theorem test_illegal_word :
    (match step (base.placeCommand 0x00000113) with
      | .next t => some (regs t)
      | .fault _ => none
      | .refused _ => none) = some (0x06, 0x1307) := by decide +kernel

/-! ### Witnesses: states that meet the hypotheses of the statements -/

/-- base with command i issued and the host at rest. -/
def pending (i : Instr) : State := base.issue (encode i)

/-- base with the word w issued. -/
def pendingWord (w : Word) : State := base.issue w

/-- base with COUNT issued, one host step before its completion, and the host's program ops. -/
def waiting (ops : List HostOp) : State := { pending .count with hostSlots := 1, host := ops }

/-- base with one host operation to come. -/
def hosting (op : HostOp) : State := { base with host := [op] }

theorem base_inv : base.Inv := powerOn_inv _ _ (by decide)

theorem tight_inv : tight.Inv := powerOn_inv _ _ (by decide)

theorem coded_inv : coded.Inv := (base_inv.putFreq freqABC).rebuild

theorem single_inv : single.Inv := (tight_inv.putFreq freqA).rebuild

theorem freqABC_ne : ∃ x, freqABC.get x ≠ 0 := ⟨0x41, by decide +kernel⟩

theorem freqA_ne : ∃ x, freqA.get x ≠ 0 := ⟨0x61, by decide +kernel⟩

theorem freqABC_present : freqABC.present = [0x41, 0x42, 0x43] := by decide +kernel

theorem freqA_present : freqA.present = [0x61] := by decide +kernel

theorem freqABC_total : freqABC.total = 4 := by rw [Freq.total_eq_present, freqABC_present]; decide +kernel

theorem serTable_freqA : serTable freqA = [0x7B, 0x39, 0x37, 0x3A, 0x34, 0x7D] := by
  unfold serTable; rw [freqA_present]; decide +kernel

theorem base_present : base.freq.present = [] :=
  List.filter_eq_nil_iff.2 fun x _ h => by
    rw [show base.freq.get x = 0 from Vector.getElem_replicate x.isLt] at h; exact absurd h (by decide)

theorem coded_valid : coded.status.treeValid = true ∧ coded.status.codesValid = true :=
  have h := (rebuild_spec base freqABC).1.full freqABC_ne
  ⟨h.1, h.2.1⟩

theorem single_valid : single.status.treeValid = true ∧ single.status.codesValid = true :=
  have h := (rebuild_spec tight freqA).1.full freqA_ne
  ⟨h.1, h.2.1⟩

theorem coded_freq : coded.freq = freqABC := (rebuild_spec base freqABC).1.freq

theorem single_freq : single.freq = freqA := (rebuild_spec tight freqA).1.freq

/-- Loading an input keeps the invariant. -/
theorem withInput_inv {s : State} (h : s.Inv) {X : List Byte} (hX : X.length ≤ s.cfg.inCap) : (withInput s X).Inv :=
  ⟨h.params, ⟨Memory.writeBytes_wf _ _ List.Pairwise.nil, h.buffers.outForm,
    fun c hc => (Memory.mem_writeBytes hc).elim (fun h' => by show c.1 < s.cfg.inCap; omega) (fun h' => nomatch h'),
    h.buffers.outRange, h.buffers.outLen⟩, ⟨h.protocol.1, h.protocol.2, h.protocol.3⟩, h.errorCode,
    ⟨h.validity.1, h.validity.2⟩, ⟨h.draws.1, h.draws.2, h.draws.3⟩⟩

theorem pending_inv (w : Word) : (pendingWord w).Inv := base_inv.issue w

/-- The input of a loaded state is what was loaded: "ab", and the containers of V-ENC-1 and V-ENC-2. -/
theorem loaded_inputs :
    (withInput base [0x61, 0x62]).input = [0x61, 0x62] ∧
    (withInput base [0, 0, 0, 2, 0x7B, 0x7D, 0]).input = [0, 0, 0, 2, 0x7B, 0x7D, 0] ∧
    (withInput base [0, 0, 0, 6, 0x7B, 0x39, 0x37, 0x3A, 0x34, 0x7D, 4, 0]).input =
      [0, 0, 0, 6, 0x7B, 0x39, 0x37, 0x3A, 0x34, 0x7D, 4, 0] := by decide +kernel

theorem witness_EveryStepKeepsTheInvariant :
    (pending .count).Inv ∧ (∃ t, step (pending .count) = .next t) ∧
    (hosting .hardReset).Inv ∧ ∃ t, step (hosting .hardReset) = .next t :=
  ⟨base_inv.issue _, ⟨_, step_eq_exec (i := .count) rfl (.inr rfl) rfl⟩, base_inv.bookkeeping rfl (Nat.le_refl _),
    ⟨_, rfl⟩⟩

theorem witness_StepRunsTheDecodedCommand :
    ((pending .pack).status.busy = true ∧ (pending .pack).host = [] ∧ decode (pending .pack).pending = .ok .pack) ∧
    ((base.placeCommand 0x13).status.busy = true ∧ (base.placeCommand 0x13).hostSlots = 0 ∧
      decode (base.placeCommand 0x13).pending = .ok .pack) :=
  ⟨⟨rfl, rfl, rfl⟩, rfl, rfl, rfl⟩

theorem witness_IllegalWordsCompleteWithIllegalCommand :
    (pendingWord 0x17).status.busy = true ∧ (pendingWord 0x17).host = [] ∧
    legalWord (pendingWord 0x17).pending = false ∧ legalWord (pendingWord 0x100).pending = false :=
  ⟨rfl, rfl, by decide, by decide⟩

theorem witness_OnlyTheNineWordsDecode :
    decode 0x16 = .ok .parseTable ∧ decode 0xFF = .error .reservedOpcode ∧ decode 0x100 = .error .reservedField := by
  decide

theorem witness_CountWritesEveryCount :
    base.cfg.wf ∧ ({ base with inLen := 64 } : State).inLen.toNat ≤ base.cfg.inCap ∧
    base.cfg.inCap < ({ base with inLen := 65 } : State).inLen.toNat := by decide

theorem witness_CountSumsToInputLength :
    base.cfg.wf ∧ ∃ t, exec .count (withInput base [0x61, 0x62]) = .next t ∧ t.status.err = false :=
  ⟨by decide, _, rfl, rfl⟩

theorem witness_BuildTreeWritesTheGreedyTree :
    (∃ x, coded.freq.get x ≠ 0) ∧ ∀ x, base.freq.get x = 0 :=
  ⟨coded_freq ▸ freqABC_ne, fun x => Vector.getElem_replicate x.isLt⟩

theorem witness_GreedyTreeIsUnique : (∃ x, freqABC.get x ≠ 0) ∧ ∃ N, GreedyArena freqABC N :=
  have ⟨N, hN⟩ := buildTree_some _ freqABC_ne
  ⟨freqABC_ne, N, greedyArena_of_buildTree hN⟩

/-- A table with internal nodes and the root's path, and the full alphabet. -/
theorem witness_BuiltTreesAreFullBinaryTrees :
    (∃ N, buildTree coded.freq = some N ∧ (∀ (i : Fin 511) (m : Node), N[i.val]? = some m → coded.node.get i = m)) ∧
    coded.freq.present.length = 3 ∧ NodePath coded.node 4 [] 4 ∧
    (Freq.present (Vector.replicate 256 (1 : Word))).length = 256 :=
  have ⟨N, hN, hh, _⟩ := coded_inv.validity.tree coded_valid.1
  ⟨⟨N, hN, hh.2⟩, by rw [coded_freq, freqABC_present]; rfl, .root, by
    rw [Freq.present, List.filter_eq_self.2 fun x _ => by
      rw [show (Vector.replicate 256 (1 : Word)).get x = 1 from Vector.getElem_replicate x.isLt]; decide]
    exact List.length_finRange⟩

theorem witness_GenCodesWritesThePaths :
    coded.Inv ∧ coded.status.treeValid = true ∧ base.Inv ∧ base.status.treeValid = false :=
  ⟨coded_inv, coded_valid.1, base_inv, rfl⟩

theorem witness_CodesArePrefixFreeAndComplete :
    (coded.Inv ∧ coded.status.codesValid = true ∧ 2 ≤ coded.freq.present.length) ∧
    (single.Inv ∧ single.status.codesValid = true ∧ single.freq.present.length = 1 ∧ single.code.coded 0x61) :=
  ⟨⟨coded_inv, coded_valid.2, by rw [coded_freq, freqABC_present]; decide⟩, single_inv, single_valid.2,
    by rw [single_freq, freqA_present]; rfl,
    (single_inv.coded_iff single_valid.2 _).2 (by rw [single_freq]; decide +kernel)⟩

theorem witness_ExactlyThePresentSymbolsHaveCodes :
    coded.Inv ∧ coded.status.codesValid = true ∧ coded.freq.get 0x43 ≠ 0 ∧ coded.freq.get 0x44 = 0 :=
  ⟨coded_inv, coded_valid.2, by rw [coded_freq]; decide +kernel, by rw [coded_freq]; decide +kernel⟩

/-- The clauses of PACK: the length, the flag, an uncoded and only coded symbols (the two sizes: test_pack). -/
theorem witness_PackWritesThePayload :
    base.cfg.inCap < ({ base with inLen := 65 } : State).inLen.toNat ∧
    (base.Inv ∧ base.status.codesValid = false) ∧
    ((withInput coded []).Inv ∧ (withInput coded []).status.codesValid = true ∧
      ∀ x ∈ (withInput coded []).input, ((withInput coded []).code.of x).len ≠ 0) ∧
    ¬ coded.code.coded 0x44 ∧ coded.code.coded 0x43 :=
  ⟨by decide, ⟨base_inv, rfl⟩, ⟨withInput_inv coded_inv (Nat.zero_le _), coded_valid.2, fun _ h => nomatch h⟩,
    fun h => (coded_inv.coded_iff coded_valid.2 _).1 h (by rw [coded_freq]; decide +kernel),
    (coded_inv.coded_iff coded_valid.2 _).2 (by rw [coded_freq]; decide +kernel)⟩

/-- The clauses of UNPACK: no input at all is an error, and a payload of the four symbols the table counts succeeds. -/
theorem witness_UnpackReadsThePayload :
    (withInput coded []).Inv ∧ (withInput coded []).status.codesValid = true ∧
    UnpackGives (withInput coded []).input coded.code coded.freq.total 64 (.error .corruptPayload) ∧
    UnpackGives (framePayload (encodeSymbols [0x43, 0x43, 0x43, 0x43] coded.code)) coded.code coded.freq.total 64
      (.ok [0x43, 0x43, 0x43, 0x43]) :=
  ⟨withInput_inv coded_inv (Nat.zero_le _), coded_valid.2, .noPadding rfl,
    .ok _ (framePayload_spec _)
      (fun x hx => (coded_inv.coded_iff coded_valid.2 x).2 (by
        rw [coded_freq]; simp only [List.mem_cons, List.not_mem_nil, or_false, or_self] at hx
        rw [hx]; decide +kernel))
      (by rw [coded_freq, freqABC_total]; rfl) (by rw [coded_freq, freqABC_total]; decide)⟩

theorem witness_UnpackOfPackIsTheInput :
    coded.Inv ∧ coded.status.codesValid = true ∧ (∀ x ∈ [(0x43 : Byte)], (coded.code.of x).len ≠ 0) ∧
    [(0x43 : Byte)].length ≤ base.cfg.outCap :=
  ⟨coded_inv, coded_valid.2, fun x hx => by
    rw [List.mem_singleton.1 hx]
    exact (coded_inv.coded_iff coded_valid.2 _).2 (by rw [coded_freq]; decide +kernel), by decide⟩

/-- A text that fits and, for the smallest OUT_CAP and "{65:1,66:1,67:2}", one that does not. -/
theorem witness_SerTableWritesTheText :
    base.Inv ∧ TableText [0x7B, 0x7D] base.freq.entries ∧ [(0x7B : Byte), 0x7D].length ≤ base.cfg.outCap ∧
    tight.cfg.outCap < (serTable freqABC).length := by
  refine ⟨base_inv, ?_, by decide, by unfold serTable; rw [freqABC_present]; decide +kernel⟩
  rw [Freq.entries, base_present]; exact .empty

theorem witness_ParseTableLoadsTheTable :
    base.cfg.inCap < ({ base with inLen := 65 } : State).inLen.toNat ∧ TextOf (serTable freqA) freqA ∧
    ∀ F, ¬ TextOf (withInput base []).input F :=
  ⟨by decide, serTable_textOf freqA, fun _ ⟨_, h, _⟩ => nomatch h⟩

theorem witness_EncodeWritesTheContainer :
    (withInput base [0x61, 0x62]).Inv ∧ (withInput base [0x61, 0x62]).inLen.toNat ≤ base.cfg.inCap ∧
    base.cfg.inCap < ({ base with inLen := 65 } : State).inLen.toNat :=
  ⟨withInput_inv base_inv (by decide), by decide, by decide⟩

/-- ENCODE of "ab" is placed. -/
def placedAB : State := (withInput base [0x61, 0x62]).placeCommand (encode .encode)

theorem placeCommand_inv {s : State} (h : s.Inv) (w : Word) : (s.placeCommand w).Inv :=
  ⟨h.params, ⟨h.buffers.1, h.buffers.2, h.buffers.3, h.buffers.4, h.buffers.5⟩,
    ⟨fun _ => rfl, fun _ => rfl, fun _ => rfl⟩, h.errorCode, ⟨h.validity.1, h.validity.2⟩,
    ⟨h.draws.1, h.draws.2, h.draws.3⟩⟩

theorem placedAB_inv : placedAB.Inv := placeCommand_inv (withInput_inv base_inv (by decide)) _

/-- The state after a command that has been placed is the state after its step, and after its meaning. -/
theorem after_spec (i : Instr) (s : State) :
    step (s.placeCommand (encode i)) = .next (after i s) ∧ exec i (s.placeCommand (encode i)) = .next (after i s) := by
  have h : step (s.placeCommand (encode i)) = exec i (s.placeCommand (encode i)) :=
    step_eq_exec rfl (.inl rfl) (by show decode (encode i) = .ok i; cases i <;> decide)
  obtain ⟨t, ht⟩ : ∃ t, exec i (s.placeCommand (encode i)) = .next t := by cases i <;> exact ⟨_, rfl⟩
  unfold after
  rw [h, ht]; exact ⟨rfl, rfl⟩

/-- ENCODE of "ab" succeeds. -/
theorem witness_EncodeOutputLength :
    placedAB.Inv ∧ placedAB.inLen.toNat ≤ placedAB.cfg.inCap ∧
    exec .encode placedAB = .next encodedAB ∧ encodedAB.status.err = false :=
  ⟨placedAB_inv, by decide, (after_spec _ _).2, test_encode.2.2.1⟩

theorem witness_EmptyInputHasTheEmptyContainer :
    base.Inv ∧ base.inLen = 0 ∧ (withInput base [0, 0, 0, 2, 0x7B, 0x7D, 0]).Inv ∧
    (withInput base [0, 0, 0, 2, 0x7B, 0x7D, 0]).inLen.toNat ≤ base.cfg.inCap ∧
    (withInput base [0, 0, 0, 2, 0x7B, 0x7D, 0]).input = [0x00, 0x00, 0x00, 0x02, 0x7B, 0x7D, 0x00] :=
  ⟨base_inv, rfl, withInput_inv base_inv (by decide), by decide, loaded_inputs.2.1⟩

/-- The clauses of DECODE: no container, a container of the empty table, and one of a table with a symbol. -/
theorem witness_DecodeReadsTheContainer :
    (base.Inv ∧ ∀ T P F, ContainerOf base.input T P → ¬ TextOf T F) ∧
    ((withInput base [0, 0, 0, 2, 0x7B, 0x7D, 0]).Inv ∧
      ContainerOf (withInput base [0, 0, 0, 2, 0x7B, 0x7D, 0]).input [0x7B, 0x7D] [0] ∧
      TextOf [0x7B, 0x7D] (Vector.replicate 256 0)) ∧
    ((withInput base [0, 0, 0, 6, 0x7B, 0x39, 0x37, 0x3A, 0x34, 0x7D, 4, 0]).Inv ∧
      ContainerOf (withInput base [0, 0, 0, 6, 0x7B, 0x39, 0x37, 0x3A, 0x34, 0x7D, 4, 0]).input
        [0x7B, 0x39, 0x37, 0x3A, 0x34, 0x7D] [4, 0] ∧
      TextOf [0x7B, 0x39, 0x37, 0x3A, 0x34, 0x7D] freqA) := by
  refine ⟨⟨base_inv, fun _ _ _ ⟨_, _, _, _, h, _⟩ => nomatch h⟩,
    ⟨withInput_inv base_inv (by decide), ?_, ?_⟩, withInput_inv base_inv (by decide), ?_, ?_⟩
  · rw [loaded_inputs.2.1]; exact ⟨0, 0, 0, 2, rfl, rfl⟩
  · exact ⟨[], .empty, by unfold EntriesLegal; decide,
      ⟨fun _ _ h => (nomatch h), fun x _ => Vector.getElem_replicate x.isLt⟩⟩
  · rw [loaded_inputs.2.2]; exact ⟨0, 0, 0, 6, rfl, rfl⟩
  · rw [← serTable_freqA]; exact serTable_textOf freqA

/-- The inputs that hold the container of "ab", whole and cut in the payload and in the text. -/
theorem containerAB_inputs :
    (withInput base containerAB).input = containerAB ∧
    (withInput base (containerAB.take 16)).input = containerAB.take 16 ∧
    (withInput base (containerAB.take 15)).input = containerAB.take 15 ∧
    (withInput base (containerAB.take 14)).input = containerAB.take 14 := by decide +kernel

theorem witness_DecodeOfEncodeIsTheInput :
    placedAB.Inv ∧ (withInput base containerAB).Inv ∧ exec .encode placedAB = .next encodedAB ∧
    encodedAB.status.err = false ∧ (withInput base containerAB).input = encodedAB.output ∧
    (withInput base containerAB).inLen.toNat ≤ base.cfg.inCap ∧ placedAB.inLen.toNat ≤ base.cfg.outCap :=
  ⟨placedAB_inv, withInput_inv base_inv (by decide), (after_spec _ _).2, test_encode.2.2.1,
    containerAB_inputs.1.trans test_encode.1.symm, by decide, by decide⟩

/-- The cuts: 16 bytes keep the text of 4 + 11 bytes and the padding byte, 15 just the text, 14 do not keep it. -/
theorem witness_EncodeIsDeterministicAndTruncationIsFound :
    (exec .encode placedAB = .next encodedAB ∧ encodedAB.status.err = false ∧ encodedAB.output = containerAB) ∧
    ((withInput base (containerAB.take 16)).Inv ∧ (withInput base (containerAB.take 15)).Inv ∧
      (withInput base (containerAB.take 14)).Inv) ∧
    (withInput base (containerAB.take 16)).inLen.toNat ≤ base.cfg.inCap ∧
    (withInput base (containerAB.take 16)).input = containerAB.take 16 ∧
    (withInput base (containerAB.take 15)).input = containerAB.take 15 ∧
    (withInput base (containerAB.take 14)).input = containerAB.take 14 :=
  ⟨⟨(after_spec _ _).2, test_encode.2.2.1, test_encode.1⟩, ⟨withInput_inv base_inv (by decide),
    withInput_inv base_inv (by decide), withInput_inv base_inv (by decide)⟩, by decide, containerAB_inputs.2⟩

theorem witness_ErrorCodesAreReportedAsListed : base.cfg.wf ∧ ∀ i, ∃ t, exec i base = .next t :=
  ⟨by decide, fun i => by cases i <;> exact ⟨_, rfl⟩⟩

theorem witness_OutputsAreKeptOrLost :
    (∃ t, exec .pack base = .next t ∧ t.status.err = true) ∧
    (∃ t, exec .genCodes base = .next t ∧ t.status.err = true) ∧
    (placedAB.Inv ∧ exec .encode placedAB = .next encodedAB ∧ encodedAB.status.err = false) ∧
    (∃ t, exec .count base = .next t ∧ t.status.err = false) ∧
    (∃ t, exec .buildTree coded = .next t ∧ t.status.err = false) ∧
    ∃ t, exec .genCodes coded = .next t ∧ t.status.err = false := by
  obtain ⟨N, hN⟩ := buildTree_some _ freqABC_ne
  have hN' : buildTree coded.freq = some N := coded_freq ▸ hN
  exact ⟨⟨_, rfl, rfl⟩, ⟨_, rfl, rfl⟩, ⟨placedAB_inv, (after_spec _ _).2, test_encode.2.2.1⟩, ⟨_, rfl, rfl⟩,
    ⟨_, rfl, by rw [hN']; rfl⟩, _, rfl, by rw [if_pos coded_valid.1]; rfl⟩

/-- An idle state in another context still has the invariant. -/
theorem inContext_inv {s : State} (h : s.Inv) {b : Nat} (hb : b % 2 ^ 26 = 0) (dn er ov : Bool) :
    (s.inContext b false dn er ov).Inv :=
  ⟨⟨h.params.1, h.params.2.1, hb⟩, ⟨h.buffers.1, h.buffers.2, h.buffers.3, h.buffers.4, h.buffers.5⟩,
    ⟨fun h => (nomatch h), fun h => (nomatch h), fun h => (nomatch h)⟩, h.errorCode,
    ⟨h.validity.1, h.validity.2⟩, ⟨h.draws.1, h.draws.2, h.draws.3⟩⟩

/-- base with another base address, DONE and OVERRUN set, and other free values in OUT_BUF. -/
def elsewhere : State := base.dropOutput.inContext 0x80000000 false true false true

theorem elsewhere_inv : elsewhere.Inv := inContext_inv base_inv.dropOutput (by decide) _ _ _

theorem witness_ResultsDependOnTheOperandsOnly :
    base.Inv ∧ elsewhere.Inv ∧ elsewhere.status ≠ base.status ∧ elsewhere.cfg ≠ base.cfg ∧
    elsewhere.outDraw ≠ base.outDraw ∧ elsewhere.cfg.inCap = base.cfg.inCap ∧
    elsewhere.cfg.outCap = base.cfg.outCap ∧ elsewhere.inLen = base.inLen ∧ elsewhere.input = base.input ∧
    elsewhere.freq = base.freq ∧ elsewhere.status.treeValid = base.status.treeValid ∧
    elsewhere.status.codesValid = base.status.codesValid ∧ elsewhere.pending = base.pending ∧
    (∃ t, exec .serTable base = .next t) ∧ ∃ v, exec .serTable elsewhere = .next v :=
  ⟨base_inv, elsewhere_inv, by decide, by decide, by decide, rfl, rfl, rfl, rfl, rfl, rfl, rfl, rfl, ⟨_, rfl⟩, _, rfl⟩

/-- The ends of every region of R70, and the offsets next to them. -/
theorem witness_IllegalAccessesRespondError :
    (∀ p ∈ [(0x0, 4), (0x20, 4), (0x1000, 4), (0x13FC, 4), (0x2000, 4), (0x3FEC, 4), (0x4000, 4), (0x7FFC, 4),
        (0x1000000, 1), (0x100003F, 1), (0x100003C, 4), (0x2000000, 4), (0x200003F, 1)],
      LegalAccess base.cfg p.1 p.2) ∧
    ∀ p ∈ [(0x0, 2), (0x1, 4), (0x24, 4), (0x1400, 4), (0x3FF0, 4), (0x8000, 4), (0x1000, 1), (0x1000040, 1),
        (0x2000040, 4), (0x3000000, 4), (0x3FFFFFC, 4)], ¬ LegalAccess base.cfg p.1 p.2 := by
  unfold LegalAccess; decide

theorem witness_ForeignAddressesDoNotReachTheBlock :
    0x3FFFFFFF < base.cfg.blockBase ∧ base.cfg.blockBase + 2 ^ 26 ≤ 0x44000000 := by decide

theorem witness_WritesToReadOnlyLocationsDoNothing :
    ∀ p ∈ [(0x000, 4), (0x020, 4), (0x2000, 4), (0x7FFC, 4), (0x2000000, 1), (0x200003C, 4)],
      LegalAccess base.cfg p.1 p.2 := by
  unfold LegalAccess; decide

/-- The first and the last word, and the last byte, of IN_BUF. -/
theorem witness_InBufWritesAreLittleEndian :
    base.Inv ∧ base.status.busy = false ∧ (0 % 4 = 0 ∧ 0 + 4 ≤ base.cfg.inCap) ∧
    (60 % 4 = 0 ∧ 60 + 4 ≤ base.cfg.inCap) ∧ 63 + 1 ≤ base.cfg.inCap :=
  ⟨base_inv, rfl, by decide, by decide, by decide⟩

/-- An idle state, for the writes of CMD, IN_LEN and FREQ, and the reads of a state that is not busy. -/
theorem witness_IssueLatchesTheCommand : base.status.busy = false := rfl

theorem witness_InLenHoldsWhatIsWritten : base.status.busy = false := rfl

theorem witness_FreqWritesInvalidate : coded.status.busy = false ∧ coded.status.codesValid = true :=
  ⟨(rebuild_kept _).2.2.2.2.2.2.2.1, coded_valid.2⟩

/-- Each region that a write while busy is dropped in, at its ends, and the others. -/
theorem witness_WritesWhileBusyAreDropped :
    (pending .count).status.busy = true ∧
    ∀ p ∈ [(0x00C, 4), (0x018, 4), (0x1000, 4), (0x13FC, 4), (0x1000000, 1), (0x100003F, 1), (0x008, 4), (0x010, 4),
        (0x000, 4), (0x2000, 4), (0x7FFC, 4), (0x2000000, 4)], LegalAccess base.cfg p.1 p.2 := by
  refine ⟨rfl, ?_⟩; unfold LegalAccess; decide

theorem witness_ReadsWhileBusy :
    (pending .count).Inv ∧ (pending .count).status.busy = true ∧ 63 < (pending .count).cfg.inCap ∧
    63 < (pending .count).cfg.outCap ∧ 60 % 4 = 0 ∧ 60 + 4 ≤ (pending .count).cfg.inCap ∧
    60 + 4 ≤ (pending .count).cfg.outCap :=
  ⟨base_inv.issue _, rfl, by decide, by decide, by decide, by decide, by decide⟩

theorem witness_IdleReadsShowTheRegistersAndBuffers :
    base.cfg.wf ∧ base.status.busy = false ∧ 63 < base.cfg.inCap ∧ 63 < base.cfg.outCap ∧ 60 % 4 = 0 ∧
    60 + 4 ≤ base.cfg.inCap ∧ 60 + 4 ≤ base.cfg.outCap := by decide

/-- Neither window valid, and a tree of five entries, so that entry 5 is above it. -/
theorem witness_InvalidWindowsReadFree :
    (base.status.busy = false ∧ base.status.treeValid = false ∧ base.status.codesValid = false) ∧
    coded.status.busy = false ∧ coded.status.treeValid = true ∧ coded.nodeCount.toNat = 5 := by
  refine ⟨⟨rfl, rfl, rfl⟩, (rebuild_kept _).2.2.2.2.2.2.2.1, coded_valid.1, ?_⟩
  obtain ⟨N, -, hh, hl, -⟩ := coded_inv.validity.tree coded_valid.1
  rw [hh.1, hl, coded_freq, freqABC_present]; rfl

theorem witness_CtrlWriteSetsOrResets :
    (1 : Word).getLsbD 1 = false ∧ (2 : Word).getLsbD 1 = true ∧ (3 : Word).getLsbD 1 = true := by decide

theorem witness_HardResetIsOneStep :
    (hosting .hardReset).engineTurn = false ∧ (hosting .hardReset).host = .hardReset :: [] ∧
    (hosting (.txnInReset (.read 0 4))).engineTurn = false ∧
    (hosting (.txnInReset (.read 0 4))).host = .txnInReset (.read 0 4) :: [] := ⟨rfl, rfl, rfl, rfl⟩

theorem witness_IrqFollowsEnableAndDone :
    (∃ t, exec .genCodes base = .next t) ∧ base.status.busy = false ∧ (2 : Word).getLsbD 1 = true :=
  ⟨⟨_, rfl⟩, rfl, by decide⟩

theorem witness_WindowsShowTheRegisterFiles :
    coded.status.busy = false ∧ coded.status.treeValid = true ∧ coded.status.codesValid = true ∧
    0 < coded.nodeCount.toNat := by
  refine ⟨(rebuild_kept _).2.2.2.2.2.2.2.1, coded_valid.1, coded_valid.2, ?_⟩
  obtain ⟨N, -, hh, hl, hp⟩ := coded_inv.validity.tree coded_valid.1
  have := hh.1
  omega

theorem witness_PendingCommandsAreIsolated :
    (waiting [.wait]).status.busy = true ∧ ∃ t, step (waiting [.wait]) = .next t ∧ t.status.busy = true :=
  ⟨rfl, _, rfl, rfl⟩

theorem witness_PendingCommandsUseUpHostSteps :
    (waiting [.wait]).status.busy = true ∧ ∃ t, step (waiting [.wait]) = .next t ∧ t.status.busy = true :=
  ⟨rfl, _, rfl, rfl⟩

theorem witness_WaitLoopEnds : (waiting [.wait]).host = .wait :: [] := rfl

/-- Idle with each kind of host step and with none, and with a command pending. -/
theorem witness_HostStepsAreTransactions :
    (base.status.busy = false ∧ base.host = []) ∧
    (hosting (.txn (.read 0x40000000 4))).status.busy = false ∧
    (hosting (.txn (.read 0x40000000 4))).host = .txn (.read 0x40000000 4) :: [] ∧
    (hosting .wait).status.busy = false ∧ (hosting .wait).host = .wait :: [] ∧
    (waiting [.txn (.read 0 4)]).status.busy = true ∧ (waiting [.txn (.read 0 4)]).hostSlots ≠ 0 ∧
    (waiting [.txn (.read 0 4)]).host = .txn (.read 0 4) :: [] ∧
    (waiting [.wait]).hostSlots ≠ 0 ∧ (waiting [.wait]).host = .wait :: [] :=
  ⟨⟨rfl, rfl⟩, rfl, rfl, rfl, rfl, rfl, by decide, rfl, by decide, rfl⟩

/-- The three ways OVERRUN is cleared. -/
theorem witness_OverrunIsSticky :
    let s (op : HostOp) : State := { hosting op with status := base.status.overran }
    (∃ t, step (s .hardReset) = .next t ∧ t.status.overrun = false) ∧
    (∃ t, step (s (.txn (.write 0x40000010 4 8))) = .next t ∧ t.status.overrun = false) ∧
    (∃ t, step (s (.txn (.write 0x40000008 4 2))) = .next t ∧ t.status.overrun = false) :=
  ⟨⟨_, rfl, rfl⟩, ⟨_, rfl, rfl⟩, _, rfl, rfl⟩

/-- A completion that writes ERROR, one that writes NODE_COUNT, and a reset that does. -/
theorem witness_ErrorAndNodeCountChangeAtCompletions :
    (step (base.placeCommand (encode .genCodes)) = .next (after .genCodes base) ∧
      (after .genCodes base).error ≠ (base.placeCommand (encode .genCodes)).error) ∧
    (step placedAB = .next encodedAB ∧ encodedAB.nodeCount ≠ placedAB.nodeCount) ∧
    ∃ t, step { hosting .hardReset with nodeCount := 5 } = .next t ∧ t.nodeCount ≠ 5 :=
  ⟨⟨(after_spec _ _).1, by decide +kernel⟩, ⟨(after_spec _ _).1, test_encode.2.2.2.2⟩, _, rfl, by decide⟩

/-- A host write of FREQ, and a completion of ENCODE (test_encode). -/
theorem witness_ValidFlagsSurviveNoFreqChange :
    (∃ t, step (hosting (.txn (.write 0x40001184 4 3))) = .next t ∧ t.freq ≠ base.freq) ∧
    step placedAB = .next encodedAB ∧ encodedAB.freq ≠ placedAB.freq :=
  ⟨⟨_, rfl, fun h => absurd (congrArg (Vector.get · (0x61 : Fin 256)) h) (by decide +kernel)⟩,
    (after_spec _ _).1, fun h => by
    have e := congrArg (Vector.get · (0x61 : Fin 256)) h
    exact absurd (test_encode.2.2.2.1.symm.trans e) (by decide +kernel)⟩

/-! ### Scheduling -/

/-- P6: a CMD write after another may find the block busy, and is dropped, or idle, and is issued. -/
theorem test_both_interleavings :
    let ops := issueOp 0x40000000 .serTable ++ waitOp
    let s (slots : Nat) : State :=
      { base.placeCommand (encode .count) with host := ops, hostSlots := slots, latencies := [0] }
    let seen (k n : Nat) : Option (Nat × Nat × Bool) :=
      match Sys2Proof.core.run k (s n) with
      | .next (t : State) => some (t.error.op.toNat, t.lastCmd.toNat, t.status.overrun)
      | .fault _ => none
      | .refused _ => none
    seen 2 1 = some (0x10, 0x10, true) ∧ seen 3 0 = some (0x15, 0x15, false) := by
  decide +kernel

end Sys2Proof.Tests
end

/-! ### What a step can do

One inversion per agent: a completion changes the register files and then reports, a host step is a transaction or a
reset. Every statement about all steps is a case analysis over them. -/

namespace Sys2Proof.Machine

/-- What a command makes of the register files of s before it reports its completion: nothing, a load of FREQ (R130,
R222), a tree (R147), the codes of the tree (R167), or a load of FREQ with its tree and codes (R230, R240). -/
def TableEffect (s u : State) : Prop :=
  u = s ∨ (∃ F, u = s.putFreq F) ∨ (∃ N, buildTree s.freq = some N ∧ u = s.putTree N) ∨
    (s.status.treeValid = true ∧ u = s.putCodes (genCodes s.node s.nodeCount.toNat)) ∨
    ∃ F, u = (s.putFreq F).rebuild

theorem TableEffect.kept (s : State) : TableEffect s s := .inl rfl

theorem TableEffect.loaded (s : State) (F : Freq) : TableEffect s (s.putFreq F) := .inr (.inl ⟨F, rfl⟩)

theorem TableEffect.treeBuilt {s : State} {N : List Node} (h : buildTree s.freq = some N) :
    TableEffect s (s.putTree N) := .inr (.inr (.inl ⟨N, h, rfl⟩))

theorem TableEffect.codesBuilt {s : State} (h : s.status.treeValid = true) :
    TableEffect s (s.putCodes (genCodes s.node s.nodeCount.toNat)) := .inr (.inr (.inr (.inl ⟨h, rfl⟩)))

theorem TableEffect.rebuilt (s : State) (F : Freq) : TableEffect s (s.putFreq F).rebuild :=
  .inr (.inr (.inr (.inr ⟨F, rfl⟩)))

/-- How command i ends once the register files are as in u: with an error, without one, or with a result (R254, R255).
-/
def CommandEnd (i : Instr) (u t : State) : Prop :=
  (∃ e, t = u.raise i e) ∨ t = u.succeed ∨ ∃ R : List Byte, R.length ≤ u.cfg.outCap ∧ t = (u.putOutput R).succeed

theorem CommandEnd.failed (i : Instr) (u : State) (e : ErrorCode) : CommandEnd i u (u.raise i e) := .inl ⟨e, rfl⟩

theorem CommandEnd.succeeded (i : Instr) (u : State) : CommandEnd i u u.succeed := .inr (.inl rfl)

theorem CommandEnd.delivered (i : Instr) {u : State} {R : List Byte} (h : R.length ≤ u.cfg.outCap) :
    CommandEnd i u (u.putOutput R).succeed := .inr (.inr ⟨R, h, rfl⟩)

theorem CommandEnd.finishOutput (i : Instr) (u : State) (R : List Byte) : CommandEnd i u (u.finishOutput i R) := by
  unfold State.finishOutput
  split
  · exact .failed ..
  · exact .delivered i (by omega)

/-- Everything a command can do (R253). -/
theorem exec_inversion {i : Instr} {s t : State} (h : exec i s = .next t) :
    ∃ u, TableEffect s u ∧ CommandEnd i u t := by
  have fails (e : ErrorCode) : ∃ u, TableEffect s u ∧ CommandEnd i u (s.raise i e) := ⟨s, .kept s, .failed i s e⟩
  cases i <;> obtain rfl := Host.Outcome.next.inj h
  case count =>
    split
    · exact fails _
    · exact ⟨_, .loaded s _, .succeeded ..⟩
  case buildTree =>
    split
    · exact fails _
    · next N hN => exact ⟨_, .treeBuilt hN, .succeeded ..⟩
  case genCodes =>
    split
    · next ht => exact ⟨_, .codesBuilt ht, .succeeded ..⟩
    · exact fails _
  case pack =>
    split
    · exact fails _
    split
    · split
      · exact fails _
      · exact ⟨s, .kept s, .finishOutput ..⟩
    · exact fails _
  case unpack =>
    split
    · exact fails _
    split
    · split
      · exact fails _
      · next R hR => exact ⟨s, .kept s, .delivered _ (unpack_ok_length hR)⟩
    · exact fails _
  case serTable => exact ⟨s, .kept s, .finishOutput ..⟩
  case parseTable =>
    split
    · exact fails _
    split
    · exact fails _
    · exact ⟨_, .loaded s _, .succeeded ..⟩
  case encode =>
    dsimp only
    split
    · exact fails _
    split
    · exact ⟨_, .rebuilt s _, .failed ..⟩
    · exact ⟨_, .rebuilt s _, .finishOutput ..⟩
  case decode =>
    dsimp only
    split
    · exact fails _
    split
    · exact fails _
    next F P _ =>
      split
      · exact ⟨_, .rebuilt s F, .failed ..⟩
      · next R hR =>
        refine ⟨_, .rebuilt s F, .delivered _ ?_⟩
        rw [(rebuild_kept _).1.cfg]
        exact unpack_ok_length hR

/-- A move of the engine: a command, or the report of an illegal word (R253, R256). -/
def EngineMove (s t : State) : Prop :=
  (∃ i u, TableEffect s u ∧ CommandEnd i u t) ∨ t = s.report ErrorCode.illegalCommand.num

theorem engineStep_inversion {s t : State} (h : s.engineStep = .next t) : EngineMove s t := by
  unfold State.engineStep at h
  split at h
  · next i _ => exact .inl ⟨i, exec_inversion h⟩
  · exact .inr (Host.Outcome.next.inj h).symm

/-- A move of the host or the platform: none, a transaction, a read of STATUS for WAIT, or a hard reset (R61, R97,
R293, R300). -/
def HostMove (s t : State) : Prop :=
  t = s ∨ (∃ x rest, s.host = .txn x :: rest ∧ t = (s.advanceHost rest).transact x) ∨
    (∃ rest addr n, t = (s.advanceHost rest).transact (.read addr n)) ∨
    ∃ rest, s.host = .hardReset :: rest ∧ t = (s.advanceHost rest).hardReset

theorem hostStep_inversion {s t : State} (h : s.hostStep = .next t) : HostMove s t := by
  unfold State.hostStep at h
  split at h
  · exact .inl (Host.Outcome.next.inj h).symm
  · next x rest hh => exact .inr (.inl ⟨x, rest, hh, (Host.Outcome.next.inj h).symm⟩)
  · exact .inr (.inr (.inl ⟨_, _, _, (Host.Outcome.next.inj h).symm⟩))
  · next rest hh => exact .inr (.inr (.inr ⟨rest, hh, (Host.Outcome.next.inj h).symm⟩))
  · cases h

/-- Everything a step can do (R74). -/
theorem step_inversion {s t : State} (h : step s = .next t) :
    (s.engineTurn = true ∧ EngineMove s t) ∨ HostMove s t := by
  unfold step at h
  split at h
  · next ht => exact .inl ⟨ht, engineStep_inversion h⟩
  · exact .inr (hostStep_inversion h)

/-- A control register is accessed at its offset, in 4 bytes (R63, R64). -/
theorem decodeAccess_reg_inv {cfg : Params} {a n : Nat} {r : CtrlReg} (h : decodeAccess cfg a n = .ok (.reg r)) :
    a = r.offset ∧ n = 4 := by
  obtain ⟨-, ha, hl, hn, -⟩ := decodeAccess_facts h
  obtain rfl : n = 4 := by simpa [Loc.allows] using hn
  exact ⟨locate_reg hl ha, rfl⟩

/-- Everything a transaction can do, each effect with the write that has it (R62, R69, R250, R251, R257, R258). -/
theorem transact_inversion (s : State) (x : Txn) :
    (∃ st e il ib r n, s.transact x =
        { s with status := st, irqEn := e, inLen := il, inBuf := ib, resp := r, draws := n } ∧
      (st.overrun = s.status.overrun ∨ st.overrun = true ∨
        ∃ d : Word, x = .write (s.cfg.blockBase + 0x010) 4 d ∧ d.getLsbD 3 = true)) ∨
    (∃ (d : Word) (r : Option Response), x = .write (s.cfg.blockBase + 0x008) 4 d ∧ d.getLsbD 1 = true ∧
      s.transact x = { s.softReset with resp := r }) ∨
    (∃ w r, s.transact x = { s.issue w with resp := r }) ∨
    ∃ F r, s.transact x = { s.putFreq F with resp := r } := by
  obtain ⟨r, n, e⟩ | ⟨a, n, d, l, r, rfl, hl, e⟩ := transact_cases s x
  · exact .inl ⟨s.status, s.irqEn, s.inLen, s.inBuf, r, n, e, .inl rfl⟩
  rw [e]
  obtain ⟨st, q, il, ib, e', ho⟩ | ⟨rfl, hd, e'⟩ | ⟨w, e'⟩ | ⟨F, e'⟩ := store_cases s l n d <;> rw [e']
  · refine .inl ⟨st, q, il, ib, r, s.draws, rfl, ho.imp_right (Or.imp_right ?_)⟩
    rintro ⟨rfl, hd⟩
    obtain ⟨rfl, rfl⟩ := decodeAccess_reg_inv hl
    exact ⟨d, rfl, hd⟩
  · obtain ⟨rfl, rfl⟩ := decodeAccess_reg_inv hl
    exact .inr (.inl ⟨d, r, rfl, hd, rfl⟩)
  · exact .inr (.inr (.inl ⟨w, r, rfl⟩))
  · exact .inr (.inr (.inr ⟨F, r, rfl⟩))

end Sys2Proof.Machine

/-! ### The invariant -/

namespace Sys2Proof.Machine

theorem TableEffect.inv {s u : State} (h : TableEffect s u) (hs : s.Inv) : u.Inv := by
  obtain rfl | ⟨F, rfl⟩ | ⟨N, hN, rfl⟩ | ⟨ht, rfl⟩ | ⟨F, rfl⟩ := h
  · exact hs
  · exact hs.putFreq F
  · exact hs.putTree hN
  · exact hs.putCodes ht
  · exact (hs.putFreq F).rebuild

theorem CommandEnd.inv {i : Instr} {u t : State} (h : CommandEnd i u t) (hu : u.Inv) : t.Inv := by
  obtain ⟨e, rfl⟩ | rfl | ⟨R, hR, rfl⟩ := h
  · exact hu.raise i e
  · exact hu.succeed
  · exact (hu.putOutput R hR).succeed

theorem EngineMove.inv {s t : State} (h : EngineMove s t) (hs : s.Inv) : t.Inv := by
  obtain ⟨i, u, hu, ht⟩ | rfl := h
  · exact ht.inv (hu.inv hs)
  · exact hs.report _ (ErrorCode.num_le _)

theorem State.Inv.setIrqEn {s : State} (h : s.Inv) (b : Bool) : { s with irqEn := b }.Inv :=
  ⟨h.params, { h.buffers with }, { h.protocol with }, h.errorCode, { h.validity with }, { h.draws with }⟩

theorem State.Inv.setInLen {s : State} (h : s.Inv) (d : Word) : { s with inLen := d }.Inv :=
  ⟨h.params, { h.buffers with }, { h.protocol with }, h.errorCode, { h.validity with }, { h.draws with }⟩

/-- Bytes written below IN_CAP keep the invariant (R80). -/
theorem State.Inv.writeInBuf {s : State} (h : s.Inv) (a : Nat) (bs : List Byte) (hb : a + bs.length ≤ s.cfg.inCap) :
    { s with inBuf := s.inBuf.writeBytes a bs }.Inv where
  params := h.params
  buffers :=
    { h.buffers with
      inForm := Memory.writeBytes_wf bs a h.buffers.inForm
      inRange := fun c hc => by
        obtain hc | hc := Memory.mem_writeBytes hc
        · show c.1 < s.cfg.inCap
          omega
        · exact h.buffers.inRange c hc }
  protocol := { h.protocol with }
  errorCode := h.errorCode
  validity := { h.validity with }
  draws := { h.draws with }

theorem busBytes_length (d : Word) {n : Nat} (hn : n = 1 ∨ n = 4) : (busBytes d n).length = n := by
  obtain rfl | rfl := hn <;> rfl

/-- A write dropped while BUSY = 1 (R251) keeps the invariant if its effect while BUSY = 0 does. -/
theorem State.Inv.overrun_or {s t : State} (h : s.Inv) (ht : t.Inv) :
    (if s.status.busy then s.overrun else t).Inv := by
  split
  · exact h.overrun
  · exact ht

/-- An OK write keeps the invariant. -/
theorem State.Inv.store {s : State} (h : s.Inv) {a n : Nat} {l : Loc} (hl : decodeAccess s.cfg a n = .ok l)
    (d : Word) : (s.store l n d).Inv := by
  cases l with
  | reg r =>
    cases r with
    | ctrl =>
      show (s.writeCtrl d).Inv
      unfold State.writeCtrl
      split
      · exact h.softReset
      · exact h.setIrqEn _
    | cmd => exact h.overrun_or (h.issue d)
    | status => exact h.acknowledge d
    | inLen => exact h.overrun_or (h.setInLen d)
    | id | version | error | outLen | nodeCount => exact h
  | freq x => exact h.overrun_or (h.putFreq _)
  | inBuf i =>
    obtain ⟨hn, -, -, -, hb⟩ := decodeAccess_facts hl
    refine h.overrun_or (h.writeInBuf i _ ?_)
    rw [busBytes_length d hn]
    simpa [Loc.backed] using hb
  | node | code | outBuf => exact h

theorem State.Inv.transact {s : State} (h : s.Inv) (x : Txn) : (s.transact x).Inv := by
  cases x with
  | read addr n =>
    simp only [State.transact]
    split
    · exact h.bookkeeping rfl le_rfl
    · split <;> exact h.bookkeeping rfl (Nat.le_succ _)
  | write addr n d =>
    simp only [State.transact]
    split
    · exact h.bookkeeping rfl le_rfl
    · split
      · exact h.bookkeeping rfl le_rfl
      · next hl => exact (h.store hl d).bookkeeping rfl le_rfl

theorem State.Inv.advanceHost {s : State} (h : s.Inv) (rest : List HostOp) : (s.advanceHost rest).Inv :=
  h.bookkeeping rfl le_rfl

theorem HostMove.inv {s t : State} (h : HostMove s t) (hs : s.Inv) : t.Inv := by
  obtain rfl | ⟨x, rest, -, rfl⟩ | ⟨rest, addr, n, rfl⟩ | ⟨rest, -, rfl⟩ := h
  · exact hs
  · exact (hs.advanceHost rest).transact x
  · exact (hs.advanceHost rest).transact _
  · exact (hs.advanceHost rest).hardReset

/-- Settles O3: each move of the engine and of the host keeps the invariant. -/
theorem everyStepKeepsTheInvariant : Obligations.EveryStepKeepsTheInvariant := by
  intro s t hs h
  obtain ⟨-, hm⟩ | hm := step_inversion h
  · exact hm.inv hs
  · exact hm.inv hs

/-- Settles O2: the machine after reset is at power on, with parameters as R7 asks. -/
theorem resetMeetsTheInvariant : Obligations.ResetMeetsTheInvariant :=
  powerOn_inv Config.params 0 config_params_wf

end Sys2Proof.Machine

/-! ### Resets -/

namespace Sys2Proof.Machine

theorem powerOn_resetValues (p : Params) (d : Nat) : ResetValues (State.powerOn p d) where
  id := rfl
  version := rfl
  irqEn := rfl
  lastCmd := rfl
  pending := rfl
  busy := rfl
  done := rfl
  err := rfl
  overrun := rfl
  treeValid := rfl
  codesValid := rfl
  errorCode := rfl
  errorOp := rfl
  inLen := rfl
  outLen := rfl
  nodeCount := rfl
  freq := fun x => by simp [Vector.get_eq_getElem]
  irq := rfl

theorem hardReset_resetValues (s : State) : ResetValues s.hardReset := { powerOn_resetValues s.cfg s.draws with }

theorem softReset_resetValues (s : State) : ResetValues s.softReset := { hardReset_resetValues s with }

theorem ResetValues.withResp {s : State} (h : ResetValues s) (r : Option Response) :
    ResetValues { s with resp := r } := { h with }

theorem powerOn_buffersAny (p : Params) (d : Nat) : BuffersAny (State.powerOn p d) d (d + 1) :=
  ⟨fun _ => rfl, fun _ => rfl⟩

/-- Settles O1: each of the three states is the power-on state but for what the reset table leaves out. -/
theorem resetLeavesTheResetTable : Obligations.ResetLeavesTheResetTable :=
  ⟨powerOn_resetValues _ _, powerOn_buffersAny _ _, fun s =>
    ⟨hardReset_resetValues s, { powerOn_buffersAny s.cfg s.draws with }, softReset_resetValues s, fun _ => rfl,
      (powerOn_buffersAny s.cfg s.draws).outByte⟩⟩

end Sys2Proof.Machine

/-! ### What every step keeps of OVERRUN, ERROR, NODE_COUNT and FREQ -/

namespace Sys2Proof.Machine

/-- The tree in the arena is the tree of FREQ. -/
def State.TreeOfFreq (s : State) : Prop := ∃ N, buildTree s.freq = some N ∧ s.holdsTree N

theorem SameTables.treeOfFreq {u t : State} (h : SameTables u t) (hu : u.TreeOfFreq) : t.TreeOfFreq := by
  obtain ⟨N, hN, hc, hn⟩ := hu
  exact ⟨N, by rw [h.freq, hN], by rw [h.nodeCount, hc], by rw [h.node]; exact hn⟩

theorem SameTables.pathCodes {u t : State} (h : SameTables u t) (hu : u.PathCodes) : t.PathCodes where
  path := by rw [h.node, h.nodeCount, h.code]; exact hu.path
  uncoded := by rw [h.freq, h.code]; exact hu.uncoded
  rightAligned := by rw [h.code]; exact hu.rightAligned

theorem putTree_treeOfFreq {s : State} {N : List Node} (h : buildTree s.freq = some N) :
    (s.putTree N).TreeOfFreq := ⟨N, h, (putTree_holdsTree s N (buildTree_length h).2.2).1⟩

/-- A rebuild either finds FREQ empty and does nothing, or leaves the tree and the codes of FREQ (R230, R236). -/
theorem rebuild_cases (s : State) : s.rebuild = s ∨
    (s.rebuild.status.treeValid = true ∧ s.rebuild.status.codesValid = true ∧ s.rebuild.TreeOfFreq ∧
      s.rebuild.PathCodes) := by
  cases hN : buildTree s.freq with
  | none => exact .inl (rebuild_none hN)
  | some N =>
    rw [rebuild_some hN]
    obtain ⟨M, hM, hh⟩ := putTree_treeOfFreq hN
    exact .inr ⟨rfl, rfl, ⟨M, hM, hh⟩, pathCodes_of_build hM hh rfl⟩

/-- A command writes NODE_COUNT only with the tree of FREQ. -/
theorem TableEffect.nodeCount {s u : State} (h : TableEffect s u) :
    u.nodeCount = s.nodeCount ∨ (u.status.treeValid = true ∧ u.TreeOfFreq) := by
  obtain rfl | ⟨F, rfl⟩ | ⟨N, hN, rfl⟩ | ⟨-, rfl⟩ | ⟨F, rfl⟩ := h
  · exact .inl rfl
  · exact .inl rfl
  · exact .inr ⟨rfl, putTree_treeOfFreq hN⟩
  · exact .inl rfl
  · obtain e | ⟨ht, -, hT, -⟩ := rebuild_cases (s.putFreq F)
    · exact .inl (by rw [e, putFreq_nodeCount])
    · exact .inr ⟨ht, hT⟩

/-- A command that changes FREQ clears both flags or leaves the tree and the codes of the new FREQ. -/
theorem TableEffect.freq {s u : State} (h : TableEffect s u) : u.freq = s.freq ∨
    (u.status.treeValid = false ∧ u.status.codesValid = false) ∨
    (u.status.treeValid = true ∧ u.status.codesValid = true ∧ u.TreeOfFreq ∧ u.PathCodes) := by
  obtain rfl | ⟨F, rfl⟩ | ⟨N, hN, rfl⟩ | ⟨-, rfl⟩ | ⟨F, rfl⟩ := h
  · exact .inl rfl
  · exact .inr (.inl ⟨rfl, rfl⟩)
  · exact .inl rfl
  · exact .inl rfl
  · obtain e | hb := rebuild_cases (s.putFreq F)
    · rw [e]; exact .inr (.inl ⟨rfl, rfl⟩)
    · exact .inr (.inr hb)

/-- Loading and building leave OVERRUN and CTRL as they are. -/
theorem TableEffect.kept_flags {s u : State} (h : TableEffect s u) :
    u.status.overrun = s.status.overrun ∧ u.irqEn = s.irqEn := by
  obtain rfl | ⟨F, rfl⟩ | ⟨N, hN, rfl⟩ | ⟨-, rfl⟩ | ⟨F, rfl⟩ := h
  · exact ⟨rfl, rfl⟩
  · exact ⟨rfl, rfl⟩
  · exact ⟨rfl, rfl⟩
  · exact ⟨rfl, rfl⟩
  · obtain ⟨hi, -, -, -, -, -, -, -, -, -, ho, -⟩ := rebuild_kept (s.putFreq F)
    exact ⟨ho, hi.irqEn⟩

/-- The end of a command is a completion that leaves CTRL and the register files as they are (R253). -/
theorem CommandEnd.spec {i : Instr} {u t : State} (h : CommandEnd i u t) :
    (∃ e, Completed u t e) ∧ t.irqEn = u.irqEn ∧ SameTables u t := by
  obtain ⟨e, rfl⟩ | rfl | ⟨R, -, rfl⟩ := h
  · obtain ⟨hc, hi, ht, -⟩ := raise_spec u i e
    exact ⟨⟨_, hc⟩, hi.irqEn, ht⟩
  · obtain ⟨hc, hi, -, ht⟩ := report_spec u 0
    exact ⟨⟨_, hc⟩, hi.irqEn, ht⟩
  · obtain ⟨hc, -, -, ht⟩ := report_spec (u.putOutput R) 0
    exact ⟨⟨0, { hc with }⟩, rfl, { ht with }⟩

/-- A move of the engine keeps OVERRUN, and its effect on the register files is that of a command. -/
theorem EngineMove.tables {s t : State} (h : EngineMove s t) :
    t.status.overrun = s.status.overrun ∧ ∃ u, TableEffect s u ∧ SameTables u t := by
  obtain ⟨i, u, hu, ht⟩ | rfl := h
  · obtain ⟨⟨e, hc⟩, -, hT⟩ := ht.spec
    exact ⟨hc.overrun.trans hu.kept_flags.1, u, hu, hT⟩
  · exact ⟨rfl, s, .kept s, (report_spec s _).2.2.2⟩

/-- OVERRUN falls at a transaction only by its acknowledge or a soft reset (R30). -/
theorem transact_overrun {s : State} (x : Txn) (hs : s.status.overrun = true) :
    (s.transact x).status.overrun = true ∨
    (∃ d : Word, x = .write (s.cfg.blockBase + 0x010) 4 d ∧ d.getLsbD 3 = true) ∨
    ∃ d : Word, x = .write (s.cfg.blockBase + 0x008) 4 d ∧ d.getLsbD 1 = true := by
  obtain ⟨st, q, il, ib, r, n, e, ho⟩ | ⟨d, r, hx, hd, -⟩ | ⟨w, r, e⟩ | ⟨F, r, e⟩ := transact_inversion s x
  · rw [e]
    obtain ho | ho | ha := ho
    · exact .inl (ho.trans hs)
    · exact .inl ho
    · exact .inr (.inl ha)
  · exact .inr (.inr ⟨d, hx, hd⟩)
  · rw [e]; exact .inl hs
  · rw [e]; exact .inl hs

/-- A transaction writes ERROR and NODE_COUNT only by a soft reset (R32, R36). -/
theorem transact_error_nodeCount (s : State) (x : Txn) :
    ((s.transact x).error = s.error ∧ (s.transact x).nodeCount = s.nodeCount) ∨ ResetValues (s.transact x) := by
  obtain ⟨st, q, il, ib, r, n, e, -⟩ | ⟨d, r, -, -, e⟩ | ⟨w, r, e⟩ | ⟨F, r, e⟩ := transact_inversion s x <;> rw [e]
  · exact .inl ⟨rfl, rfl⟩
  · exact .inr ((softReset_resetValues s).withResp r)
  · exact .inl ⟨rfl, rfl⟩
  · exact .inl ⟨rfl, rfl⟩

/-- A transaction that writes FREQ clears both flags (R42). -/
theorem transact_freq (s : State) (x : Txn) : (s.transact x).freq = s.freq ∨
    ((s.transact x).status.treeValid = false ∧ (s.transact x).status.codesValid = false) := by
  obtain ⟨st, q, il, ib, r, n, e, -⟩ | ⟨d, r, -, -, e⟩ | ⟨w, r, e⟩ | ⟨F, r, e⟩ := transact_inversion s x <;> rw [e]
  · exact .inl rfl
  · exact .inr ⟨rfl, rfl⟩
  · exact .inl rfl
  · exact .inr ⟨rfl, rfl⟩

/-- A read keeps STATUS. -/
theorem transact_read_status (s : State) (addr n : Nat) : (s.transact (.read addr n)).status = s.status := by
  simp only [State.transact]
  split
  · rfl
  · split <;> rfl

/-- Settles O57: the engine keeps OVERRUN, and so does a host step that is no reset and no acknowledge. -/
theorem overrunIsSticky : Obligations.OverrunIsSticky := by
  intro s t hs h ht
  have not_kept : t.status.overrun ≠ s.status.overrun := by rw [hs, ht]; exact Bool.false_ne_true
  obtain ⟨-, hm⟩ | hm := step_inversion h
  · exact absurd hm.tables.1 not_kept
  obtain rfl | ⟨x, rest, hh, rfl⟩ | ⟨rest, addr, n, rfl⟩ | ⟨rest, hh, rfl⟩ := hm
  · exact absurd rfl not_kept
  · refine ⟨rest, ?_⟩
    obtain ho | ⟨d, rfl, hd⟩ | ⟨d, rfl, hd⟩ := transact_overrun (s := s.advanceHost rest) x hs
    · exact absurd (ho.trans hs.symm) not_kept
    · exact .inr (.inl ⟨d, hh, hd⟩)
    · exact .inr (.inr ⟨d, hh, hd⟩)
  · exact absurd (congrArg Status.overrun (transact_read_status (s.advanceHost rest) addr n)) not_kept
  · exact ⟨rest, .inl hh⟩

/-- A move of the host keeps ERROR and NODE_COUNT, or leaves the reset table. -/
theorem HostMove.error_nodeCount {s t : State} (h : HostMove s t) :
    (t.error = s.error ∧ t.nodeCount = s.nodeCount) ∨ ResetValues t := by
  obtain rfl | ⟨x, rest, -, rfl⟩ | ⟨rest, addr, n, rfl⟩ | ⟨rest, -, rfl⟩ := h
  · exact .inl ⟨rfl, rfl⟩
  · exact transact_error_nodeCount (s.advanceHost rest) x
  · exact transact_error_nodeCount (s.advanceHost rest) _
  · exact .inr (hardReset_resetValues _)

/-- Settles O58: the engine writes NODE_COUNT with the tree of FREQ, and a host step that writes ERROR or NODE_COUNT is
a reset. -/
theorem errorAndNodeCountChangeAtCompletions : Obligations.ErrorAndNodeCountChangeAtCompletions := by
  intro s t h
  obtain ⟨hturn, hm⟩ | hm := step_inversion h
  · refine ⟨fun _ => .inl hturn, fun hne => .inr ?_⟩
    obtain ⟨-, u, hu, hT⟩ := hm.tables
    obtain e | ⟨htv, htree⟩ := hu.nodeCount
    · exact absurd (hT.nodeCount.trans e) hne
    · exact ⟨hturn, hT.treeValid.trans htv, hT.treeOfFreq htree⟩
  · obtain ⟨he, hn⟩ | hr := hm.error_nodeCount
    · exact ⟨fun hne => absurd he hne, fun hne => absurd hn hne⟩
    · exact ⟨fun _ => .inr hr, fun _ => .inl hr⟩

/-- A move of the host that changes FREQ clears both flags. -/
theorem HostMove.freq {s t : State} (h : HostMove s t) :
    t.freq = s.freq ∨ (t.status.treeValid = false ∧ t.status.codesValid = false) := by
  obtain rfl | ⟨x, rest, -, rfl⟩ | ⟨rest, addr, n, rfl⟩ | ⟨rest, -, rfl⟩ := h
  · exact .inl rfl
  · exact transact_freq (s.advanceHost rest) x
  · exact transact_freq (s.advanceHost rest) _
  · exact .inr ⟨rfl, rfl⟩

/-- Settles O59: the effect of a command on the register files, or of a host write of FREQ. -/
theorem validFlagsSurviveNoFreqChange : Obligations.ValidFlagsSurviveNoFreqChange := by
  intro s t h hne
  obtain ⟨hturn, hm⟩ | hm := step_inversion h
  · obtain ⟨-, u, hu, hT⟩ := hm.tables
    obtain e | ⟨htv, hcv⟩ | ⟨htv, hcv, htree, hpath⟩ := hu.freq
    · exact absurd (hT.freq.trans e) hne
    · exact .inl ⟨hT.treeValid.trans htv, hT.codesValid.trans hcv⟩
    · exact .inr ⟨hturn, hT.treeValid.trans htv, hT.codesValid.trans hcv, hT.pathCodes hpath, hT.treeOfFreq htree⟩
  · exact .inl (hm.freq.resolve_left hne)

end Sys2Proof.Machine

/-! ### Accesses while the block is idle -/

namespace Sys2Proof.Machine

/-- Settles O39: BUSY does not matter to the two constants. -/
theorem identityRegistersAreConstant : Obligations.IdentityRegistersAreConstant := by
  intro s
  rw [transact_read_reg s 0x000 (by omega) (by omega), transact_read_reg s 0x004 (by omega) (by omega)]
  exact ⟨rfl, rfl⟩

/-- An idle write of IN_LEN (R33). -/
theorem store_inLen_idle {s : State} (hb : s.status.busy = false) (n : Nat) (d : Word) :
    s.store (.reg .inLen) n d = { s with inLen := d } := by
  simp [State.store, hb]

/-- An idle write of CMD (R250). -/
theorem store_cmd_idle {s : State} (hb : s.status.busy = false) (n : Nat) (w : Word) :
    s.store (.reg .cmd) n w = s.issue w := by
  simp [State.store, hb]

/-- An idle write of a FREQ entry (R42). -/
theorem store_freq_idle {s : State} (hb : s.status.busy = false) (x : Fin 256) (n : Nat) (d : Word) :
    s.store (.freq x) n d = s.putFreq (s.freq.set x.val d x.isLt) := by
  simp [State.store, hb]

/-- Settles O42: the write and then the read, each at the register's offset. -/
theorem inLenHoldsWhatIsWritten : Obligations.InLenHoldsWhatIsWritten := by
  intro s d hb t
  have ht : t = { s with inLen := d, resp := some .writeOk } := by
    rw [show t = _ from transact_write_reg s 0x018 d (by omega) (by omega), show CtrlReg.at 0x018 = .inLen from rfl,
      store_inLen_idle hb]
  refine ⟨ht, ?_⟩
  rw [transact_read_reg t 0x018 (by omega) (by omega), ht]
  rfl

/-- The transaction that writes a FREQ entry of an idle block (R42). -/
theorem transact_write_freq_idle {s : State} (hb : s.status.busy = false) (x : Fin 256) (d : Word) :
    s.transact (.write (s.cfg.blockBase + (0x1000 + 4 * x.val)) 4 d) =
      { s.putFreq (s.freq.set x.val d x.isLt) with resp := some .writeOk } := by
  rw [transact_write (by omega) (decodeAccess_freq s.cfg x), store_freq_idle hb]

/-- Settles O43: an idle write of FREQ is putFreq with one entry set. -/
theorem freqWritesInvalidate : Obligations.FreqWritesInvalidate := by
  intro s x y d hb t
  have ht := transact_write_freq_idle hb x d
  have hf : t.freq = s.freq.set x.val d x.isLt := congrArg State.freq ht
  refine ⟨?_, fun hne => ?_, ?_⟩
  · rw [hf, Vector.get_eq_getElem, Vector.getElem_set_self]
  · rw [hf, Vector.get_eq_getElem, Vector.get_eq_getElem, Vector.getElem_set_ne]
    exact fun e => hne (Fin.ext e.symm)
  · rw [hf]; exact ht

/-- The interrupt output after an idle write of CMD (R286). -/
theorem irq_issue (s : State) (w : Word) : (s.issue w).irq = false := Bool.and_false _

/-- The interrupt output after DONE is cleared (R286). -/
theorem irq_acknowledge (s : State) {d : Word} (h : d.getLsbD 1 = true) : (s.acknowledge d).irq = false := by
  simp [State.irq, h]

/-- The interrupt output after a completion (R286). -/
theorem irq_exec {i : Instr} {s t : State} (h : exec i s = .next t) : t.irq = s.irqEn := by
  obtain ⟨u, hu, ht⟩ := exec_inversion h
  obtain ⟨⟨e, hc⟩, hi, -⟩ := ht.spec
  rw [State.irq, hc.done, hi, hu.kept_flags.2, Bool.and_true]

/-- Settles O49: a completion sets DONE, an issue and an acknowledge clear it. -/
theorem irqFollowsEnableAndDone : Obligations.IrqFollowsEnableAndDone := by
  refine ⟨fun s => ?_, fun s t i => irq_exec, fun s w hb => ?_, fun s d hd => ?_⟩
  · rw [State.irq, Bool.and_eq_true]
  · rw [transact_write_reg s 0x00C w (by omega) (by omega)]
    rw [show CtrlReg.at 0x00C = .cmd from rfl, store_cmd_idle hb]
    exact irq_issue s w
  · rw [transact_write_reg s 0x010 d (by omega) (by omega)]
    exact irq_acknowledge s hd

theorem ctrlWord_toNat (b : Bool) : (ctrlWord b).toNat = b.toNat := by cases b <;> rfl

/-- A read of the STATUS register while BUSY = 0 (R26). -/
theorem readReg_status_idle {s : State} (hb : s.status.busy = false) : s.readReg .status = s.status.word := by
  simp [State.readReg, hb]

/-- A read of OUT_BUF while BUSY = 0 (R40). -/
theorem load_outBuf_idle {s : State} (hb : s.status.busy = false) (i n : Nat) :
    s.load (.outBuf i) n = busData s.outByte i n := by
  simp [State.load, hb]

/-- Settles O51: each read is that of its register or buffer, whose layout Laws/Bus gives. -/
theorem idleReadsShowTheRegistersAndBuffers : Obligations.IdleReadsShowTheRegistersAndBuffers := by
  intro s hcfg hb rd
  have reg {a : Nat} {ok : Word → Prop} (ha : a < 0x24) (h4 : a % 4 = 0) (h : ok (s.readReg (CtrlReg.at a))) :
      rd a 4 ok := ⟨_, by rw [transact_read_reg s a ha h4], h⟩
  have buf {a n : Nat} {l : Loc} {ok : Word → Prop} (ha : a < 2 ^ 26) (hl : decodeAccess s.cfg a n = .ok l)
      (h : ok (s.load l n)) : rd a n ok := ⟨_, by rw [transact_read ha hl], h⟩
  obtain ⟨⟨-, hin⟩, ⟨-, hout⟩, -⟩ := hcfg
  refine ⟨reg (by omega) rfl (ctrlWord_toNat _), reg (by omega) rfl rfl, reg (by omega) rfl ?_,
    reg (by omega) rfl (error_word_toNat _), fun i hi => ?_, fun i h4 hi => ?_, fun i hi => ?_, fun i h4 hi => ?_⟩
  · rw [show CtrlReg.at 0x010 = .status from rfl, readReg_status_idle hb, status_word_toNat, hb, Bool.toNat_false,
      Nat.zero_add]
  · exact buf (by omega) (decodeAccess_inBuf _ i 1 (.inl rfl) hi hin) (busData_byte _ _)
  · exact buf (by omega) (decodeAccess_inBuf _ i 4 (.inr ⟨rfl, h4⟩) hi hin) (wordOf_leWord _ _)
  · refine buf (by omega) (decodeAccess_outBuf _ i 1 (.inl rfl) hi hout) ?_
    rw [load_outBuf_idle hb]
    exact busData_byte _ _
  · refine buf (by omega) (decodeAccess_outBuf _ i 4 (.inr ⟨rfl, h4⟩) hi hout) ?_
    rw [load_outBuf_idle hb]
    exact wordOf_leWord _ _

/-- A read of a NODE word that holds no node of a valid tree is a free draw (R37, U4). -/
theorem transact_read_node_invalid {s : State} (i : Fin 511) (w : Fin 4)
    (h : s.status.treeValid = false ∨ s.nodeCount.toNat ≤ i.val) :
    s.transact (.read (s.cfg.blockBase + (0x2000 + 16 * i.val + 4 * w.val)) 4) =
      { s with resp := some (.readOk (s.anyRead (nodeMask w))), draws := s.draws + 1 } := by
  have hl : s.load (.node i w) 4 = s.anyRead (nodeMask w) := by
    obtain h | h := h <;> simp [State.load, h]
  rw [transact_read (by omega) (decodeAccess_node s.cfg i w), hl]

/-- A read of a CODE word while CODES_VALID = 0 is a free draw (R38, U5). -/
theorem transact_read_code_invalid {s : State} (x : Fin 256) (w : Fin 16) (h : s.status.codesValid = false) :
    s.transact (.read (s.cfg.blockBase + (0x4000 + 64 * x.val + 4 * w.val)) 4) =
      { s with resp := some (.readOk (s.anyRead (codeMask w))), draws := s.draws + 1 } := by
  have hl : s.load (.code x w) 4 = s.anyRead (codeMask w) := by simp [State.load, h]
  rw [transact_read (by omega) (decodeAccess_code s.cfg x w), hl]

theorem nodeMask_eq_getD (w : Fin 4) :
    nodeMask w = [0xFFFFFFFF, 0x000000FF, 0x800000FF, 0x01FF01FF].getD w.val 0 := by
  fin_cases w <;> rfl

/-- Settles O52: the invalid windows read as free draws, whose masks are those of the record words. -/
theorem invalidWindowsReadFree : Obligations.InvalidWindowsReadFree := by
  intro s _ free
  refine ⟨fun i w h => ?_, fun hc x => ?_⟩
  · rw [← nodeMask_eq_getD]
    exact transact_read_node_invalid i w h
  · have word (w : Fin 16) : free (0x4000 + 64 * x.val + 4 * w.val) (codeMask w) := transact_read_code_invalid x w hc
    refine ⟨word 0, fun k h1 h7 => ?_, ?_, fun k h9 h15 => ?_⟩
    · have e : codeMask ⟨k, by omega⟩ = 0xFFFFFFFF := by
        rw [codeMask, if_neg (by simp only; omega), if_pos h7]
      rw [← e]
      exact word ⟨k, by omega⟩
    · have e : 0x4020 + 64 * x.val = 0x4000 + 64 * x.val + 4 * 8 := by omega
      rw [e]
      exact word 8
    · have e : codeMask ⟨k, by omega⟩ = 0 := by
        rw [codeMask, if_neg (by simp only; omega), if_neg (by simp only; omega), if_neg (by simp only; omega)]
      rw [← e]
      exact word ⟨k, by omega⟩

end Sys2Proof.Machine

/-! ### Which transactions reach the block

A transaction goes one of three ways: past the block, to an ERROR response, or to a location. -/

namespace Sys2Proof.Machine

/-- A host address outside the block has no offset (R61). -/
theorem offsetOf_foreign {cfg : Params} {addr : Nat} (h : addr < cfg.blockBase ∨ cfg.blockBase + 2 ^ 26 ≤ addr) :
    offsetOf cfg addr = none := by
  unfold offsetOf Config.spaceSize
  exact if_neg (by omega)

/-- Settles O36: without an offset, a transaction only clears the port's response. -/
theorem foreignAddressesDoNotReachTheBlock : Obligations.ForeignAddressesDoNotReachTheBlock := by
  intro s t h
  have e : s.transact t = { s with resp := none } := by
    cases t with
    | read addr n => simp only [State.transact, offsetOf_foreign (h addr n 0 (.inl rfl))]
    | write addr n d => simp only [State.transact, offsetOf_foreign (h addr n d (.inr rfl))]
  rw [e]
  exact ⟨rfl, rfl⟩

/-- Settles O37: of all transactions only an OK write changes more than the response and the draw counter. -/
theorem readsHaveNoSideEffects : Obligations.ReadsHaveNoSideEffects := by
  intro s addr n
  obtain ⟨r, k, e⟩ | ⟨a, m, d, l, r, hx, -⟩ := transact_cases s (.read addr n)
  · rw [e]
    rfl
  · cases hx

/-- An access that is not legal fails its decode, with a reason (R62). -/
theorem decodeAccess_of_not_legal {cfg : Params} {a n : Nat} (h : ¬ LegalAccess cfg a n) :
    ∃ e, decodeAccess cfg a n = .error e := by
  cases hd : decodeAccess cfg a n with
  | error e => exact ⟨e, rfl⟩
  | ok l => exact absurd ((legalAccess_iff cfg a n).2 ⟨l, hd⟩) h

/-- A read that fails its decode gives the reason and a free value (R65). -/
theorem transact_read_error {s : State} {a n : Nat} {e : BusFault} (h : a < 2 ^ 26)
    (hd : decodeAccess s.cfg a n = .error e) : s.transact (.read (s.cfg.blockBase + a) n) =
      { s with resp := some (.readError e (s.anyRead 0xFFFFFFFF)), draws := s.draws + 1 } := by
  simp only [State.transact, offsetOf_block _ _ h, hd]

/-- A write that fails its decode gives the reason and does nothing (R65). -/
theorem transact_write_error {s : State} {a n : Nat} {e : BusFault} {d : Word} (h : a < 2 ^ 26)
    (hd : decodeAccess s.cfg a n = .error e) :
    s.transact (.write (s.cfg.blockBase + a) n d) = { s with resp := some (.writeError e) } := by
  simp only [State.transact, offsetOf_block _ _ h, hd]

/-- Settles O35: a legal access decodes to a location, any other to the reason of its ERROR response. -/
theorem illegalAccessesRespondError : Obligations.IllegalAccessesRespondError := by
  intro s a n d ha
  refine ⟨fun hlegal => ?_, fun hillegal => ?_⟩
  · obtain ⟨l, hl⟩ := (legalAccess_iff s.cfg a n).1 hlegal
    rw [transact_read ha hl, transact_write ha hl]
    exact ⟨⟨_, rfl⟩, rfl⟩
  · obtain ⟨e, he⟩ := decodeAccess_of_not_legal hillegal
    rw [transact_read_error ha he, transact_write_error ha he]
    exact ⟨⟨e, _, rfl⟩, ⟨e, rfl⟩, rfl, rfl⟩

/-! ### Writes to read-only locations -/

/-- The offsets of a location's region (R70). -/
def Loc.InRegion : Loc → Nat → Prop
  | .reg _, a => a < 0x24
  | .freq _, a => 0x1000 ≤ a ∧ a < 0x1400
  | .node _ _, a => 0x2000 ≤ a ∧ a < 0x3FF0
  | .code _ _, a => 0x4000 ≤ a ∧ a < 0x8000
  | .inBuf _, a => 0x1000000 ≤ a ∧ a < 0x2000000
  | .outBuf _, a => 0x2000000 ≤ a ∧ a < 0x3000000

theorem locate_inRegion {a : Nat} {l : Loc} (h : locate a = some l) : l.InRegion a := by
  unfold locate at h
  split_ifs at h <;> obtain rfl := Option.some.inj h <;> simp only [Loc.InRegion] <;> omega

/-- Settles O38: a writable location has another offset, and a write to any other location stores nothing. -/
theorem writesToReadOnlyLocationsDoNothing : Obligations.WritesToReadOnlyLocationsDoNothing := by
  intro s a n d hlegal ha
  obtain ⟨l, hl⟩ := (legalAccess_iff s.cfg a n).1 hlegal
  obtain ⟨-, -, hloc, -, -⟩ := decodeAccess_facts hl
  have hout : a ≤ 0x20 ∨ (0x2000 ≤ a ∧ a < 0x8000) ∨ 0x2000000 ≤ a :=
    ha.imp_left fun h => by simp at h; omega
  have ha26 : a < 2 ^ 26 := by unfold LegalAccess at hlegal; omega
  have hstore : s.store l n d = s := by
    cases l with
    | reg r =>
      obtain ⟨rfl, -⟩ := decodeAccess_reg_inv hl
      cases r with
      | ctrl | cmd | status | inLen => exact absurd ha (by decide)
      | id | version | error | outLen | nodeCount => rfl
    | freq x =>
      have hr : 0x1000 ≤ a ∧ a < 0x1400 := locate_inRegion hloc
      omega
    | inBuf i =>
      have hr : 0x1000000 ≤ a ∧ a < 0x2000000 := locate_inRegion hloc
      omega
    | node | code | outBuf => rfl
  rw [transact_write ha26 hl, hstore]

end Sys2Proof.Machine

/-! ### IN_BUF while the block is idle -/

namespace Sys2Proof.Machine

/-- An idle write of IN_BUF (R39). -/
theorem store_inBuf_idle {s : State} (hb : s.status.busy = false) (i n : Nat) (d : Word) :
    s.store (.inBuf i) n d = { s with inBuf := s.inBuf.writeBytes i (busBytes d n) } := by
  simp [State.store, hb]

/-- The transaction that writes IN_BUF of an idle block, in either size. -/
theorem transact_write_inBuf_idle {s : State} (hb : s.status.busy = false) (hcap : s.cfg.inCap ≤ 2 ^ 24) {i n : Nat}
    (d : Word) (hn : n = 1 ∨ (n = 4 ∧ i % 4 = 0)) (hi : i + n ≤ s.cfg.inCap) :
    s.transact (.write (s.cfg.blockBase + (0x1000000 + i)) n d) =
      { s with inBuf := s.inBuf.writeBytes i (busBytes d n), resp := some .writeOk } := by
  rw [transact_write (by omega) (decodeAccess_inBuf _ i n hn hi hcap), store_inBuf_idle hb]

/-- The response to a read of IN_BUF, in either size. -/
theorem transact_read_inBuf_resp {s : State} (hcap : s.cfg.inCap ≤ 2 ^ 24) {i n : Nat}
    (hn : n = 1 ∨ (n = 4 ∧ i % 4 = 0)) (hi : i + n ≤ s.cfg.inCap) :
    (s.transact (.read (s.cfg.blockBase + (0x1000000 + i)) n)).resp = some (.readOk (busData s.inByte i n)) := by
  rw [transact_read (by omega) (decodeAccess_inBuf _ i n hn hi hcap)]
  rfl

/-- The bytes of IN_BUF after a byte sequence has been written from index i on. -/
theorem inByte_writeBytes {s t : State} (hw : s.inBuf.wf) {i : Nat} {bs : List Byte}
    (hbuf : t.inBuf = s.inBuf.writeBytes i bs) (hdraw : t.inDraw = s.inDraw) (a : Nat) :
    t.inByte a = if a < i ∨ i + bs.length ≤ a then s.inByte a else bs.getD (a - i) 0 := by
  rw [State.inByte, State.inByte, hbuf, hdraw, Memory.read?_writeBytes _ _ _ _ hw]
  by_cases ha : a < i ∨ i + bs.length ≤ a
  · rw [if_pos ha, if_neg (by omega)]
  · rw [if_neg ha, if_pos (by omega), List.getD_eq_getElem?_getD,
      List.getElem?_eq_getElem (show a - i < bs.length by omega)]
    rfl

/-- The bytes of write data, the lowest address first (R66). -/
theorem busBytes_getD (d : Word) {n k : Nat} (hn : n = 1 ∨ n = 4) (hk : k < n) :
    (busBytes d n).getD k 0 = leByte d k := by
  obtain rfl | rfl := hn <;> interval_cases k <;> rfl

/-- What an idle write of IN_BUF does, in either size: its bytes, nothing else, and what a read of them returns. -/
theorem write_inBuf_spec {s t : State} {i n : Nat} {d : Word} (hs : s.Inv) (hb : s.status.busy = false)
    (hn : n = 1 ∨ (n = 4 ∧ i % 4 = 0)) (hi : i + n ≤ s.cfg.inCap)
    (ht : t = s.transact (.write (s.cfg.blockBase + (0x1000000 + i)) n d)) :
    (∀ k, k < n → t.inByte (i + k) = leByte d k) ∧ (∀ a, a < i ∨ i + n ≤ a → t.inByte a = s.inByte a) ∧
    t = { s with inBuf := t.inBuf, resp := some .writeOk } ∧
    (t.transact (.read (s.cfg.blockBase + (0x1000000 + i)) n)).resp = some (.readOk (busData t.inByte i n)) := by
  obtain ⟨⟨-, hcap⟩, -, -⟩ := hs.params
  rw [transact_write_inBuf_idle hb hcap d hn hi] at ht
  have hcfg : t.cfg = s.cfg := by rw [ht]
  have hbuf : t.inBuf = s.inBuf.writeBytes i (busBytes d n) := by rw [ht]
  have hn' : n = 1 ∨ n = 4 := hn.imp_right And.left
  have hbytes := inByte_writeBytes hs.buffers.inForm hbuf (show t.inDraw = s.inDraw by rw [ht])
  rw [busBytes_length d hn'] at hbytes
  refine ⟨fun k hk => ?_, fun a ha => ?_, ?_, ?_⟩
  · rw [hbytes, if_neg (by omega), Nat.add_sub_cancel_left, busBytes_getD d hn' hk]
  · rw [hbytes, if_pos ha]
  · rw [ht]
  · rw [← hcfg, transact_read_inBuf_resp (hcfg ▸ hcap) hn (hcfg ▸ hi)]

/-- Settles O40: the bytes of the data stand from index i on, and a read puts the same bytes together again. -/
theorem inBufWritesAreLittleEndian : Obligations.InBufWritesAreLittleEndian := by
  intro s i d hs hb
  refine ⟨fun h4 hi => ?_, fun hi => ?_⟩
  · intro t
    obtain ⟨hin, hkept, hframe, hread⟩ := write_inBuf_spec (t := t) hs hb (.inr ⟨rfl, h4⟩) hi rfl
    have h0 : t.inByte i = leByte d 0 := hin 0 (by omega)
    have h1 := hin 1 (by omega)
    have h2 := hin 2 (by omega)
    have h3 := hin 3 (by omega)
    have hdata : busData t.inByte i 4 = d := by rw [busData, if_neg (by omega), h0, h1, h2, h3, leWord_leByte]
    exact ⟨h0, h1, h2, h3, hkept, hframe, hdata ▸ hread⟩
  · intro t
    obtain ⟨hin, hkept, hframe, hread⟩ := write_inBuf_spec (t := t) hs hb (.inl rfl) hi rfl
    have h0 : t.inByte i = leByte d 0 := hin 0 (by omega)
    have hdata : busData t.inByte i 1 = (leByte d 0).setWidth 32 := by rw [busData, if_pos rfl, h0]
    exact ⟨h0, fun a ha => hkept a (by omega), hframe, hdata ▸ hread⟩

end Sys2Proof.Machine

/-! ### The host's steps -/

namespace Sys2Proof.Machine

/-- A host with nothing left leaves the state as it is (60_exceptions.md R293). -/
theorem hostStep_nil {s : State} (h : s.host = []) : s.hostStep = .next s := by
  unfold State.hostStep
  rw [h]

/-- Settles O60: the step is the host's, and Laws/Steps says what the host does with each item. -/
theorem hostStepsAreTransactions : Obligations.HostStepsAreTransactions := by
  intro s h
  rw [step_eq_hostStep h]
  exact ⟨hostStep_nil, fun _ _ => hostStep_txn, fun _ => hostStep_wait⟩

/-- The host has moved but left alone what a pending command reads and writes (R75): only its program, the port's
bookkeeping, CTRL and the flags DONE, ERR and OVERRUN may differ. -/
def OnlyHostSide (s t : State) : Prop :=
  t = { s with
    irqEn := t.irqEn
    status := { s.status with done := t.status.done, err := t.status.err, overrun := t.status.overrun }
    draws := t.draws, hostSlots := t.hostSlots, host := t.host, resp := t.resp }

theorem OnlyHostSide.refl (s : State) : OnlyHostSide s s := rfl

theorem OnlyHostSide.trans {s t u : State} (h : OnlyHostSide s t) (g : OnlyHostSide t u) : OnlyHostSide s u := by
  unfold OnlyHostSide at *
  refine g.trans ?_
  rw [h]

theorem advanceHost_onlyHostSide (s : State) (rest : List HostOp) : OnlyHostSide s (s.advanceHost rest) := rfl

/-- While BUSY = 1 an OK write is dropped, writes CTRL or acknowledges flags, or resets the block (R251, R257, R258). -/
theorem store_busy {s : State} (hb : s.status.busy = true) (l : Loc) (n : Nat) (d : Word) :
    OnlyHostSide s (s.store l n d) ∨ s.store l n d = s.softReset := by
  have dropped (t : State) : OnlyHostSide s (if s.status.busy then s.overrun else t) := by
    rw [if_pos hb]
    rfl
  cases l with
  | reg r =>
    cases r with
    | ctrl =>
      simp only [State.store, State.writeCtrl]
      split
      · exact .inr rfl
      · exact .inl rfl
    | status => exact .inl rfl
    | cmd | inLen => exact .inl (dropped _)
    | id | version | error | outLen | nodeCount => exact .inl (.refl s)
  | freq | inBuf => exact .inl (dropped _)
  | node | code | outBuf => exact .inl (.refl s)

/-- While BUSY = 1 a transaction ends the pending command by a soft reset or leaves alone what it reads and writes. -/
theorem transact_busy {s : State} (hb : s.status.busy = true) (x : Txn) :
    OnlyHostSide s (s.transact x) ∨ (s.transact x).status.busy = false := by
  obtain ⟨r, k, e⟩ | ⟨a, n, d, l, r, -, -, e⟩ := transact_cases s x <;> rw [e]
  · exact .inl rfl
  · obtain h | h := store_busy hb l n d
    · exact .inl (h.trans rfl)
    · rw [h]
      exact .inr rfl

/-- The same of any move of the host or the platform. -/
theorem HostMove.busy {s t : State} (h : HostMove s t) (hb : s.status.busy = true) :
    OnlyHostSide s t ∨ t.status.busy = false := by
  have txn (rest : List HostOp) (x : Txn) :
      OnlyHostSide s ((s.advanceHost rest).transact x) ∨ ((s.advanceHost rest).transact x).status.busy = false :=
    (transact_busy (s := s.advanceHost rest) hb x).imp_left (advanceHost_onlyHostSide s rest).trans
  obtain rfl | ⟨x, rest, -, rfl⟩ | ⟨rest, addr, n, rfl⟩ | ⟨rest, -, rfl⟩ := h
  · exact .inl (.refl _)
  · exact txn rest x
  · exact txn rest _
  · exact .inr rfl

/-- A move of the engine is a completion (R253). -/
theorem EngineMove.busy {s t : State} (h : EngineMove s t) : t.status.busy = false := by
  obtain ⟨i, u, -, ht⟩ | rfl := h
  · obtain ⟨⟨e, hc⟩, -, -⟩ := ht.spec
    exact hc.busy
  · rfl

/-- Settles O54: a step after which BUSY is still 1 is no completion and no reset. -/
theorem pendingCommandsAreIsolated : Obligations.PendingCommandsAreIsolated := by
  intro s t hb h hbt
  have hrunning : t.status.busy ≠ false := by rw [hbt]; decide
  obtain ⟨-, hm⟩ | hm := step_inversion h
  · exact absurd hm.busy hrunning
  · have hside : OnlyHostSide s t := (hm.busy hb).resolve_right hrunning
    rw [hside]
    exact ⟨rfl, rfl, rfl, rfl, rfl, rfl, rfl, rfl, rfl, rfl, rfl, rfl, rfl, rfl, rfl⟩

end Sys2Proof.Machine

/-! ### The command word -/

namespace Sys2Proof

/-- RSVD is 0 exactly in the words that fit its eight low bits (R90). -/
theorem rsvdField_eq_zero_iff (w : Word) : rsvdField w = 0 ↔ w.toNat < 256 := by
  have hw := w.isLt
  rw [BitVec.toNat_eq, rsvdField, BitVec.extractLsb'_toNat, Nat.shiftRight_eq_div_pow,
    show (0 : BitVec 24).toNat = 0 from rfl]
  omega

/-- OP is the low byte (R90). -/
theorem opField_toNat (w : Word) : (opField w).toNat = w.toNat % 256 := by
  simp [opField]

/-- The word of a command has the value of its opcode (R90). -/
theorem encode_toNat (i : Instr) : (encode i).toNat = (opcode i).toNat := by
  rw [encode, BitVec.toNat_append]
  simp

/-- The rows of the opcode map pair each command with its opcode (R92). -/
theorem opcode_of_mem_opcodeMap : ∀ p ∈ opcodeMap, p.1 = opcode p.2 := by decide

/-- The opcode map finds exactly the command whose opcode it is given (R92). -/
theorem opcodeMap_lookup_iff (b : Byte) (i : Instr) : opcodeMap.lookup b = some i ↔ b = opcode i := by
  constructor
  · intro h
    obtain ⟨l₁, l₂, hmap, -⟩ := List.lookup_eq_some_iff.1 h
    exact opcode_of_mem_opcodeMap (b, i) (by simp [hmap])
  · rintro rfl
    cases i <;> rfl

/-- A word is that of a command exactly where RSVD is 0 and OP is the opcode (R90). -/
theorem eq_encode_iff (w : Word) (i : Instr) : w = encode i ↔ rsvdField w = 0 ∧ opField w = opcode i := by
  have hop := (opcode i).isLt
  rw [BitVec.toNat_eq, BitVec.toNat_eq (x := opField w), encode_toNat, opField_toNat, rsvdField_eq_zero_iff]
  omega

/-- Decode gives a command for its own word only (R91, R92). -/
theorem decode_eq_ok_iff (w : Word) (i : Instr) : decode w = .ok i ↔ w = encode i := by
  rw [eq_encode_iff, ← opcodeMap_lookup_iff, decode]
  split
  · next hr => exact iff_of_false nofun fun h => hr h.1
  · next hr =>
    rw [and_iff_right (not_not.1 hr)]
    cases opcodeMap.lookup (opField w) <;> simp

/-- Decode rejects the reserved field of the words from 256 on (R95). -/
theorem decode_eq_reservedField_iff (w : Word) : decode w = .error .reservedField ↔ 256 ≤ w.toNat := by
  rw [← Nat.not_lt, ← rsvdField_eq_zero_iff, decode]
  split
  · next hr => exact iff_of_true rfl hr
  · next hr =>
    refine iff_of_false ?_ hr
    cases opcodeMap.lookup (opField w) <;> simp

/-- The opcodes the legality test lists are those of the opcode map (R91, R92). -/
theorem opcodeMap_values :
    opcodeMap.map (fun p => p.1.toNat) = [0x01, 0x02, 0x10, 0x11, 0x12, 0x13, 0x14, 0x15, 0x16] := rfl

/-- The legal words are the words of the commands (R91). -/
theorem legalWord_iff (w : Word) : legalWord w = true ↔ ∃ i, w = encode i := by
  rw [legalWord, ← opcodeMap_values, Bool.and_eq_true, beq_iff_eq, List.contains_iff_mem, List.mem_map]
  constructor
  · rintro ⟨hr, p, hp, hop⟩
    refine ⟨p.2, BitVec.eq_of_toNat_eq ?_⟩
    rw [encode_toNat, ← opcode_of_mem_opcodeMap p hp]
    omega
  · rintro ⟨i, rfl⟩
    have hop := (opcode i).isLt
    obtain ⟨l₁, l₂, hmap, -⟩ := List.lookup_eq_some_iff.1 ((opcodeMap_lookup_iff _ i).2 rfl)
    rw [encode_toNat]
    exact ⟨by omega, (opcode i, i), by simp [hmap], by simp only; omega⟩

/-- Settles O6: the word of a command decodes to it, and fills the 32 bits of the table's words. -/
theorem decodeOfEncodeIsTheCommand : Obligations.DecodeOfEncodeIsTheCommand := by
  intro i
  have hd : decode (encode i) = .ok i := (decode_eq_ok_iff _ i).2 rfl
  refine ⟨hd, ?_⟩
  rw [decodeTableWord, Nat.mod_eq_of_lt (encode i).isLt, BitVec.ofNat_toNat, BitVec.setWidth_eq, hd]
  rfl

/-- Settles O7: a word is a command's, or has a reserved bit set, or has neither. -/
theorem onlyTheNineWordsDecode : Obligations.OnlyTheNineWordsDecode := by
  intro w
  have hlegal : legalWord w = true ↔ ∃ i, decode w = .ok i := by simp only [legalWord_iff, decode_eq_ok_iff]
  refine ⟨hlegal, fun i => (decode_eq_ok_iff w i).1, decode_eq_reservedField_iff w, ?_⟩
  rw [← Nat.not_le, ← decode_eq_reservedField_iff, ← Bool.not_eq_true, hlegal]
  cases decode w with
  | ok i => simp
  | error e => cases e <;> simp

/-- Settles O8: each word of the map is the word of its command. -/
theorem opcodeMapWords : Obligations.OpcodeMapWords :=
  have row (i : Instr) : decode (encode i) = .ok i := (decode_eq_ok_iff _ i).2 rfl
  ⟨row .encode, row .decode, row .count, row .buildTree, row .genCodes, row .pack, row .unpack, row .serTable,
    row .parseTable⟩

end Sys2Proof

/-! ### The record words of NODE and CODE -/

namespace Sys2Proof.Machine

theorem nodeWord_zero_toNat (n : Node) : (nodeWord n 0).toNat = n.f.toNat % 2 ^ 32 := by
  simp [nodeWord]

theorem nodeWord_one_toNat (n : Node) : (nodeWord n 1).toNat = n.f.toNat / 2 ^ 32 := by
  have hf := n.f.isLt
  simp only [nodeWord, BitVec.toNat_setWidth, BitVec.extractLsb'_toNat, Nat.shiftRight_eq_div_pow]
  omega

theorem flagBit_toNat (b : Bool) {k : Nat} (hk : k < 32) : (flagBit b k).toNat = b.toNat * 2 ^ k := by
  have hb := b.toNat_le
  have hp : 2 ^ k < 2 ^ 32 := Nat.pow_lt_pow_right (by omega) hk
  rw [flagBit, BitVec.toNat_ofNat, Nat.mod_eq_of_lt]
  exact lt_of_le_of_lt (Nat.mul_le_mul_right _ hb) (by omega)

theorem nodeWord_two_toNat (n : Node) : (nodeWord n 2).toNat = n.leaf.toNat * 2 ^ 31 + n.sym.toNat := by
  have hs := n.sym.isLt
  rw [nodeWord, BitVec.or_comm, BitVec.toNat_or, flagBit_toNat _ (by omega), BitVec.toNat_setWidth,
    Nat.mod_eq_of_lt (by omega), ← Nat.shiftLeft_eq, Nat.shiftLeft_add_eq_or_of_lt (by omega)]

theorem nodeWord_three_toNat (n : Node) : (nodeWord n 3).toNat = n.right.toNat * 2 ^ 16 + n.left.toNat := by
  have hl := n.left.isLt
  have hr := n.right.isLt
  rw [nodeWord, BitVec.or_comm, BitVec.toNat_or, BitVec.toNat_shiftLeft, BitVec.toNat_setWidth, BitVec.toNat_setWidth,
    Nat.mod_eq_of_lt (show n.left.toNat < 2 ^ 32 by omega), Nat.mod_eq_of_lt (show n.right.toNat < 2 ^ 32 by omega),
    Nat.mod_eq_of_lt (by rw [Nat.shiftLeft_eq]; omega), ← Nat.shiftLeft_eq,
    Nat.shiftLeft_add_eq_or_of_lt (by omega)]

theorem codeWord_zero_toNat (c : Code) : (codeWord c 0).toNat = c.len.toNat := by
  have hl := c.len.isLt
  rw [show codeWord c 0 = c.len.setWidth 32 from rfl, BitVec.toNat_setWidth, Nat.mod_eq_of_lt (by omega)]

theorem codeWord_val_toNat (c : Code) {w : Fin 16} (h1 : 1 ≤ w.val) (h8 : w.val ≤ 8) :
    (codeWord c w).toNat = c.val.toNat / 2 ^ (32 * (w.val - 1)) % 2 ^ 32 := by
  rw [codeWord, if_neg (by omega), if_pos h8, BitVec.extractLsb'_toNat, Nat.shiftRight_eq_div_pow]

theorem codeWord_reserved (c : Code) {w : Fin 16} (h9 : 9 ≤ w.val) : codeWord c w = 0 := by
  rw [codeWord, if_neg (by omega), if_neg (by omega)]

/-- A read of a NODE word of a valid tree while BUSY = 0 (R37). -/
theorem load_node_idle {s : State} (hb : s.status.busy = false) (ht : s.status.treeValid = true) {i : Fin 511}
    (hi : i.val < s.nodeCount.toNat) (w : Fin 4) (n : Nat) : s.load (.node i w) n = nodeWord (s.node.get i) w := by
  simp [State.load, hb, ht, hi]

/-- A read of a CODE word while BUSY = 0 and CODES_VALID = 1 (R38). -/
theorem load_code_idle {s : State} (hb : s.status.busy = false) (hc : s.status.codesValid = true) (x : Fin 256)
    (w : Fin 16) (n : Nat) : s.load (.code x w) n = codeWord (s.code.get x) w := by
  simp [State.load, hb, hc]

/-- A read of FREQ while BUSY = 0 (R35). -/
theorem load_freq_idle {s : State} (hb : s.status.busy = false) (x : Fin 256) (n : Nat) :
    s.load (.freq x) n = s.freq.get x := by
  simp [State.load, hb]

/-- A read of OUT_LEN while BUSY = 0 (R34). -/
theorem readReg_outLen_idle {s : State} (hb : s.status.busy = false) : s.readReg .outLen = s.outLen := by
  simp [State.readReg, hb]

/-- A read of NODE_COUNT while BUSY = 0 (R36). -/
theorem readReg_nodeCount_idle {s : State} (hb : s.status.busy = false) :
    (s.readReg .nodeCount).toNat = s.nodeCount.toNat := by
  have hn := s.nodeCount.isLt
  simp only [State.readReg, hb, Bool.false_eq_true, if_false, BitVec.toNat_setWidth]
  omega

/-- Settles O50: each offset decodes to its record word or register, whose value the lemmas above give. -/
theorem windowsShowTheRegisterFiles : Obligations.WindowsShowTheRegisterFiles := by
  intro s hb rd
  have loc {a v : Nat} {l : Loc} (ha : a < 2 ^ 26) (hl : decodeAccess s.cfg a 4 = .ok l)
      (h : (s.load l 4).toNat = v) : rd a v := ⟨_, by rw [transact_read ha hl], h⟩
  have reg {a v : Nat} (ha : a < 0x24) (h4 : a % 4 = 0) (h : (s.readReg (CtrlReg.at a)).toNat = v) : rd a v :=
    loc (by omega) (decodeAccess_reg _ a ha h4) h
  refine ⟨fun ht i hi => ?_, fun hc x => ?_, fun x => ?_, ?_, ?_, ?_⟩
  · intro n
    have word {a v : Nat} (w : Fin 4) (ha : a = 0x2000 + 16 * i.val + 4 * w.val) (h : (nodeWord n w).toNat = v) :
        rd a v := by
      subst ha
      exact loc (by omega) (decodeAccess_node _ i w) ((load_node_idle hb ht hi w 4).symm ▸ h)
    exact ⟨word 0 (by simp) (nodeWord_zero_toNat n), word 1 (by simp; omega) (nodeWord_one_toNat n),
      word 2 (by simp; omega) (nodeWord_two_toNat n), word 3 (by simp; omega) (nodeWord_three_toNat n)⟩
  · have word {v : Nat} (w : Fin 16) (h : (codeWord (s.code.get x) w).toNat = v) :
        rd (0x4000 + 64 * x.val + 4 * w.val) v :=
      loc (by omega) (decodeAccess_code _ x w) ((load_code_idle hb hc x w 4).symm ▸ h)
    exact ⟨word 0 (codeWord_zero_toNat _), fun k h1 h8 => word ⟨k, by omega⟩ (codeWord_val_toNat _ h1 h8),
      fun k h9 h15 => word ⟨k, by omega⟩ (congrArg BitVec.toNat (codeWord_reserved _ h9))⟩
  · exact loc (by omega) (decodeAccess_freq _ x) (congrArg BitVec.toNat (load_freq_idle hb x 4))
  · exact reg (by omega) rfl rfl
  · exact reg (by omega) rfl (congrArg BitVec.toNat (readReg_outLen_idle hb))
  · exact reg (by omega) rfl (readReg_nodeCount_idle hb)

end Sys2Proof.Machine

/-! ### The WAIT loop -/

namespace Sys2Proof.Machine

/-- Loading and building leave the inputs of the commands as they are (R80). -/
theorem TableEffect.sameInputs {s u : State} (h : TableEffect s u) : SameInputs s u := by
  obtain rfl | ⟨F, rfl⟩ | ⟨N, -, rfl⟩ | ⟨-, rfl⟩ | ⟨F, rfl⟩ := h
  · exact .refl _
  · exact { SameInputs.refl s with }
  · exact { SameInputs.refl s with }
  · exact { SameInputs.refl s with }
  · exact { (rebuild_kept (s.putFreq F)).1 with }

/-- The end of a command leaves its inputs as they are (R80). -/
theorem CommandEnd.sameInputs {i : Instr} {u t : State} (h : CommandEnd i u t) : SameInputs u t := by
  obtain ⟨e, rfl⟩ | rfl | ⟨R, -, rfl⟩ := h
  · exact (raise_spec u i e).2.1
  · exact (report_spec u 0).2.1
  · exact { (report_spec (u.putOutput R) 0).2.1 with }

/-- A move of the engine leaves the inputs of the commands, and the host's program, as they are (R80). -/
theorem EngineMove.sameInputs {s t : State} (h : EngineMove s t) : SameInputs s t := by
  obtain ⟨i, u, hu, ht⟩ | rfl := h
  · exact hu.sameInputs.trans ht.sameInputs
  · exact (report_spec s _).2.1

/-- The engine always has a next state (R253). -/
theorem engineStep_total (s : State) : ∃ t, s.engineStep = .next t := by
  unfold State.engineStep
  cases decode s.fetch with
  | ok i => cases i <;> exact ⟨_, rfl⟩
  | error e => exact ⟨_, rfl⟩

/-- A step of the WAIT loop: STATUS is read, and the item stays while BUSY = 1 (R97). -/
theorem step_wait {s : State} {rest : List HostOp} (h : s.host = .wait :: rest)
    (hturn : s.status.busy = false ∨ (s.hostSlots ≠ 0 ∧ s.host ≠ [])) :
    step s = .next { s with
      host := if s.status.busy then .wait :: rest else rest
      hostSlots := s.hostSlots - 1
      resp := some (.readOk (s.readReg .status))
      draws := s.draws + 1 } := by
  rw [step_eq_hostStep hturn, hostStep_wait h]
  exact congrArg Host.Outcome.next (transact_read_reg (s.advanceHost _) 0x010 (by omega) (by omega))

/-- A run from s ends the WAIT loop before rest: BUSY is 0, and so was bit 0 of the last word read (R97). -/
def WaitEnds (s : State) (rest : List HostOp) : Prop :=
  ∃ k t, Host.Core.run Sys2Proof.core k s = .next t ∧ t.host = rest ∧ t.status.busy = false ∧
    ∃ v : Word, t.resp = some (.readOk v) ∧ v.getLsbD 0 = false

/-- A run that ends the loop may be preceded by a step. -/
theorem WaitEnds.of_step {s t : State} {rest : List HostOp} (h : step s = .next t) (ht : WaitEnds t rest) :
    WaitEnds s rest := by
  obtain ⟨k, u, hu, hend⟩ := ht
  exact ⟨k + 1, u, (core_run_succ Sys2Proof.core k h).trans hu, hend⟩

/-- While BUSY = 0 the first read ends the loop. -/
theorem waitEnds_of_idle {s : State} {rest : List HostOp} (h : s.host = .wait :: rest)
    (hb : s.status.busy = false) : WaitEnds s rest := by
  refine .of_step (step_wait h (.inl hb)) ⟨0, _, rfl, ?_, hb, _, rfl, ?_⟩
  · simp [hb]
  · rw [readReg_status_idle hb, status_word_busy, hb]

/-- While BUSY = 1 the loop goes round as often as host steps are left, then the engine completes the command (R253).
-/
theorem waitEnds_of_busy (n : Nat) {s : State} {rest : List HostOp} (h : s.host = .wait :: rest)
    (hb : s.status.busy = true) (hn : s.hostSlots = n) : WaitEnds s rest := by
  induction n generalizing s with
  | zero =>
    obtain ⟨t, ht⟩ := engineStep_total s
    have hturn : s.engineTurn = true := by simp [State.engineTurn, hb, hn]
    have hm := engineStep_inversion ht
    refine .of_step (t := t) (by rw [step, if_pos hturn, ht]) (waitEnds_of_idle ?_ hm.busy)
    rw [hm.sameInputs.host, h]
  | succ n ih =>
    have hturn : s.hostSlots ≠ 0 ∧ s.host ≠ [] := by simp [hn, h]
    refine .of_step (step_wait h (.inr hturn)) (ih ?_ hb ?_)
    · simp [hb]
    · simp [hn]

/-- Settles O56: by the number of host steps left before the completion. -/
theorem waitLoopEnds : Obligations.WaitLoopEnds := by
  intro s rest h
  cases hb : s.status.busy with
  | false => exact waitEnds_of_idle h hb
  | true => exact waitEnds_of_busy s.hostSlots h hb rfl

end Sys2Proof.Machine

/-! ### COUNT -/

namespace Sys2Proof.Machine

/-- A command that is no output command and raises (R255). -/
theorem raise_failsPlain (s : State) (i : Instr) (e : ErrorCode) (hi : isOutput i = false) :
    FailsPlain s (s.raise i e) e.num := by
  obtain ⟨hc, hinputs, htables, houtput, -⟩ := raise_spec s i e
  exact ⟨hc, hinputs, htables, houtput hi⟩

/-- Everything a command that loads FREQ and then succeeds does besides the load (R42, R254). -/
theorem putFreq_succeed_spec (s : State) (F : Freq) :
    (s.putFreq F).succeed.status.treeValid = false ∧ (s.putFreq F).succeed.status.codesValid = false ∧
    Completed s (s.putFreq F).succeed 0 ∧ SameInputs s (s.putFreq F).succeed ∧
    SameOutput s (s.putFreq F).succeed ∧ SameTree s (s.putFreq F).succeed := by
  obtain ⟨hc, hi, ho, ht⟩ := report_spec (s.putFreq F) 0
  exact ⟨ht.treeValid, ht.codesValid, { hc with }, { hi with }, { ho with }, { ht with }⟩

theorem State.lengthBad_iff (s : State) : s.lengthBad = true ↔ s.cfg.inCap < s.inLen.toNat := decide_eq_true_iff

/-- COUNT of an input that fits IN_BUF (R130). -/
theorem exec_count_of_le {s : State} (h : s.inLen.toNat ≤ s.cfg.inCap) :
    exec .count s = .next (s.putFreq (countSymbols s.input)).succeed :=
  congrArg Host.Outcome.next (if_neg fun hb => Nat.not_lt.2 h (s.lengthBad_iff.1 hb))

/-- COUNT of an input that is longer than IN_BUF (R276). -/
theorem exec_count_of_lt {s : State} (h : s.cfg.inCap < s.inLen.toNat) :
    exec .count s = .next (s.raise .count .lengthRange) :=
  congrArg Host.Outcome.next (if_pos (s.lengthBad_iff.2 h))

/-- Every input is shorter than a counter's range (R8, R33). -/
theorem State.input_length_lt (s : State) : s.input.length < 2 ^ 32 := by
  rw [s.input_length]
  exact s.inLen.isLt

theorem State.mem_input (s : State) (x : Byte) : x ∈ s.input ↔ ∃ i, i < s.inLen.toNat ∧ s.inByte i = x := by
  simp [State.input]

/-- The counter of a symbol is nonzero where it occurs (R131). -/
theorem countSymbols_get_ne_zero_iff {X : List Byte} (hX : X.length < 2 ^ 32) (x : Byte) :
    (countSymbols X).get x.toFin ≠ 0 ↔ x ∈ X := by
  have hzero : (countSymbols X).get x.toFin = 0 ↔ X.count x = 0 := by
    rw [BitVec.toNat_eq, countSymbols_get X hX]
    rfl
  rw [ne_eq, hzero, List.count_eq_zero, not_not]

/-- Settles O9: COUNT loads the counters of the input, or raises LENGTH_RANGE. -/
theorem countWritesEveryCount : Obligations.CountWritesEveryCount := by
  intro s _
  by_cases h : s.inLen.toNat ≤ s.cfg.inCap
  · exact ⟨_, exec_count_of_le h, fun _ =>
      ⟨countSymbols_get s.input s.input_length_lt, putFreq_succeed_spec s _⟩, fun h' => absurd h (Nat.not_le.2 h')⟩
  · exact ⟨_, exec_count_of_lt (Nat.not_le.1 h), fun h' => absurd h' h, fun _ => raise_failsPlain s _ _ rfl⟩

/-- Settles O10: a COUNT without an error has loaded the counters of the input. -/
theorem countSumsToInputLength : Obligations.CountSumsToInputLength := by
  intro s t _ h herr
  by_cases hlen : s.inLen.toNat ≤ s.cfg.inCap
  · obtain rfl := Host.Outcome.next.inj ((exec_count_of_le hlen).symm.trans h)
    refine ⟨(countSymbols_total s.input s.input_length_lt).trans s.input_length, fun x => ?_⟩
    exact (countSymbols_get_ne_zero_iff s.input_length_lt x).trans (s.mem_input x)
  · obtain rfl := Host.Outcome.next.inj ((exec_count_of_lt (Nat.not_le.1 hlen)).symm.trans h)
    exact absurd herr Bool.noConfusion

end Sys2Proof.Machine

/-! ### BUILD_TREE -/

namespace Sys2Proof.Machine

/-- BUILD_TREE of a table with a tree (R147). -/
theorem exec_buildTree_of_some {s : State} {N : List Node} (h : buildTree s.freq = some N) :
    exec .buildTree s = .next (s.putTree N).succeed := by
  show execBuildTree s = _
  rw [execBuildTree, h]

/-- BUILD_TREE of the empty table (R145). -/
theorem exec_buildTree_of_none {s : State} (h : buildTree s.freq = none) :
    exec .buildTree s = .next (s.raise .buildTree .emptyInput) := by
  show execBuildTree s = _
  rw [execBuildTree, h]

/-- Everything a command that builds a tree and then succeeds does besides the arena (R147, R254). -/
theorem putTree_succeed_spec (s : State) (N : List Node) :
    (s.putTree N).succeed.status.treeValid = true ∧ (s.putTree N).succeed.status.codesValid = false ∧
    (s.putTree N).succeed.freq = s.freq ∧ (s.putTree N).succeed.code = s.code ∧
    Completed s (s.putTree N).succeed 0 ∧ SameInputs s (s.putTree N).succeed ∧
    SameOutput s (s.putTree N).succeed := by
  obtain ⟨hc, hi, ho, ht⟩ := report_spec (s.putTree N) 0
  exact ⟨ht.treeValid, ht.codesValid, ht.freq, ht.code, { hc with }, { hi with }, { ho with }⟩

/-- Settles O11: BUILD_TREE writes the arena BuildTree gives, which is a greedy one, or raises EMPTY_INPUT. -/
theorem buildTreeWritesTheGreedyTree : Obligations.BuildTreeWritesTheGreedyTree := by
  intro s
  by_cases h : ∃ x, s.freq.get x ≠ 0
  · obtain ⟨N, hN⟩ := buildTree_some _ h
    obtain ⟨-, -, hlen⟩ := buildTree_length hN
    obtain ⟨hholds, habove⟩ := putTree_holdsTree s N hlen
    exact ⟨_, exec_buildTree_of_some hN,
      fun _ => ⟨⟨N, greedyArena_of_buildTree hN, hholds, habove⟩, putTree_succeed_spec s N⟩,
      fun h0 => absurd h (by simpa using h0)⟩
  · have h0 : ∀ x, s.freq.get x = 0 := by simpa using h
    exact ⟨_, exec_buildTree_of_none (buildTree_none _ h0), fun hx => absurd hx h,
      fun _ => raise_failsPlain s _ _ rfl⟩

/-! Uniqueness: LIVE and the keys at a round depend on the entries written before it only, and an order has one least
element. -/

theorem LiveAt.congr {N M : List Node} {k : Nat} (agree : ∀ j < k, N[j]? = M[j]?) {n i : Nat} (h : LiveAt N n k i) :
    LiveAt M n k i :=
  ⟨h.1, fun j m hn hk hm => h.2 j m hn hk ((agree j hk).trans hm)⟩

theorem KeyLess.congr {N M : List Node} {k : Nat} (agree : ∀ j < k, N[j]? = M[j]?) {i j : Nat} (hi : i < k)
    (hj : j < k) (h : KeyLess N i j) : KeyLess M i j := by
  obtain ⟨a, b, ha, hb, hab⟩ := h
  exact ⟨a, b, (agree i hi).symm.trans ha, (agree j hj).symm.trans hb, hab⟩

theorem KeyLess.asymm {N : List Node} {i j : Nat} (h : KeyLess N i j) : ¬ KeyLess N j i := by
  rintro ⟨b', a', hb', ha', hba⟩
  obtain ⟨a, b, ha, hb, hab⟩ := h
  obtain rfl := Option.some.inj (ha.symm.trans ha')
  obtain rfl := Option.some.inj (hb.symm.trans hb')
  omega

/-- The index of least key among the indices in P is unique (R142). -/
theorem leastKey_unique {N : List Node} {P : Nat → Prop} {i j : Nat} (hi : P i) (hj : P j)
    (least_i : ∀ x, P x → x ≠ i → KeyLess N i x) (least_j : ∀ x, P x → x ≠ j → KeyLess N j x) : i = j := by
  by_contra hne
  exact (least_i j hj (Ne.symm hne)).asymm (least_j i hi hne)

/-- Two greedy arenas of a table that agree below k have the same internal entry at k: both merge the same pair. -/
theorem GreedyArena.merge_unique {F : Freq} {N M : List Node} (hN : GreedyArena F N) (hM : GreedyArena F M) {k : Nat}
    (hk : F.present.length ≤ k) (agree : ∀ j < k, N[j]? = M[j]?) {m m' : Node} (hm : N[k]? = some m)
    (hm' : M[k]? = some m') : m = m' := by
  obtain ⟨leaf, sym, liveL, liveR, ne, ⟨a, b, ha, hb, hf⟩, leastL, leastR⟩ := hN.merge k m hk hm
  obtain ⟨leaf', sym', liveL', liveR', ne', ⟨a', b', ha', hb', hf'⟩, leastL', leastR'⟩ := hM.merge k m' hk hm'
  have agree' : ∀ j < k, M[j]? = N[j]? := fun j hj => (agree j hj).symm
  have left : m.left = m'.left := BitVec.eq_of_toNat_eq <|
    leastKey_unique (P := LiveAt N F.present.length k) liveL (liveL'.congr agree') leastL fun x hx hne =>
      (leastL' x (hx.congr agree) hne).congr agree' liveL'.1 hx.1
  rw [← left] at ha' ne' leastR'
  have right : m.right = m'.right := BitVec.eq_of_toNat_eq <|
    leastKey_unique (P := fun x => LiveAt N F.present.length k x ∧ x ≠ m.left.toNat)
      ⟨liveR, fun e => ne (BitVec.eq_of_toNat_eq e.symm)⟩
      ⟨liveR'.congr agree', fun e => ne' (BitVec.eq_of_toNat_eq e.symm)⟩
      (fun x hx hne => leastR x hx.1 hx.2 hne) fun x hx hne =>
        (leastR' x (hx.1.congr agree) hx.2 hne).congr agree' liveR'.1 hx.1.1
  rw [← right] at hb'
  obtain rfl := Option.some.inj (ha.symm.trans ((agree _ liveL.1).trans ha'))
  obtain rfl := Option.some.inj (hb.symm.trans ((agree _ liveR.1).trans hb'))
  calc m = ⟨m.leaf, m.sym, m.f, m.left, m.right⟩ := rfl
    _ = ⟨m'.leaf, m'.sym, m'.f, m'.left, m'.right⟩ := by
      rw [leaf.trans leaf'.symm, sym.trans sym'.symm, BitVec.eq_of_toNat_eq (hf.trans hf'.symm), left, right]
    _ = m' := rfl

theorem GreedyArena.unique {F : Freq} {N M : List Node} (hN : GreedyArena F N) (hM : GreedyArena F M) : N = M := by
  have hlen : N.length = M.length := hN.length.trans hM.length.symm
  refine List.ext_getElem? fun k => ?_
  induction k using Nat.strong_induction_on with
  | _ k agree =>
    by_cases hleaf : k < F.present.length
    · have hs := List.getElem?_eq_getElem hleaf
      rw [hN.leaf k _ hs, hM.leaf k _ hs]
    by_cases hk : k < N.length
    · have hm := List.getElem?_eq_getElem hk
      have hm' := List.getElem?_eq_getElem (hlen ▸ hk)
      rw [hm, hm', hN.merge_unique hM (Nat.not_lt.1 hleaf) agree hm hm']
    · rw [List.getElem?_eq_none (by omega), List.getElem?_eq_none (by omega)]

/-- Settles O12: by induction on the arena index, the entries before it fix LIVE and so the pair merged. -/
theorem greedyTreeIsUnique : Obligations.GreedyTreeIsUnique := fun _ _ _ _ hN hM => hN.unique hM

/-! The structure of a built tree (R149). -/

/-- The arena holds the internal entry m at j, and c is a child of it. -/
def ParentAt (N : List Node) (c j : Nat) (m : Node) : Prop :=
  N[j]? = some m ∧ m.leaf = false ∧ (m.left.toNat = c ∨ m.right.toNat = c)

section

variable {F : Freq} {N : List Node}

/-- The leaves come first (R140, R149 a). -/
theorem GreedyArena.leaf_eq_false_iff (h : GreedyArena F N) {i : Nat} {m : Node} (hm : N[i]? = some m) :
    m.leaf = false ↔ F.present.length ≤ i := by
  refine ⟨fun hl => Nat.not_lt.1 fun hi => ?_, fun hi => (h.merge i m hi hm).1⟩
  obtain rfl := Option.some.inj (hm.symm.trans (h.leaf i _ (List.getElem?_eq_getElem hi)))
  cases hl

/-- A child was in LIVE when its parent was written (R141). -/
theorem GreedyArena.live_of_parentAt (h : GreedyArena F N) {c k : Nat} {m : Node} (hp : ParentAt N c k m) :
    LiveAt N F.present.length k c := by
  obtain ⟨hm, hl, rfl | rfl⟩ := hp
  all_goals obtain ⟨-, -, hL, hR, -⟩ := h.merge k m ((h.leaf_eq_false_iff hm).1 hl) hm
  · exact hL
  · exact hR

/-- A child is no longer in LIVE once its parent is written (R141). -/
theorem GreedyArena.not_live_of_parentAt (h : GreedyArena F N) {c j k : Nat} {m : Node} (hp : ParentAt N c j m)
    (hjk : j < k) : ¬ LiveAt N F.present.length k c := by
  rintro ⟨-, hno⟩
  obtain ⟨hm, hl, hc⟩ := hp
  obtain ⟨hL, hR⟩ := hno j m ((h.leaf_eq_false_iff hm).1 hl) hjk hm
  exact hc.elim hL hR

/-- An entry has one parent at most (R149 c). -/
theorem GreedyArena.parentAt_unique (h : GreedyArena F N) {c j k : Nat} {m m' : Node} (hj : ParentAt N c j m)
    (hk : ParentAt N c k m') : k = j := by
  obtain hlt | rfl | hlt := lt_trichotomy k j
  · exact absurd (h.live_of_parentAt hj) (h.not_live_of_parentAt hk hlt)
  · rfl
  · exact absurd (h.live_of_parentAt hk) (h.not_live_of_parentAt hj hlt)

/-- How many entries are leaves (R149 g). -/
theorem GreedyArena.countP_leaf (h : GreedyArena F N) : N.countP (fun m => m.leaf) = F.present.length := by
  have hlen := h.length
  have first : (N.take F.present.length).countP (fun m => m.leaf) = (N.take F.present.length).length := by
    refine List.countP_eq_length.2 fun m hm => ?_
    obtain ⟨i, hi, rfl⟩ := List.mem_take_iff_getElem.1 hm
    have hl := h.leaf_eq_false_iff (List.getElem?_eq_getElem (lt_min_iff.1 hi).2)
    exact Bool.not_eq_false _ ▸ hl.not.2 (Nat.not_le.2 (lt_min_iff.1 hi).1)
  have rest : (N.drop F.present.length).countP (fun m => m.leaf) = 0 := by
    refine List.countP_eq_zero.2 fun m hm => ?_
    obtain ⟨i, hi, rfl⟩ := List.mem_drop_iff_getElem.1 hm
    rw [(h.leaf_eq_false_iff (List.getElem?_eq_getElem _)).2 (by omega)]
    exact Bool.false_ne_true
  rw [← List.take_append_drop F.present.length N, List.countP_append, first, rest, List.length_take]
  omega

/-- The finished LIVE holds the root alone, which is the last entry (R143). -/
theorem buildTree_live_iff (hb : buildTree F = some N) (c : Nat) :
    LiveAt N F.present.length N.length c ↔ c = N.length - 1 := by
  obtain ⟨-, k, hk⟩ := buildTree_inv hb
  have hroot := hk.root k rfl
  rw [← hk.liveAt, List.map_singleton, List.mem_singleton]
  omega

/-- Every entry but the root has a parent (R149 c). -/
theorem buildTree_parentAt (hb : buildTree F = some N) {c : Nat} (hc : c < N.length - 1) : ∃ j m, ParentAt N c j m := by
  by_contra hno
  have hlive : LiveAt N F.present.length N.length c := by
    refine ⟨by omega, fun j m hj _ hm => ?_⟩
    have hl := ((greedyArena_of_buildTree hb).leaf_eq_false_iff hm).2 hj
    exact ⟨fun e => hno ⟨j, m, hm, hl, .inl e⟩, fun e => hno ⟨j, m, hm, hl, .inr e⟩⟩
  exact absurd ((buildTree_live_iff hb c).1 hlive) (Nat.ne_of_lt hc)

/-- The root has no parent (R149 d). -/
theorem buildTree_root_not_parentAt (hb : buildTree F = some N) (j : Nat) (m : Node) :
    ¬ ParentAt N (N.length - 1) j m := fun hp =>
  (greedyArena_of_buildTree hb).not_live_of_parentAt hp (List.getElem?_eq_some_iff.1 hp.1).1
    ((buildTree_live_iff hb _).2 rfl)

/-- The frequency of the root is the sum of all counts (R149 e). -/
theorem buildTree_root_freq (hb : buildTree F = some N) : ∃ r, N[N.length - 1]? = some r ∧ r.f.toNat = F.total := by
  obtain ⟨-, k, hk⟩ := buildTree_inv hb
  obtain ⟨r, hr, hf⟩ := hk.key k (List.mem_singleton_self k)
  have hroot : k.2 = N.length - 1 := by have := hk.root k rfl; omega
  have hsum : k.1.toNat = F.total := by simpa using hk.sum
  exact ⟨r, hroot ▸ hr, hf ▸ hsum⟩

/-- A path from the root is shorter than the number of leaves (R149 f). -/
theorem buildTree_path_length (hb : buildTree F = some N) {node : Arena} (hh : ArenaHolds node N) {p : Bits} {i : Nat}
    (hp : NodePath node (N.length - 1) p i) : p.length + 1 ≤ F.present.length := by
  obtain ⟨t, ht, hsyms⟩ := buildTree_tree hb
  obtain ⟨u, -, hu⟩ := NodePath.subTree hh ht hp
  obtain ⟨s, hs⟩ := List.exists_mem_of_length_pos u.syms_pos
  rw [← u.paths_syms] at hs
  obtain ⟨e, he, -⟩ := List.mem_map.1 hs
  calc p.length + 1 ≤ (p ++ e.2).length + 1 := by rw [List.length_append]; omega
    _ ≤ t.syms.length := HTree.path_length (hu e he)
    _ = F.present.length := by rw [hsyms.length_eq, List.length_map]

end

/-- Settles O13: (a) to (g) of R149 in turn. -/
theorem builtTreesAreFullBinaryTrees : Obligations.BuiltTreesAreFullBinaryTrees := by
  intro F N node hb hh
  dsimp only
  have hg := greedyArena_of_buildTree hb
  obtain ⟨hlen, hpos, -⟩ := buildTree_length hb
  have h256 := F.present_length_le
  have hroot : 2 * F.present.length - 2 = N.length - 1 := by omega
  rw [hroot]
  have merge {i : Nat} {m : Node} (hm : N[i]? = some m) (hl : m.leaf = false) :=
    hg.merge i m ((hg.leaf_eq_false_iff hm).1 hl) hm
  refine ⟨⟨hlen, hpos, fun i m => hg.leaf_eq_false_iff⟩, fun i m hm hl => ?_, fun c hc => ?_, fun j m hm hl => ?_,
    buildTree_root_freq hb, fun i m hm hl => ?_, fun p i hp => ?_, fun hn => ?_⟩
  · obtain ⟨-, -, hL, hR, hne, -⟩ := merge hm hl
    exact ⟨hL.1, hR.1, hne⟩
  · obtain ⟨j, m, hm, hl, hcm⟩ := buildTree_parentAt hb hc
    exact ⟨j, m, hm, hl, hcm, fun k m' hm' hl' hcm' => hg.parentAt_unique ⟨hm, hl, hcm⟩ ⟨hm', hl', hcm'⟩⟩
  · have hno := buildTree_root_not_parentAt hb j m
    exact ⟨fun e => hno ⟨hm, hl, .inl e⟩, fun e => hno ⟨hm, hl, .inr e⟩⟩
  · obtain ⟨-, -, -, -, -, hsum, -⟩ := merge hm hl
    exact hsum
  · have hdepth := buildTree_path_length hb hh hp
    omega
  · have hleaf := hg.countP_leaf
    have htotal := List.length_eq_countP_add_countP (fun m : Node => m.leaf) (l := N)
    rw [← List.countP_eq_length_filter, ← List.countP_eq_length_filter]
    simp only [Bool.not_eq_true, Bool.decide_eq_false] at htotal
    omega

end Sys2Proof.Machine

/-! ### GEN_CODES -/

namespace Sys2Proof.Machine

/-- While CODES_VALID = 1, CODE holds the path of every leaf of the tree (R41, R160 to R163). -/
theorem State.Inv.pathCodes {s : State} (hi : s.Inv) (hv : s.status.codesValid = true) : s.PathCodes := by
  obtain ⟨ht, hcode⟩ := hi.validity.codes hv
  obtain ⟨N, hb, hholds, -⟩ := hi.validity.tree ht
  exact pathCodes_of_build hb hholds hcode

/-- GEN_CODES with a tree (R167). -/
theorem exec_genCodes_of_tree {s : State} (h : s.status.treeValid = true) :
    exec .genCodes s = .next (s.putCodes (genCodes s.node s.nodeCount.toNat)).succeed :=
  congrArg Host.Outcome.next (if_pos h)

/-- GEN_CODES without a tree (R167, R278). -/
theorem exec_genCodes_of_no_tree {s : State} (h : s.status.treeValid = false) :
    exec .genCodes s = .next (s.raise .genCodes .sequenceError) :=
  congrArg Host.Outcome.next (if_neg (Bool.not_eq_true _ ▸ h))

/-- Everything a command that writes a code table and then succeeds does besides the table (R167, R254). -/
theorem putCodes_succeed_spec (s : State) (T : CodeTable) :
    SameTables (s.putCodes T) (s.putCodes T).succeed ∧ Completed s (s.putCodes T).succeed 0 ∧
    SameInputs s (s.putCodes T).succeed ∧ SameOutput s (s.putCodes T).succeed := by
  obtain ⟨hc, hi, ho, ht⟩ := report_spec (s.putCodes T) 0
  exact ⟨ht, { hc with }, { hi with }, { ho with }⟩

/-- Settles O14: the state before the report meets the invariant with CODES_VALID = 1, so its codes are the paths, and
the report keeps them; or GEN_CODES raises SEQUENCE_ERROR. -/
theorem genCodesWritesThePaths : Obligations.GenCodesWritesThePaths := by
  intro s hs
  cases ht : s.status.treeValid with
  | true =>
    obtain ⟨htables, hdone⟩ := putCodes_succeed_spec s (genCodes s.node s.nodeCount.toNat)
    exact ⟨_, exec_genCodes_of_tree ht, fun _ => ⟨htables.pathCodes ((hs.putCodes ht).pathCodes rfl),
      htables.codesValid, htables.treeValid.trans ht, htables.freq, htables.node, htables.nodeCount, hdone⟩, nofun⟩
  | false => exact ⟨_, exec_genCodes_of_no_tree ht, nofun, fun _ => raise_failsPlain s _ _ rfl⟩

/-! The code set as the leaves of one tree (R164). -/

/-- The first n bits of an infinite bit string. -/
def firstBits (B : Nat → Bool) (n : Nat) : Bits := (List.range n).map B

theorem firstBits_succ (B : Nat → Bool) (n : Nat) : firstBits B (n + 1) = B 0 :: firstBits (fun k => B (k + 1)) n := by
  rw [firstBits, List.range_succ_eq_map, List.map_cons, List.map_map]
  rfl

theorem firstBits_prefix (B : Nat → Bool) {m n : Nat} (h : m ≤ n) : firstBits B m <+: firstBits B n := by
  obtain ⟨k, rfl⟩ := Nat.exists_eq_add_of_le h
  rw [firstBits, firstBits, List.range_add, List.map_append]
  exact List.prefix_append ..

/-- A tree of two or more leaves codes each by its path (R160). -/
theorem HTree.codeList_eq_paths {t : HTree} (h : 2 ≤ t.syms.length) : t.codeList = t.paths := by
  cases t with
  | leaf x => simp [HTree.syms] at h
  | node l r => rfl

/-- A tree of one leaf codes it by "0" (R162). -/
theorem HTree.codeList_bits_of_single {t : HTree} (h : t.syms.length = 1) {e : Byte × Bits} (he : e ∈ t.codeList) :
    e.2 = [false] := by
  cases t with
  | leaf x => rw [List.mem_singleton.1 he]
  | node l r =>
    have hl := l.syms_pos
    have hr := r.syms_pos
    rw [HTree.syms, List.length_append] at h
    omega

/-- The descent along an infinite bit string ends at a leaf. -/
theorem HTree.exists_path_firstBits (t : HTree) (B : Nat → Bool) : ∃ e ∈ t.paths, e.2 = firstBits B e.2.length := by
  induction t generalizing B with
  | leaf x => exact ⟨(x, []), List.mem_singleton_self _, rfl⟩
  | node l r ihl ihr =>
    cases h0 : B 0 with
    | false =>
      obtain ⟨e, he, hbits⟩ := ihl fun k => B (k + 1)
      refine ⟨(e.1, false :: e.2), List.mem_append_left _ (List.mem_map_of_mem he), ?_⟩
      rw [List.length_cons, firstBits_succ, h0, ← hbits]
    | true =>
      obtain ⟨e, he, hbits⟩ := ihr fun k => B (k + 1)
      refine ⟨(e.1, true :: e.2), List.mem_append_right _ (List.mem_map_of_mem he), ?_⟩
      rw [List.length_cons, firstBits_succ, h0, ← hbits]

/-- In a prefix-free code set one code at most begins a given infinite bit string. -/
theorem CodeTable.prefixFree.eq_of_firstBits {T : CodeTable} (hT : T.prefixFree) {B : Nat → Bool} {x y : Byte}
    (hx : T.coded x) (hy : T.coded y) (hxB : (T.of x).bits = firstBits B (T.of x).len.toNat)
    (hyB : (T.of y).bits = firstBits B (T.of y).len.toNat) : x = y := by
  obtain h | h := Nat.le_total (T.of x).len.toNat (T.of y).len.toNat
  · exact hT x y hx hy (by rw [hxB, hyB]; exact firstBits_prefix B h)
  · exact (hT y x hy hx (by rw [hxB, hyB]; exact firstBits_prefix B h)).symm

/-- While CODES_VALID = 1, the code set is that of one tree over the symbols of the table (R161 to R163). -/
theorem State.Inv.exists_codeTree {s : State} (hi : s.Inv) (hv : s.status.codesValid = true) :
    ∃ t : HTree, t.syms.length = s.freq.present.length ∧
      ∀ x p, (x, p) ∈ t.codeList ↔ s.code.coded x ∧ (s.code.of x).bits = p := by
  obtain ⟨N, hb, hh, hcode⟩ := hi.codes_of_valid hv
  obtain ⟨t, -, hperm, -, hcodes, huncoded⟩ := genCodes_spec hb hh
  rw [← hcode] at hcodes huncoded
  have written {x : Byte} {p : Bits} (hm : (x, p) ∈ t.codeList) : s.code.coded x ∧ (s.code.of x).bits = p := by
    obtain ⟨hlen, hof⟩ := hcodes _ hm
    exact (Code.of_path hlen hof).symm
  refine ⟨t, hperm.length_eq.trans (List.length_map ..), fun x p => ⟨written, fun ⟨hx, hp⟩ => ?_⟩⟩
  have hsym : x ∈ t.syms := by
    by_contra hno
    exact hx (by rw [huncoded x hno])
  rw [← t.codeList_syms] at hsym
  obtain ⟨⟨x, q⟩, hm, rfl⟩ := List.mem_map.1 hsym
  rwa [← hp, (written hm).2]

/-- Settles O15: the codes are the paths of a full binary tree, in which a bit string leads to one leaf. -/
theorem codesArePrefixFreeAndComplete : Obligations.CodesArePrefixFreeAndComplete := by
  intro s hs hv
  have hfree := hs.code_prefixFree hv
  obtain ⟨t, hlen, hcodes⟩ := hs.exists_codeTree hv
  refine ⟨hfree, fun htwo B => ?_, fun hone B x hB hx hbits => ?_⟩
  · obtain ⟨⟨x, p⟩, hm, hp⟩ := t.exists_path_firstBits B
    rw [← t.codeList_eq_paths (hlen ▸ htwo), hcodes] at hm
    obtain ⟨hx, rfl⟩ := hm
    rw [Code.bits_length] at hp
    exact ⟨x, ⟨hx, hp⟩, fun y ⟨hy, hyB⟩ => hfree.eq_of_firstBits hy hx hyB hp⟩
  · have hzero : (s.code.of x).bits = [false] :=
      t.codeList_bits_of_single (hlen.trans hone) ((hcodes x _).2 ⟨hx, rfl⟩)
    have hlen1 : (s.code.of x).len.toNat = 1 := by rw [← Code.bits_length, hzero]; rfl
    rw [hzero, hlen1] at hbits
    simp [hB] at hbits

/-! The symbols of the tree (R163). -/

/-- The leaves of a greedy arena are the symbols of its table (R140, R163). -/
theorem GreedyArena.exists_leaf_iff {F : Freq} {N : List Node} (h : GreedyArena F N) (x : Byte) :
    (∃ (i : Nat) (m : Node), N[i]? = some m ∧ m.leaf = true ∧ m.sym = x) ↔ F.get x.toFin ≠ 0 := by
  rw [← F.mem_present]
  constructor
  · rintro ⟨i, m, hm, hleaf, rfl⟩
    have hi : i < F.present.length := by
      by_contra hge
      rw [(h.leaf_eq_false_iff hm).2 (Nat.not_lt.1 hge)] at hleaf
      cases hleaf
    obtain rfl := Option.some.inj (hm.symm.trans (h.leaf i _ (List.getElem?_eq_getElem hi)))
    exact List.getElem_mem hi
  · intro hx
    obtain ⟨i, hi⟩ := List.getElem?_of_mem hx
    exact ⟨i, _, h.leaf i _ hi, rfl, rfl⟩

/-- While TREE_VALID = 1, the leaves below NODE_COUNT are the symbols of FREQ (R41, R163). -/
theorem State.Inv.exists_leaf_iff {s : State} (hi : s.Inv) (ht : s.status.treeValid = true) (x : Byte) :
    (∃ i : Fin 511, i.val < s.nodeCount.toNat ∧ (s.node.get i).leaf = true ∧ (s.node.get i).sym = x) ↔
      s.freq.get x.toFin ≠ 0 := by
  obtain ⟨N, hb, ⟨hcount, hheld⟩, -⟩ := hi.validity.tree ht
  obtain ⟨-, -, h511⟩ := buildTree_length hb
  rw [← (greedyArena_of_buildTree hb).exists_leaf_iff x, hcount]
  constructor
  · rintro ⟨i, hlt, hleaf, hsym⟩
    have hm := List.getElem?_eq_getElem hlt
    rw [hheld i _ hm] at hleaf hsym
    exact ⟨i, _, hm, hleaf, hsym⟩
  · rintro ⟨i, m, hm, hleaf, hsym⟩
    have hlt := (List.getElem?_eq_some_iff.1 hm).1
    have hget := hheld ⟨i, by omega⟩ m hm
    exact ⟨⟨i, by omega⟩, hlt, by rw [hget]; exact hleaf, by rw [hget]; exact hsym⟩

/-- Settles O16: the leaves are the symbols of FREQ, and exactly those are coded; CODE_LEN has 8 bits. -/
theorem exactlyThePresentSymbolsHaveCodes : Obligations.ExactlyThePresentSymbolsHaveCodes := by
  intro s hs hv x
  obtain ⟨ht, -⟩ := hs.validity.codes hv
  have hcodes := hs.pathCodes hv
  refine ⟨hs.exists_leaf_iff ht x, hcodes.uncoded x, fun hx => ⟨?_, Nat.le_of_lt_succ (s.code.of x).len.isLt⟩,
    hcodes.rightAligned x⟩
  have hcoded : s.code.coded x := (hs.coded_iff hv x).2 hx
  exact Nat.pos_of_ne_zero fun h0 => hcoded (BitVec.eq_of_toNat_eq h0)

end Sys2Proof.Machine

/-! ### PACK and UNPACK -/

namespace Sys2Proof.Machine

/-! What the two commands check before they read the code table (R183, R194). -/

/-- The end of command i where it is u once IN_LEN ≤ IN_CAP and CODES_VALID = 1: the checks of both, in their order
(R94, R278). -/
def State.withCodes (s : State) (i : Instr) (u : State) : State :=
  if s.lengthBad then s.raise i .lengthRange
  else if s.status.codesValid then u
  else s.raise i .sequenceError

theorem withCodes_of_lt {s : State} (h : s.cfg.inCap < s.inLen.toNat) (i : Instr) (u : State) :
    s.withCodes i u = s.raise i .lengthRange := if_pos (s.lengthBad_iff.2 h)

theorem withCodes_of_le {s : State} (h : s.inLen.toNat ≤ s.cfg.inCap) (i : Instr) (u : State) :
    s.withCodes i u = if s.status.codesValid then u else s.raise i .sequenceError :=
  if_neg fun hb => Nat.not_lt.2 h (s.lengthBad_iff.1 hb)

/-- The two errors that both commands check first, and that the command's own end comes after them (R94, R278). -/
theorem withCodes_spec (s : State) {i : Instr} (hi : isOutput i = true) (u : State) :
    (s.cfg.inCap < s.inLen.toNat → FailsOutput s (s.withCodes i u) 0x6) ∧
    (s.inLen.toNat ≤ s.cfg.inCap → s.status.codesValid = false → FailsOutput s (s.withCodes i u) 0x8) ∧
    (s.inLen.toNat ≤ s.cfg.inCap → s.status.codesValid = true → s.withCodes i u = u) := by
  refine ⟨fun h => ?_, fun h hv => ?_, fun h hv => ?_⟩
  · rw [withCodes_of_lt h]
    exact raise_failsOutput s i _ hi
  · rw [withCodes_of_le h, hv]
    exact raise_failsOutput s i _ hi
  · rw [withCodes_of_le h, hv]
    rfl

/-- PACK of an input that PackBits rejects (R183). -/
theorem exec_pack_of_error {s : State} {e : ErrorCode} (h : packBits s.input s.code = .error e) :
    exec .pack s = .next (s.withCodes .pack (s.raise .pack e)) := by
  show execPack s = _
  rw [execPack, h]
  rfl

/-- PACK of an input that PackBits packs (R183). -/
theorem exec_pack_of_ok {s : State} {R : List Byte} (h : packBits s.input s.code = .ok R) :
    exec .pack s = .next (s.withCodes .pack (s.finishOutput .pack R)) := by
  show execPack s = _
  rw [execPack, h]
  rfl

/-- UNPACK of a payload that Unpack rejects (R194). -/
theorem exec_unpack_of_error {s : State} {e : ErrorCode}
    (h : unpack s.input s.code s.freq.total s.cfg.outCap = .error e) :
    exec .unpack s = .next (s.withCodes .unpack (s.raise .unpack e)) := by
  show execUnpack s = _
  rw [execUnpack, h]
  rfl

/-- UNPACK of a payload that Unpack decodes (R194). -/
theorem exec_unpack_of_ok {s : State} {R : List Byte}
    (h : unpack s.input s.code s.freq.total s.cfg.outCap = .ok R) :
    exec .unpack s = .next (s.withCodes .unpack (s.putOutput R).succeed) := by
  show execUnpack s = _
  rw [execUnpack, h]
  rfl

/-- An output command whose result does not fit OUT_BUF (R275). -/
theorem finishOutput_failsOutput {s : State} {i : Instr} {R : List Byte} (hi : isOutput i = true)
    (h : s.cfg.outCap < R.length) : FailsOutput s (s.finishOutput i R) 0x5 := by
  rw [State.finishOutput, if_pos h]
  exact raise_failsOutput s i _ hi

/-- A result that fits OUT_BUF is delivered (R254). -/
theorem State.Inv.putOutput_delivers {s : State} (hs : s.Inv) {R : List Byte} (h : R.length ≤ s.cfg.outCap) :
    Delivers s (s.putOutput R).succeed R :=
  Machine.putOutput_delivers s R hs.buffers.outForm (lt_of_le_of_lt h hs.outCap_lt)

/-- An output command whose result fits OUT_BUF (R254). -/
theorem State.Inv.finishOutput_delivers {s : State} (hs : s.Inv) (i : Instr) {R : List Byte}
    (h : R.length ≤ s.cfg.outCap) : Delivers s (s.finishOutput i R) R := by
  rw [State.finishOutput, if_neg (Nat.not_lt.2 h)]
  exact hs.putOutput_delivers h

/-- Settles O17: PackBits rejects the input where some byte has no code, and else frames its codes. -/
theorem packWritesThePayload : Obligations.PackWritesThePayload := by
  intro s hs
  by_cases hcoded : ∀ x ∈ s.input, s.code.coded x
  · obtain ⟨hlong, hnone, hend⟩ :=
      withCodes_spec s (i := .pack) rfl (s.finishOutput .pack (framePayload (encodeSymbols s.input s.code)))
    refine ⟨_, exec_pack_of_ok (packBits_ok hcoded), hlong, hnone, fun h hv => ?_⟩
    rw [hend h hv]
    exact ⟨fun ⟨x, hx, h0⟩ => absurd h0 (hcoded x hx),
      fun _ => ⟨_, framePayload_spec _, finishOutput_failsOutput rfl, hs.finishOutput_delivers .pack⟩⟩
  · have huncoded : ∃ x ∈ s.input, ¬ s.code.coded x := by simpa only [not_forall, exists_prop] using hcoded
    obtain ⟨hlong, hnone, hend⟩ := withCodes_spec s (i := .pack) rfl (s.raise .pack .symbolNotCoded)
    refine ⟨_, exec_pack_of_error (packBits_error huncoded), hlong, hnone, fun h hv => ?_⟩
    rw [hend h hv]
    exact ⟨fun _ => raise_failsOutput s _ _ rfl, fun hall => absurd hall hcoded⟩

/-- The padding count case by case (R181). -/
theorem padCount_eq (T : Nat) : padCount T = if T % 8 = 0 then 0 else 8 - T % 8 := by
  unfold padCount
  split <;> omega

/-- Settles O18: the payload is the one that framePayload gives. -/
theorem payloadIsPaddedToBytes : Obligations.PayloadIsPaddedToBytes := by
  intro B
  have hlen := framePayload_length B
  rw [framePayload, List.length_cons] at hlen
  refine ⟨_, _, framePayload_spec B, fun P hP => hP.eq_framePayload, ?_, ?_, by omega⟩
  · rw [padCount_toNat, padCount_eq]
  · rw [padCount_toNat]
    exact padCount_dvd B.length

/-- Settles O19: the rows of R190 name what Unpack answers, as the codes are prefix-free. -/
theorem unpackReadsThePayload : Obligations.UnpackReadsThePayload := by
  intro s hs
  have answer (hv : s.status.codesValid = true) {r : Except ErrorCode (List Byte)}
      (hr : UnpackGives s.input s.code s.freq.total s.cfg.outCap r) :
      unpack s.input s.code s.freq.total s.cfg.outCap = r := hr.unpack_eq (hs.code_prefixFree hv)
  have outcome := UnpackGives.exists_outcome (T := s.code) s.input s.freq.total s.cfg.outCap
  cases hunpack : unpack s.input s.code s.freq.total s.cfg.outCap with
  | error e =>
    obtain ⟨hlong, hnone, hend⟩ := withCodes_spec s (i := .unpack) rfl (s.raise .unpack e)
    refine ⟨_, exec_unpack_of_error hunpack, hlong, hnone, fun h hv => ⟨outcome, fun e' he => ?_, fun X hX => ?_⟩⟩
    · obtain rfl := Except.error.inj (hunpack.symm.trans (answer hv he))
      rw [hend h hv]
      exact raise_failsOutput s _ e rfl
    · cases hunpack.symm.trans (answer hv hX)
  | ok R =>
    obtain ⟨hlong, hnone, hend⟩ := withCodes_spec s (i := .unpack) rfl (s.putOutput R).succeed
    refine ⟨_, exec_unpack_of_ok hunpack, hlong, hnone, fun h hv => ⟨outcome, fun e he => ?_, fun X hX => ?_⟩⟩
    · cases hunpack.symm.trans (answer hv he)
    · obtain rfl := Except.ok.inj (hunpack.symm.trans (answer hv hX))
      rw [hend h hv]
      exact hs.putOutput_delivers (unpack_ok_length hunpack)

/-- Settles O20: PackBits frames the codes of X, and the codes are prefix-free. -/
theorem unpackOfPackIsTheInput : Obligations.UnpackOfPackIsTheInput := by
  intro s hs hv X hX hfit
  exact ⟨_, packBits_ok hX,
    (unpack_ok_iff (hs.code_prefixFree hv) _ _ _ _).2 ⟨framePayload_spec _, hX, rfl, hfit⟩⟩

end Sys2Proof.Machine

/-! ### The tables and codes ENCODE and DECODE leave -/

namespace Sys2Proof.Machine

/-- The code table of a frequency table: GenCodes of its tree, and no code where the table is empty (R230, R242). -/
def Freq.codeTable (F : Freq) : CodeTable :=
  (buildTree F).elim CodeTable.empty fun N =>
    genCodes (Vector.ofFn fun i => (N[i.val]?).getD (Node.ofBits 0)) N.length

theorem codeTable_of_empty {F : Freq} (h : ∀ x, F.get x = 0) : F.codeTable = CodeTable.empty := by
  show (buildTree F).elim _ _ = _
  rw [buildTree_none F h, Option.elim_none]

/-- The code table is that of a tree of F in an arena. -/
theorem codesOf_codeTable {F : Freq} (h : ∃ x, F.get x ≠ 0) : CodesOf F F.codeTable := by
  obtain ⟨N, hN⟩ := buildTree_some F h
  refine ⟨N, Vector.ofFn fun i => (N[i.val]?).getD (Node.ofBits 0), hN, fun i n hn => ?_, ?_⟩
  · rw [Vector.get_ofFn, hn, Option.getD_some]
  · show (buildTree F).elim _ _ = _
    rw [hN, Option.elim_some]

/-- The code table of F is prefix-free (R164). -/
theorem codeTable_prefixFree (F : Freq) : F.codeTable.prefixFree := by
  by_cases h : ∀ x, F.get x = 0
  · rw [codeTable_of_empty h]
    exact CodeTable.empty_prefixFree
  · exact (codesOf_codeTable (not_forall.1 h)).prefixFree

/-- Every symbol of a table has a code (R163). -/
theorem codeTable_coded {F : Freq} {x : Byte} (h : F.get x.toFin ≠ 0) : F.codeTable.coded x :=
  ((codesOf_codeTable ⟨_, h⟩).coded_iff x).2 h

/-- The state once FREQ is loaded with F, and the tree and the codes of F are built (R230, R240). -/
def State.withTable (s : State) (F : Freq) : State := (s.putFreq F).rebuild

theorem withTable_code (s : State) {F : Freq} (h : ∃ x, F.get x ≠ 0) : (s.withTable F).code = F.codeTable :=
  ((rebuild_spec s F).2.2 h).1.unique (codesOf_codeTable h)

/-- The code table that DECODE unpacks with once it has the table F (R240, R242). -/
theorem rebuild_decodeTable (s : State) (F : Freq) : (s.putFreq F).rebuild.decodeTable = F.codeTable := by
  obtain ⟨-, hempty, hfull⟩ := rebuild_spec s F
  by_cases h : ∀ x, F.get x = 0
  · exact (hempty h).1.trans (codeTable_of_empty h).symm
  · exact (hfull (not_forall.1 h)).2.trans (withTable_code s (not_forall.1 h))

/-- Building the tables of F leaves the operands of every command as they are. -/
theorem withTable_inputs (s : State) (F : Freq) : SameInputs s (s.withTable F) :=
  { (rebuild_kept (s.putFreq F)).1 with }

theorem State.Inv.withTable {s : State} (hs : s.Inv) (F : Freq) : (s.withTable F).Inv := (hs.putFreq F).rebuild

/-- What ENCODE and DECODE leave once they have the table F, whatever comes after it: the operands, the tree and the
codes of F, and the completion registers for code e (R230, R240, R255). -/
def EndsWithTable (s t : State) (F : Freq) (e : BitVec 4) : Prop :=
  SameInputs s t ∧ Rebuilt s t F ∧ (if ∀ x, F.get x = 0 then CodeTable.empty else t.code) = F.codeTable ∧
    Completed s t e

theorem endsWithTable_done {s t : State} {F : Freq} {e : BitVec 4} (h : EndsWithTable s t F e) : Completed s t e := by
  obtain ⟨-, -, -, hdone⟩ := h
  exact hdone

/-- A completion that keeps the tables of F ends a command with them. -/
theorem endsWithTable_of_completed {s t : State} {F : Freq} {e : BitVec 4} (hc : Completed (s.withTable F) t e)
    (hi : SameInputs (s.withTable F) t) (ht : SameTables (s.withTable F) t) : EndsWithTable s t F e := by
  obtain ⟨-, -, -, -, -, -, -, -, -, -, hoverrun, -⟩ := rebuild_kept (s.putFreq F)
  have hin := withTable_inputs s F
  refine ⟨hin.trans hi, (rebuild_spec s F).1.congr ht, ?_,
    { hc with error := hc.error.trans (by rw [hin.pending]), overrun := hc.overrun.trans hoverrun }⟩
  by_cases h : ∀ x, F.get x = 0
  · rw [if_pos h, codeTable_of_empty h]
  · rw [if_neg h, ht.code, withTable_code s (not_forall.1 h)]

/-- A failure after the tables of F are built loses the output (R255). -/
theorem FailsOutput.endsWithTable {s t : State} {F : Freq} {e : BitVec 4} (h : FailsOutput (s.withTable F) t e) :
    EndsWithTable s t F e ∧ OutputLost s t := by
  obtain ⟨-, -, -, -, -, hdraws, -⟩ := rebuild_kept (s.putFreq F)
  refine ⟨endsWithTable_of_completed h.completed h.inputs h.tables, h.output.outLen, fun a => ?_, ?_⟩
  · exact (h.output.bytes a).trans (congrArg (Config.anyBits 8 · a) hdraws)
  · exact hdraws.symm.trans_lt h.output.drawn

/-- A result delivered after the tables of F are built (R254). -/
theorem Delivers.endsWithTable {s t : State} {F : Freq} {R : List Byte} (h : Delivers (s.withTable F) t R) :
    EndsWithTable s t F 0 ∧ OutputIs s t R := by
  obtain ⟨-, hout, -, hdraw, -⟩ := rebuild_kept (s.putFreq F)
  exact ⟨endsWithTable_of_completed h.completed h.inputs h.tables, h.output.outLen, h.output.result,
    fun a ha => (h.output.above a ha).trans (outByte_congr hout hdraw a)⟩

end Sys2Proof.Machine

/-! ### SER_TABLE and PARSE_TABLE -/

namespace Sys2Proof.Machine

/-- Settles O21: SER_TABLE ends with the text of FREQ, which is an output that fits or not. -/
theorem serTableWritesTheText : Obligations.SerTableWritesTheText := fun s hs =>
  ⟨_, serTable s.freq, rfl, serTable_text s.freq, finishOutput_failsOutput rfl, hs.finishOutput_delivers .serTable⟩

/-- A number of n digits is below 10 ^ n (R102). -/
theorem NumberText.value_lt {T : List Byte} {v : Nat} (h : NumberText T v) : v < 10 ^ T.length := by
  induction h with
  | zero => decide
  | first d _ h9 => exact Nat.lt_succ_of_le h9
  | more T v d _ _ hd ih =>
    rw [List.length_append, List.length_singleton, Nat.pow_succ]
    omega

theorem NumberText.length_pos {T : List Byte} {v : Nat} (h : NumberText T v) : 1 ≤ T.length :=
  List.length_pos_iff.2 h.shape.2.1

/-- The length of dec(x) is the number of digits of x (R13). -/
theorem dec_length_eq {x n : Nat} (hlo : 10 ^ n ≤ x) (hhi : x < 10 ^ (n + 1)) : (dec x).length = n + 1 := by
  have hle := dec_length_le x (n + 1) hhi (Nat.le_add_left 1 n)
  have hlt := (Nat.pow_lt_pow_iff_right (by decide : 1 < 10)).1 (lt_of_le_of_lt hlo (dec_text x).value_lt)
  omega

theorem serEntry_length (F : Freq) (s : Fin 256) :
    (serEntry F s).length = (dec s.val).length + (dec (F.get s).toNat).length + 1 := by
  show (dec s.val ++ chColon :: dec (F.get s).toNat).length = _
  rw [List.length_append, List.length_cons, Nat.add_assoc]

/-- Ser is the braces and what stands between them (R210). -/
theorem serTable_length_eq (F : Freq) :
    (serTable F).length = 1 + (([chComma].intercalate (F.present.map (serEntry F))).length + 1) := by
  show (chOpen :: ([chComma].intercalate (F.present.map (serEntry F)) ++ [chClose])).length = _
  rw [List.length_cons, List.length_append, List.length_singleton, Nat.add_comm]

/-- Ser of a table that is not empty: the braces, the entries, and a comma less than there are entries (R210). -/
theorem serTable_length {F : Freq} (h : F.present ≠ []) :
    (serTable F).length = 1 + (F.present.map fun s => (serEntry F s).length + 1).sum := by
  have hjoin := intercalate_length (F.present.map (serEntry F)) (by simpa using h)
  rw [List.map_map] at hjoin
  rw [serTable_length_eq, hjoin]
  rfl

theorem Freq.present_eq_nil_iff (F : Freq) : F.present = [] ↔ ∀ x, F.get x = 0 := by
  simp [List.eq_nil_iff_forall_not_mem, F.mem_present]

/-- Ser of the empty table is the two braces (R236). -/
theorem serTable_of_empty {F : Freq} (h : ∀ x, F.get x = 0) : serTable F = [0x7B, 0x7D] := by
  show chOpen :: ([chComma].intercalate (F.present.map (serEntry F)) ++ [chClose]) = _
  rw [F.present_eq_nil_iff.2 h]
  rfl

/-- The symbols 0 to 9 have one digit, 10 to 99 two and 100 to 255 three (R13). -/
theorem sum_symbol_digits : ∑ n ∈ Finset.range 256, (dec n).length = 658 := by
  have h1 : ∑ n ∈ Finset.range 10, (dec n).length = _ := Finset.sum_const_nat fun n hn =>
    le_antisymm (dec_length_le n 1 (by simpa using hn) le_rfl) (dec_text n).length_pos
  have h2 : ∑ n ∈ Finset.range 90, (dec (10 + n)).length = _ := Finset.sum_const_nat fun n hn =>
    dec_length_eq (n := 1) (by omega) (by have := Finset.mem_range.1 hn; omega)
  have h3 : ∑ n ∈ Finset.range 156, (dec (10 + 90 + n)).length = _ := Finset.sum_const_nat fun n hn =>
    dec_length_eq (n := 2) (by omega) (by have := Finset.mem_range.1 hn; omega)
  rw [show 256 = 10 + 90 + 156 from rfl, Finset.sum_range_add, Finset.sum_range_add, h1, h2, h3]
  simp

/-- The entries of all 256 symbols with ten digits for each count, a comma after each. -/
theorem sum_longest_entries : ((List.finRange 256).map fun s => (dec s.val).length + 10 + 1 + 1).sum = 3730 := by
  rw [← Fin.sum_univ_def, Fin.sum_univ_eq_sum_range fun n => (dec n).length + 10 + 1 + 1]
  simp [Finset.sum_add_distrib, sum_symbol_digits]

theorem serTable_length_le (F : Freq) : (serTable F).length ≤ 3731 := by
  by_cases h : F.present = []
  · rw [serTable_of_empty (F.present_eq_nil_iff.1 h)]
    decide
  · have hcount (s : Fin 256) : (dec (F.get s).toNat).length ≤ 10 :=
      dec_length_le _ 10 (lt_trans (F.get s).isLt (by decide)) (by decide)
    calc (serTable F).length
      _ = 1 + (F.present.map fun s => (serEntry F s).length + 1).sum := serTable_length h
      _ ≤ 1 + (F.present.map fun s => (dec s.val).length + 10 + 1 + 1).sum := by
        gcongr 1 + ?_
        refine List.sum_le_sum fun s _ => ?_
        rw [serEntry_length]
        have := hcount s
        omega
      _ ≤ 1 + ((List.finRange 256).map fun s => (dec s.val).length + 10 + 1 + 1).sum := by
        gcongr 1 + ?_
        exact (List.filter_sublist.map _).sum_le_sum fun _ _ => Nat.zero_le _
      _ = 3731 := by rw [sum_longest_entries]

theorem serTable_length_ge (F : Freq) : 2 ≤ (serTable F).length := by
  rw [serTable_length_eq]
  omega

/-- A table of one nonzero count for every symbol lists them all (R35). -/
theorem Freq.present_replicate {c : Word} (hc : c ≠ 0) :
    Freq.present (Vector.replicate 256 c) = List.finRange 256 := by
  refine List.filter_eq_self.2 fun s _ => ?_
  rw [Vector.get_eq_getElem, Vector.getElem_replicate]
  exact bne_iff_ne.2 hc

/-- The longest Ser (R210). -/
theorem serTable_length_max : (serTable (Vector.replicate 256 0xFFFFFFFF)).length = 3731 := by
  have hdec : (dec (0xFFFFFFFF : Word).toNat).length = 10 := dec_length_eq (n := 9) (by decide) (by decide)
  have hp := Freq.present_replicate (c := 0xFFFFFFFF) (by decide)
  rw [serTable_length (by rw [hp]; decide), hp]
  simp only [serEntry_length, Vector.get_eq_getElem, Vector.getElem_replicate, hdec, sum_longest_entries]

/-- Settles O22: a list of entries has one text, whose length is the sum of those of its entries. -/
theorem serIsTheOnlyTextAndShort : Obligations.SerIsTheOnlyTextAndShort :=
  ⟨fun F => ⟨serTable_text F, fun _ hT => hT.text_unique (serTable_text F), serTable_length_ge F,
    serTable_length_le F⟩, serTable_length_max⟩

theorem State.not_lengthBad {s : State} (h : s.inLen.toNat ≤ s.cfg.inCap) : ¬ s.lengthBad = true := fun hb =>
  Nat.not_lt.2 h (s.lengthBad_iff.1 hb)

/-- PARSE_TABLE of an input that is longer than IN_BUF (R276). -/
theorem exec_parseTable_of_lt {s : State} (h : s.cfg.inCap < s.inLen.toNat) :
    exec .parseTable s = .next (s.raise .parseTable .lengthRange) :=
  congrArg Host.Outcome.next (if_pos (s.lengthBad_iff.2 h))

/-- PARSE_TABLE of an input that fits IN_BUF (R222). -/
theorem exec_parseTable_of_le {s : State} (h : s.inLen.toNat ≤ s.cfg.inCap) :
    exec .parseTable s = .next ((parseTable s.input).elim (s.raise .parseTable .malformedContainer)
      fun F => (s.putFreq F).succeed) := by
  refine congrArg Host.Outcome.next ((if_neg (State.not_lengthBad h)).trans ?_)
  cases parseTable s.input <;> rfl

/-- Settles O23: Parse accepts the texts of the grammar that pass the checks, and reads the table they denote. -/
theorem parseTableLoadsTheTable : Obligations.ParseTableLoadsTheTable := by
  intro s
  by_cases h : s.inLen.toNat ≤ s.cfg.inCap
  · refine ⟨_, exec_parseTable_of_le h, fun h' => absurd h (Nat.not_le.2 h'), fun _ => ?_⟩
    cases hp : parseTable s.input with
    | some F =>
      have hF := (parseTable_eq_some_iff s.input F).1 hp
      refine ⟨fun G hG => ?_, fun hno => absurd hF (hno F)⟩
      obtain rfl := Option.some.inj (hp.symm.trans ((parseTable_eq_some_iff s.input G).2 hG))
      exact ⟨rfl, putFreq_succeed_spec s F⟩
    | none =>
      refine ⟨fun G hG => ?_, fun _ => raise_failsPlain s _ _ rfl⟩
      cases hp.symm.trans ((parseTable_eq_some_iff s.input G).2 hG)
  · exact ⟨_, exec_parseTable_of_lt (Nat.not_le.1 h), fun _ => raise_failsPlain s _ _ rfl, fun h' => absurd h' h⟩

/-- Settles O24: Ser(F) is a text that denotes F, and Parse accepts those. -/
theorem parseOfSerIsTheTable : Obligations.ParseOfSerIsTheTable := fun F =>
  (parseTable_eq_some_iff _ F).2 (serTable_textOf F)

end Sys2Proof.Machine

/-! ### ENCODE -/

namespace Sys2Proof.Machine

/-- The packed payload of an input: its codes under the table of its own counts (R230). -/
def encodePayload (X : List Byte) : List Byte := framePayload (encodeSymbols X (countSymbols X).codeTable)

/-- The container of an input, a function of its bytes alone (R231, R246). -/
def encodeContainer (X : List Byte) : List Byte := container (serTable (countSymbols X)) (encodePayload X)

theorem encodeContainer_length_eq (X : List Byte) :
    (encodeContainer X).length = 4 + (serTable (countSymbols X)).length + (encodePayload X).length :=
  container_length _ _

/-- Every byte of an input has a code under the table of its counts (R230). -/
theorem countSymbols_coded {X : List Byte} (hX : X.length < 2 ^ 32) : ∀ x ∈ X, (countSymbols X).codeTable.coded x :=
  fun x hx => codeTable_coded ((countSymbols_get_ne_zero_iff hX x).2 hx)

theorem countSymbols_nil (x : Fin 256) : (countSymbols []).get x = 0 :=
  not_not.1 fun h => List.not_mem_nil ((countSymbols_get_ne_zero_iff (X := []) (by decide) (BitVec.ofFin x)).1 h)

/-- The counts of an input are all 0 exactly for the empty input. -/
theorem countSymbols_eq_zero_iff {X : List Byte} (hX : X.length < 2 ^ 32) :
    (∀ x, (countSymbols X).get x = 0) ↔ X = [] := by
  constructor
  · exact fun h => List.eq_nil_iff_forall_not_mem.2 fun x hx => (countSymbols_get_ne_zero_iff hX x).2 hx (h x.toFin)
  · rintro rfl
    exact countSymbols_nil

theorem encodeSymbols_nil (T : CodeTable) : encodeSymbols [] T = [] := rfl

theorem encodeSymbols_cons (x : Byte) (X : List Byte) (T : CodeTable) :
    encodeSymbols (x :: X) T = (T.of x).bits ++ encodeSymbols X T := List.flatMap_cons

/-- PackBits does not fail in ENCODE (R230). -/
theorem packBits_withTable (s : State) {X : List Byte} (hX : X.length < 2 ^ 32) :
    packBits X (s.withTable (countSymbols X)).code = .ok (encodePayload X) := by
  cases X with
  | nil =>
    refine (packBits_ok fun x hx => absurd hx List.not_mem_nil).trans ?_
    exact congrArg (Except.ok ∘ framePayload) (encodeSymbols_nil _)
  | cons x X =>
    rw [withTable_code s ⟨x.toFin, (countSymbols_get_ne_zero_iff hX x).2 List.mem_cons_self⟩]
    exact packBits_ok (countSymbols_coded hX)

/-- ENCODE of an input that is longer than IN_BUF (R276). -/
theorem exec_encode_of_lt {s : State} (h : s.cfg.inCap < s.inLen.toNat) :
    exec .encode s = .next (s.raise .encode .lengthRange) :=
  congrArg Host.Outcome.next (if_pos (s.lengthBad_iff.2 h))

/-- ENCODE of an input that fits IN_BUF (R230). -/
theorem exec_encode_of_le {s : State} (h : s.inLen.toNat ≤ s.cfg.inCap) : exec .encode s =
    .next ((s.withTable (countSymbols s.input)).finishOutput .encode (encodeContainer s.input)) := by
  have hpack : packBits s.input (s.putFreq (countSymbols s.input)).rebuild.code = _ :=
    packBits_withTable s s.input_length_lt
  have hfreq : (s.putFreq (countSymbols s.input)).rebuild.freq = countSymbols s.input := (rebuild_spec s _).1.freq
  refine congrArg Host.Outcome.next ((if_neg (State.not_lengthBad h)).trans ?_)
  dsimp only
  rw [hpack, hfreq]
  rfl

/-- Everything ENCODE of an input that fits IN_BUF does (R230, R254, R255). -/
theorem exec_encode_spec {s t : State} (hs : s.Inv) (h : s.inLen.toNat ≤ s.cfg.inCap)
    (ht : exec .encode s = .next t) :
    (s.cfg.outCap < (encodeContainer s.input).length →
      EndsWithTable s t (countSymbols s.input) 0x5 ∧ OutputLost s t) ∧
    ((encodeContainer s.input).length ≤ s.cfg.outCap →
      EndsWithTable s t (countSymbols s.input) 0 ∧ OutputIs s t (encodeContainer s.input)) := by
  obtain rfl := Host.Outcome.next.inj ((exec_encode_of_le h).symm.trans ht)
  have hcap : (s.withTable (countSymbols s.input)).cfg.outCap = s.cfg.outCap := by
    rw [(withTable_inputs s _).cfg]
  rw [← hcap]
  refine ⟨fun hlong => ?_, fun hfits => ?_⟩
  · exact (finishOutput_failsOutput rfl hlong).endsWithTable
  · exact ((hs.withTable _).finishOutput_delivers .encode hfits).endsWithTable

/-- ENCODE of an input that fits IN_BUF ends with the tables of the input, and without an error where the container
fits OUT_BUF (R230). -/
theorem exec_encode_ends {s t : State} (hs : s.Inv) (h : s.inLen.toNat ≤ s.cfg.inCap)
    (ht : exec .encode s = .next t) :
    ∃ e, EndsWithTable s t (countSymbols s.input) e ∧ (e = 0 ↔ (encodeContainer s.input).length ≤ s.cfg.outCap) := by
  obtain ⟨hlong, hfits⟩ := exec_encode_spec hs h ht
  obtain hlt | hle := Nat.lt_or_ge s.cfg.outCap (encodeContainer s.input).length
  · exact ⟨_, (hlong hlt).1, iff_of_false (by decide) (Nat.not_le.2 hlt)⟩
  · exact ⟨_, (hfits hle).1, iff_of_true rfl hle⟩

/-- What an ENCODE without an error has found and written (R230, R254). -/
theorem exec_encode_output {s t : State} (hs : s.Inv) (ht : exec .encode s = .next t) (herr : t.status.err = false) :
    t.freq = countSymbols s.input ∧ OutputIs s t (encodeContainer s.input) := by
  by_cases h : s.inLen.toNat ≤ s.cfg.inCap
  · obtain ⟨e, hend, he⟩ := exec_encode_ends hs h ht
    obtain ⟨-, hrebuilt, -, hdone⟩ := hend
    have he0 : e = 0 := by simpa using hdone.err.symm.trans herr
    exact ⟨hrebuilt.freq, ((exec_encode_spec hs h ht).2 (he.1 he0)).2⟩
  · obtain rfl := Host.Outcome.next.inj ((exec_encode_of_lt (Nat.not_le.1 h)).symm.trans ht)
    exact absurd herr Bool.noConfusion

theorem State.input_eq_nil_iff (s : State) : s.input = [] ↔ s.inLen = 0 := by
  rw [← List.length_eq_zero_iff, s.input_length, BitVec.toNat_eq]
  rfl

/-- The code table ENCODE packs with is CODE, and for the empty input the empty one (R236). -/
theorem encode_codes {s t : State} {e : BitVec 4} (h : EndsWithTable s t (countSymbols s.input) e) :
    (if s.inLen = 0 then CodeTable.empty else t.code) = (countSymbols s.input).codeTable := by
  obtain ⟨-, -, hcodes, -⟩ := h
  simpa only [countSymbols_eq_zero_iff s.input_length_lt, s.input_eq_nil_iff] using hcodes

/-- The table text of a container has a length that its four length bytes hold. -/
theorem serTable_length_lt (F : Freq) : (serTable F).length < 2 ^ 32 :=
  lt_of_le_of_lt (serTable_length_le F) (by decide)

theorem encodeContainer_containerOf (X : List Byte) :
    ContainerOf (encodeContainer X) (serTable (countSymbols X)) (encodePayload X) :=
  container_containerOf _ _ (serTable_length_lt _)

/-- Settles O25: ENCODE ends with the tables of its input, and with the container of their text and the payload. -/
theorem encodeWritesTheContainer : Obligations.EncodeWritesTheContainer := by
  intro s hs
  by_cases h : s.inLen.toNat ≤ s.cfg.inCap
  · have ht := exec_encode_of_le h
    obtain ⟨hlong, hfits⟩ := exec_encode_spec hs h ht
    obtain ⟨e, hend, -⟩ := exec_encode_ends hs h ht
    have hcodes := encode_codes hend
    obtain ⟨hinputs, hrebuilt, -, -⟩ := hend
    refine ⟨_, ht, hinputs, fun h' => absurd h (Nat.not_le.2 h'), fun _ => ?_⟩
    rw [hrebuilt.freq, hcodes]
    refine ⟨hrebuilt, countSymbols_get s.input s.input_length_lt, _, _, _, encodeContainer_containerOf s.input,
      serTable_text _, framePayload_spec _, fun hl => ?_, fun hf => ?_⟩
    · obtain ⟨⟨-, -, -, hdone⟩, hlost⟩ := hlong hl
      exact ⟨hdone, hlost⟩
    · obtain ⟨⟨-, -, -, hdone⟩, hout⟩ := hfits hf
      exact ⟨hdone, hout⟩
  · have hfails := raise_failsOutput s .encode .lengthRange rfl
    exact ⟨_, exec_encode_of_lt (Nat.not_le.1 h), hfails.inputs, fun _ => hfails, fun h' => absurd h' h⟩

/-- The bits of an encoded stream, symbol by symbol (R232). -/
theorem encodeSymbols_length (X : List Byte) (T : CodeTable) : (encodeSymbols X T).length =
    ((List.finRange 256).map fun s : Fin 256 => X.count (BitVec.ofFin s) * (T.get s).len.toNat).sum := by
  rw [← Fin.sum_univ_def]
  induction X with
  | nil => simp [encodeSymbols_nil]
  | cons x X ih =>
    have hsingle (s : Fin 256) : x = BitVec.ofFin s ↔ x.toFin = s := ⟨fun h => h ▸ rfl, fun h => h ▸ rfl⟩
    rw [encodeSymbols_cons, List.length_append, Code.bits_length, ih]
    simp only [List.count_cons, beq_iff_eq, Nat.add_mul, Finset.sum_add_distrib, hsingle, ite_mul, one_mul, zero_mul,
      Finset.sum_ite_eq, Finset.mem_univ, if_true]
    exact Nat.add_comm ..

theorem encodePayload_length (X : List Byte) : (encodePayload X).length = 1 +
    (((List.finRange 256).map fun s : Fin 256 =>
      X.count (BitVec.ofFin s) * ((countSymbols X).codeTable.get s).len.toNat).sum + 7) / 8 :=
  (framePayload_length _).trans (by rw [encodeSymbols_length])

/-- The length of the container of an input (R232). -/
theorem encodeContainer_length {X : List Byte} (hX : X.length < 2 ^ 32) :
    (encodeContainer X).length = containerLength (countSymbols X) (countSymbols X).codeTable := by
  have hcount (s : Fin 256) : X.count (BitVec.ofFin s) = ((countSymbols X).get s).toNat :=
    (countSymbols_get X hX (BitVec.ofFin s)).symm
  show _ = 4 + _ + 1 + (_ + 7) / 8
  rw [encodeContainer_length_eq, encodePayload_length]
  simp only [hcount, Nat.add_assoc]

/-- Settles O26: the length of the container is that of its parts, and ENCODE succeeds where it fits. -/
theorem encodeOutputLength : Obligations.EncodeOutputLength := by
  intro s t hs h ht
  obtain ⟨e, hend, he⟩ := exec_encode_ends hs h ht
  have hcodes := encode_codes hend
  obtain ⟨-, hrebuilt, -, hdone⟩ := hend
  have herr : t.status.err = false ↔ e = 0 := by rw [hdone.err, bne_eq_false_iff_eq]
  rw [hcodes, hrebuilt.freq, ← encodeContainer_length s.input_length_lt]
  exact ⟨serTable_length_le _, herr.trans he, fun h0 => (exec_encode_output hs ht h0).2.outLen⟩

end Sys2Proof.Machine

/-! ### DECODE -/

namespace Sys2Proof.Machine

/-- DECODE of an input that is longer than IN_BUF (R276). -/
theorem exec_decode_of_lt {s : State} (h : s.cfg.inCap < s.inLen.toNat) :
    exec .decode s = .next (s.raise .decode .lengthRange) :=
  congrArg Host.Outcome.next (if_pos (s.lengthBad_iff.2 h))

/-- DECODE of what is no container with a legal table (R241). -/
theorem exec_decode_of_malformed {s : State} (h : s.inLen.toNat ≤ s.cfg.inCap) (hC : splitContainer s.input = none) :
    exec .decode s = .next (s.raise .decode .malformedContainer) := by
  refine congrArg Host.Outcome.next ((if_neg (State.not_lengthBad h)).trans ?_)
  rw [hC]

section
variable {s : State} {F : Freq} {P : List Byte}

/-- DECODE of a container whose payload Unpack rejects (R240). -/
theorem exec_decode_of_error (h : s.inLen.toNat ≤ s.cfg.inCap) (hC : splitContainer s.input = some (F, P))
    {e : ErrorCode} (hU : unpack P F.codeTable F.total s.cfg.outCap = .error e) :
    exec .decode s = .next ((s.withTable F).raise .decode e) := by
  refine congrArg Host.Outcome.next ((if_neg (State.not_lengthBad h)).trans ?_)
  rw [hC]
  dsimp only
  rw [rebuild_decodeTable, hU]
  rfl

/-- DECODE of a container whose payload Unpack decodes (R240). -/
theorem exec_decode_of_ok (h : s.inLen.toNat ≤ s.cfg.inCap) (hC : splitContainer s.input = some (F, P))
    {R : List Byte} (hU : unpack P F.codeTable F.total s.cfg.outCap = .ok R) :
    exec .decode s = .next ((s.withTable F).putOutput R).succeed := by
  refine congrArg Host.Outcome.next ((if_neg (State.not_lengthBad h)).trans ?_)
  rw [hC]
  dsimp only
  rw [rebuild_decodeTable, hU]
  rfl

/-- Everything DECODE of a container does: the tables of its table text, and the outcome of the unpacking (R240). -/
theorem exec_decode_of_container (hs : s.Inv) (h : s.inLen.toNat ≤ s.cfg.inCap)
    (hC : splitContainer s.input = some (F, P)) : ∃ t e, exec .decode s = .next t ∧ EndsWithTable s t F e ∧
      (∀ e', unpack P F.codeTable F.total s.cfg.outCap = .error e' → Completed s t e'.num ∧ OutputLost s t) ∧
      ∀ X, unpack P F.codeTable F.total s.cfg.outCap = .ok X → Completed s t 0 ∧ OutputIs s t X := by
  cases hU : unpack P F.codeTable F.total s.cfg.outCap with
  | error e =>
    obtain ⟨hend, hlost⟩ := (raise_failsOutput (s.withTable F) .decode e rfl).endsWithTable
    refine ⟨_, _, exec_decode_of_error h hC hU, hend, fun e' he => ?_, nofun⟩
    obtain rfl := Except.error.inj he
    exact ⟨endsWithTable_done hend, hlost⟩
  | ok R =>
    have hfits : R.length ≤ (s.withTable F).cfg.outCap := by
      rw [(withTable_inputs s F).cfg]
      exact unpack_ok_length hU
    obtain ⟨hend, hout⟩ := ((hs.withTable F).putOutput_delivers hfits).endsWithTable
    refine ⟨_, _, exec_decode_of_ok h hC hU, hend, nofun, fun X hX => ?_⟩
    obtain rfl := Except.ok.inj hX
    exact ⟨endsWithTable_done hend, hout⟩

end

/-- Settles O28: step 1 fails on what is no container, and the rows of R190 name what the unpacking answers, as the
codes of a table are prefix-free. -/
theorem decodeReadsTheContainer : Obligations.DecodeReadsTheContainer := by
  intro s hs
  by_cases h : s.inLen.toNat ≤ s.cfg.inCap
  · cases hC : splitContainer s.input with
    | none =>
      have hfails := raise_failsOutput s .decode .malformedContainer rfl
      refine ⟨_, exec_decode_of_malformed h hC, hfails.inputs, fun hlt => absurd h (Nat.not_le.2 hlt),
        fun _ => ⟨fun _ => hfails, fun T P F hT hF => ?_⟩⟩
      cases hC.symm.trans (splitContainer_some hT hF)
    | some FP =>
      obtain ⟨t, e, ht, ⟨hinputs, hrebuilt, hcodes, -⟩, herror, hok⟩ := exec_decode_of_container hs h hC
      refine ⟨t, ht, hinputs, fun hlt => absurd h (Nat.not_le.2 hlt),
        fun _ => ⟨fun hno => ?_, fun T P F hT hF => ?_⟩⟩
      · cases hC.symm.trans (splitContainer_none hno)
      · obtain rfl := Option.some.inj (hC.symm.trans (splitContainer_some hT hF))
        dsimp only
        rw [hcodes]
        have answer {r : Except ErrorCode (List Byte)} (hr : UnpackGives P F.codeTable F.total s.cfg.outCap r) :=
          hr.unpack_eq (codeTable_prefixFree F)
        exact ⟨hrebuilt, UnpackGives.exists_outcome _ _ _, fun e' he => herror e' (answer he),
          fun X hX => hok X (answer hX)⟩
  · have hfails := raise_failsOutput s .decode .lengthRange rfl
    exact ⟨_, exec_decode_of_lt (Nat.not_le.1 h), hfails.inputs, fun _ => hfails, fun h' => absurd h' h⟩

/-! What DECODE makes of the container of an input (R236, R245). -/

/-- DECODE of the container of X answers X (R245). -/
theorem exec_decode_of_encodeContainer {u : State} (hu : u.Inv) (h : u.inLen.toNat ≤ u.cfg.inCap) {X : List Byte}
    (hX : X.length < 2 ^ 32) (hin : u.input = encodeContainer X) (hfits : X.length ≤ u.cfg.outCap) :
    ∃ v, exec .decode u = .next v ∧ v.error.code = 0 ∧ OutputIs u v X := by
  have hC : splitContainer u.input = some (countSymbols X, encodePayload X) := by
    rw [hin]
    exact splitContainer_some (encodeContainer_containerOf X) (serTable_textOf _)
  have hU : unpack (encodePayload X) (countSymbols X).codeTable (countSymbols X).total u.cfg.outCap = .ok X :=
    (unpack_ok_iff (codeTable_prefixFree _) _ _ _ _).2
      ⟨framePayload_spec _, countSymbols_coded hX, (countSymbols_total X hX).symm, hfits⟩
  obtain ⟨v, -, hv, -, -, hok⟩ := exec_decode_of_container hu h hC
  obtain ⟨hdone, hout⟩ := hok X hU
  exact ⟨v, hv, congrArg ErrorReg.code hdone.error, hout⟩

/-- Settles O29: an ENCODE without an error writes the container of its input, from which DECODE reads it. -/
theorem decodeOfEncodeIsTheInput : Obligations.DecodeOfEncodeIsTheInput := by
  intro s t u hs hu ht herr hin h hfits
  obtain ⟨-, hwritten⟩ := exec_encode_output hs ht herr
  obtain ⟨v, hv, hcode, hout⟩ := exec_decode_of_encodeContainer hu h s.input_length_lt (hin.trans hwritten.result)
    (s.input_length.trans_le hfits)
  exact ⟨v, hv, hcode, BitVec.eq_of_toNat_eq (hout.outLen.trans s.input_length), hout.result⟩

/-- The empty container (R236). -/
theorem encodeContainer_nil : encodeContainer [] = [0x00, 0x00, 0x00, 0x02, 0x7B, 0x7D, 0x00] := by
  show container (serTable (countSymbols [])) (framePayload (encodeSymbols [] _)) = _
  rw [serTable_of_empty countSymbols_nil, encodeSymbols_nil]
  decide

/-- Settles O27: the empty container is that of the empty input, and OUT_CAP is at least its length. -/
theorem emptyInputHasTheEmptyContainer : Obligations.EmptyInputHasTheEmptyContainer := by
  refine ⟨fun s hs h0 => ?_, fun s hs h hin => ?_⟩
  · have hX : s.input = [] := s.input_eq_nil_iff.2 h0
    have h : s.inLen.toNat ≤ s.cfg.inCap := h0 ▸ Nat.zero_le _
    obtain ⟨-, hfits⟩ := exec_encode_spec hs h (exec_encode_of_le h)
    rw [hX, encodeContainer_nil] at hfits
    obtain ⟨⟨-, hrebuilt, -, hdone⟩, hout⟩ := hfits hs.params.2.1.1
    obtain ⟨htree, hcodes, -⟩ := hrebuilt.empty countSymbols_nil
    refine ⟨_, exec_encode_of_le h, ?_⟩
    rw [hX, encodeContainer_nil, hrebuilt.freq]
    exact ⟨congrArg ErrorReg.code hdone.error, hout.result, countSymbols_nil, htree, hcodes⟩
  · obtain ⟨v, hv, hcode, hout⟩ := exec_decode_of_encodeContainer hs h (X := []) (by decide)
      (hin.trans encodeContainer_nil.symm) (Nat.zero_le _)
    exact ⟨v, hv, hcode, BitVec.eq_of_toNat_eq hout.outLen⟩

end Sys2Proof.Machine

/-! ### Containers cut short -/

namespace Sys2Proof.Machine

/-- A container cut in its payload is a container with the same table text (R246 b). -/
theorem ContainerOf.take_of_le {C T P : List Byte} (h : ContainerOf C T P) {m : Nat} (hm : 4 + T.length ≤ m) :
    ContainerOf (C.take m) T (P.take (m - (4 + T.length))) := by
  obtain ⟨b0, b1, b2, b3, rfl, hlen⟩ := h
  obtain ⟨k, rfl⟩ := Nat.exists_eq_add_of_le hm
  refine ⟨b0, b1, b2, b3, ?_, hlen⟩
  rw [Nat.add_sub_cancel_left, show 4 + T.length + k = T.length + k + 4 by omega]
  simp only [List.take_succ_cons, List.take_length_add_append]

/-- A container cut in its table text or before is no container: its length bytes ask for more (R246 c, d). -/
theorem ContainerOf.not_take_of_lt {C T P : List Byte} (h : ContainerOf C T P) {m : Nat} (hm : m < 4 + T.length)
    (T' P' : List Byte) : ¬ ContainerOf (C.take m) T' P' := by
  rintro ⟨c0, c1, c2, c3, hC, hlen'⟩
  obtain ⟨b0, b1, b2, b3, rfl, hlen⟩ := h
  have hm4 : 4 ≤ m := by
    have hl := congrArg List.length hC
    simp only [List.length_take, List.length_cons, List.length_append] at hl
    omega
  obtain ⟨k, rfl⟩ := Nat.exists_eq_add_of_le' hm4
  simp only [List.take_succ_cons, List.cons.injEq] at hC
  obtain ⟨rfl, rfl, rfl, rfl, hrest⟩ := hC
  have hl := congrArg List.length hrest
  simp only [List.length_take, List.length_append] at hl
  omega

/-- A payload cut short holds a stream cut short (R246 b). -/
theorem PayloadOf.stream_cut {P : List Byte} {B D : Bits} {k : Nat} (h : PayloadOf P B) (hk : k < P.length)
    (hD : PayloadOf (P.take k) D) : ∃ E, E ≠ [] ∧ D ++ E = B := by
  obtain ⟨p, Y, rfl, -, hY⟩ := h
  obtain ⟨q, Z, hcut, -, hZ⟩ := hD
  cases k with
  | zero => cases hcut
  | succ k =>
    obtain ⟨rfl, rfl⟩ := List.cons.inj hcut
    have hlenY := congrArg List.length hY
    have hlenZ := congrArg List.length hZ
    simp only [bytesBits_length, List.length_append, List.length_replicate, List.length_take, List.length_cons]
      at hlenY hlenZ hk
    have hprefix : D <+: B ++ List.replicate p.toNat false := by
      rw [← hY, ← List.take_append_drop k Y, bytesBits_append, hZ, List.append_assoc]
      exact List.prefix_append ..
    obtain ⟨E, rfl⟩ := List.prefix_of_prefix_length_le hprefix (List.prefix_append ..) (by omega)
    refine ⟨E, ?_, rfl⟩
    rintro rfl
    simp only [List.append_nil] at hlenY
    omega

theorem greedy_encodeSymbols {T : CodeTable} (hT : T.prefixFree) {X : List Byte} (hX : ∀ x ∈ X, T.coded x) :
    greedy (inverseTable T) [] (encodeSymbols X T) = (X, []) := by
  have hparse := greedy_encode hT X hX []
  rw [List.append_nil] at hparse
  exact hparse.trans (Prod.ext (List.append_nil X) rfl)

/-- Unpack of a payload cut short is CORRUPT_PAYLOAD: too few symbols, or a row before the count (R246 b). -/
theorem UnpackGives.of_take {T : CodeTable} (hT : T.prefixFree) {X P : List Byte} (hX : ∀ x ∈ X, T.coded x)
    (hP : PayloadOf P (encodeSymbols X T)) {k : Nat} (hk : k < P.length) (cap : Nat) :
    UnpackGives (P.take k) T X.length cap (.error .corruptPayload) := by
  have fewer {Z : List Byte} (hZ : PayloadOf (P.take k) (encodeSymbols Z T)) (hcoded : ∀ x ∈ Z, T.coded x) :
      Z.length ≠ X.length := by
    obtain ⟨E, hE, hcut⟩ := hP.stream_cut hk hZ
    have hparse := greedy_cut hT hX hcut hE
    rw [greedy_encodeSymbols hT hcoded] at hparse
    exact Nat.ne_of_lt (hparse.resolve_left fun hleft => hleft rfl)
  obtain ⟨r, hr⟩ := UnpackGives.exists_outcome (T := T) (P.take k) X.length cap
  cases hr with
  | noPadding h => exact .noPadding h
  | badPadding p Y h h7 =>
    obtain ⟨q, Z, rfl, hq, -⟩ := hP
    cases k with
    | zero => cases h
    | succ k =>
      obtain ⟨rfl, -⟩ := List.cons.inj h
      exact absurd hq (Nat.not_le.2 h7)
  | longPadding p Y h h7 hl => exact .longPadding p Y h h7 hl
  | dirtyPadding p Y h h7 hl hd => exact .dirtyPadding p Y h h7 hl hd
  | leftover D hD hne => exact .leftover D hD hne
  | badCount Z hZ hcoded hn => exact .badCount Z hZ hcoded hn
  | overflow Z hZ hcoded hn => exact absurd hn (fewer hZ hcoded)
  | ok Z hZ hcoded hn => exact absurd hn (fewer hZ hcoded)

/-- The payload of an input cut short does not unpack (R246 b). -/
theorem unpack_encodePayload_take {X : List Byte} (hX : X.length < 2 ^ 32) {k : Nat}
    (hk : k < (encodePayload X).length) (cap : Nat) :
    unpack ((encodePayload X).take k) (countSymbols X).codeTable X.length cap = .error .corruptPayload :=
  (UnpackGives.of_take (codeTable_prefixFree _) (countSymbols_coded hX) (framePayload_spec _) hk cap).unpack_eq
    (codeTable_prefixFree _)

/-- Settles O30: the output is the container of the input; a cut in the table text leaves no container, and a cut after
it leaves too short a payload. -/
theorem encodeIsDeterministicAndTruncationIsFound : Obligations.EncodeIsDeterministicAndTruncationIsFound := by
  intro s t hs ht herr
  obtain ⟨hfreq, hwritten⟩ := exec_encode_output hs ht herr
  have hC := encodeContainer_containerOf s.input
  rw [hfreq, hwritten.result]
  refine ⟨fun s' t' hs' ht' herr' hsame => ?_, fun u m hu h hm hin => ?_⟩
  · rw [(exec_encode_output hs' ht' herr').2.result, hsame]
  by_cases hcut : 4 + (serTable (countSymbols s.input)).length ≤ m
  · have hsplit := splitContainer_some (hC.take_of_le hcut) (serTable_textOf _)
    rw [← hin] at hsplit
    obtain ⟨v, -, hv, -, herror, -⟩ := exec_decode_of_container hu h hsplit
    obtain ⟨hdone, hlost⟩ := herror .corruptPayload <| by
      rw [countSymbols_total _ s.input_length_lt]
      exact unpack_encodePayload_take s.input_length_lt (by rw [encodeContainer_length_eq] at hm; omega) _
    exact ⟨v, hv, fun _ => ⟨congrArg ErrorReg.code hdone.error, hlost.outLen⟩,
      fun hlt => absurd hcut (Nat.not_le.2 hlt)⟩
  · have hsplit : splitContainer u.input = none := by
      rw [hin]
      exact splitContainer_none fun T P _ hT => absurd hT (hC.not_take_of_lt (Nat.not_le.1 hcut) T P)
    have hfails := raise_failsOutput u .decode .malformedContainer rfl
    exact ⟨_, exec_decode_of_malformed h hsplit, fun hle => absurd hle hcut,
      fun _ => ⟨congrArg ErrorReg.code hfails.completed.error, hfails.output.outLen⟩⟩

end Sys2Proof.Machine

/-! ### Issue, acknowledge, CTRL and the turn of the engine -/

namespace Sys2Proof.Machine

/-- With BUSY = 1, and no host step left before the completion or none to take, the step is the engine's (R253). -/
theorem step_eq_engineStep {s : State} (hb : s.status.busy = true) (h : s.hostSlots = 0 ∨ s.host = []) :
    step s = s.engineStep := by
  have hturn : s.engineTurn = true := by
    unfold State.engineTurn
    obtain h | h := h <;> simp [hb, h]
  rw [step, if_pos hturn]

/-- An illegal word fails decode (R91). -/
theorem decode_of_not_legal {w : Word} (h : legalWord w = false) : ∃ e, decode w = .error e := by
  cases hd : decode w with
  | error e => exact ⟨e, rfl⟩
  | ok i =>
    have hlegal : legalWord w = true := (legalWord_iff w).2 ⟨i, (decode_eq_ok_iff w i).1 hd⟩
    rw [h] at hlegal
    cases hlegal

/-- Settles O5: the engine reports ILLEGAL_COMMAND, and a report changes nothing but the completion registers. -/
theorem illegalWordsCompleteWithIllegalCommand : Obligations.IllegalWordsCompleteWithIllegalCommand := by
  intro s hb hturn hillegal
  obtain ⟨e, he⟩ := decode_of_not_legal hillegal
  obtain ⟨hdone, hinputs, houtput, htables⟩ := report_spec s ErrorCode.illegalCommand.num
  refine ⟨_, ?_, hdone, hinputs, htables, houtput⟩
  rw [step_eq_engineStep hb hturn, State.engineStep, State.fetch, he]

/-- A placed command word is the one the engine fetches (log entry 5). -/
theorem withFetchWord_pending (s : State) (i : Instr) :
    (s.withFetchWord 32 (encode i).toNat).pending = encode i := by
  show BitVec.ofNat 32 ((encode i).toNat % 2 ^ 32) = encode i
  rw [Nat.mod_eq_of_lt (encode i).isLt, BitVec.ofNat_toNat, BitVec.setWidth_eq]

/-- Settles O4: the engine moves, and fetches a word that decodes to the command. -/
theorem stepRunsTheDecodedCommand : Obligations.StepRunsTheDecodedCommand := by
  refine ⟨fun s i => step_eq_exec, fun s i => step_eq_exec rfl (.inl rfl) ?_⟩
  rw [withFetchWord_pending, decode_eq_ok_iff]

/-- Settles O41: an idle write of CMD is an issue. -/
theorem issueLatchesTheCommand : Obligations.IssueLatchesTheCommand := by
  intro s w hb
  rw [transact_write_reg s 0x00C w (by omega) (by omega), show CtrlReg.at 0x00C = .cmd from rfl, store_cmd_idle hb,
    State.issue, List.headD_eq_head?_getD, ← List.drop_one]
  rfl

/-- A flag after its acknowledge (R257). -/
theorem flag_acked (f b : Bool) : (f && !b) = if b then false else f := by
  cases b
  · exact Bool.and_true f
  · exact Bool.and_false f

/-- Settles O46: a write of STATUS is an acknowledge. -/
theorem statusWriteAcknowledges : Obligations.StatusWriteAcknowledges := by
  intro s d
  rw [transact_write_reg s 0x010 d (by omega) (by omega), show CtrlReg.at 0x010 = .status from rfl, State.store,
    State.acknowledge, Status.acked, flag_acked, flag_acked, flag_acked]

/-- A transaction that writes CTRL (R258), busy or not. -/
theorem transact_write_ctrl (s : State) (d : Word) :
    s.transact (.write (s.cfg.blockBase + 0x008) 4 d) = { s.writeCtrl d with resp := some .writeOk } :=
  transact_write_reg s 0x008 d (by omega) (by omega)

/-- A write of CTRL with bit 1 set is a soft reset (R258). -/
theorem writeCtrl_of_reset (s : State) {d : Word} (h : d.getLsbD 1 = true) : s.writeCtrl d = s.softReset := if_pos h

/-- A write of CTRL with bit 1 clear stores IRQ_EN (R258). -/
theorem writeCtrl_of_no_reset (s : State) {d : Word} (h : d.getLsbD 1 = false) :
    s.writeCtrl d = { s with irqEn := d.getLsbD 0 } := if_neg (Bool.not_eq_true _ ▸ h)

/-- Settles O47: a write of CTRL is a soft reset or stores IRQ_EN. -/
theorem ctrlWriteSetsOrResets : Obligations.CtrlWriteSetsOrResets := by
  intro s d
  rw [transact_write_ctrl]
  refine ⟨fun h => ?_, fun h => ?_⟩
  · rw [writeCtrl_of_no_reset s h]
  · rw [writeCtrl_of_reset s h]
    exact ⟨(softReset_resetValues s).withResp _, fun _ => rfl, rfl, rfl, fun _ => rfl, rfl⟩

end Sys2Proof.Machine

/-! ### The host while a command is pending -/

namespace Sys2Proof.Machine

/-- While BUSY = 1 an OK write of CMD, IN_LEN, FREQ or IN_BUF is dropped (R251). -/
theorem store_dropped {s : State} (hb : s.status.busy = true) {a n : Nat} {l : Loc}
    (hl : decodeAccess s.cfg a n = .ok l) (d : Word)
    (ha : a = 0x00C ∨ a = 0x018 ∨ (0x1000 ≤ a ∧ a < 0x1400) ∨ (0x1000000 ≤ a ∧ a < 0x2000000)) :
    s.store l n d = s.overrun := by
  obtain ⟨-, -, hloc, -, -⟩ := decodeAccess_facts hl
  have hregion := locate_inRegion hloc
  cases l with
  | reg r =>
    obtain ⟨rfl, -⟩ := decodeAccess_reg_inv hl
    cases r with
    | cmd | inLen => exact if_pos hb
    | id | version | ctrl | status | error | outLen | nodeCount => exact absurd ha (by decide)
  | freq | inBuf => exact if_pos hb
  | node | code | outBuf =>
    simp only [Loc.InRegion] at hregion
    omega

/-- Settles O44: by the location the write decodes to; read-only locations are O38's. -/
theorem writesWhileBusyAreDropped : Obligations.WritesWhileBusyAreDropped := by
  intro s a n d hb hlegal t
  have hword (h : a < 0x24) : n = 4 := by unfold LegalAccess at hlegal; omega
  refine ⟨fun ha => ?_, fun ha => ?_, fun ha => ?_, writesToReadOnlyLocationsDoNothing s a n d hlegal⟩
  · obtain ⟨l, hl⟩ := (legalAccess_iff s.cfg a n).1 hlegal
    show s.transact _ = _
    rw [transact_write (by omega) hl, store_dropped hb hl d ha]
    rfl
  · obtain rfl := hword (by omega)
    subst ha
    exact transact_write_ctrl s d
  · obtain rfl := hword (by omega)
    subst ha
    exact transact_write_reg s 0x010 d (by omega) (by omega)

/-- While BUSY = 1 an OK write does nothing, is dropped, or is one of CTRL or STATUS (R251). -/
theorem store_busy_cases {s : State} (hb : s.status.busy = true) (l : Loc) (n : Nat) (d : Word) :
    s.store l n d = s ∨ s.store l n d = s.overrun ∨ s.store l n d = s.writeCtrl d ∨
      s.store l n d = s.acknowledge d := by
  cases l with
  | reg r =>
    cases r with
    | ctrl => exact .inr (.inr (.inl rfl))
    | status => exact .inr (.inr (.inr rfl))
    | cmd | inLen => exact .inr (.inl (if_pos hb))
    | id | version | error | outLen | nodeCount => exact .inl rfl
  | freq | inBuf => exact .inr (.inl (if_pos hb))
  | node | code | outBuf => exact .inl rfl

/-- A write of CTRL leaves the host steps before the completion as they are, or resets the block. -/
theorem writeCtrl_hostSlots (s : State) (d : Word) :
    (s.writeCtrl d).hostSlots = s.hostSlots ∨ (s.writeCtrl d).status.busy = false := by
  cases h : d.getLsbD 1 with
  | false => exact .inl (by rw [writeCtrl_of_no_reset s h])
  | true => exact .inr (by rw [writeCtrl_of_reset s h]; rfl)

/-- While BUSY = 1 a transaction leaves the host steps before the completion as they are, or resets the block. -/
theorem transact_busy_hostSlots {s : State} (hb : s.status.busy = true) (x : Txn) :
    (s.transact x).hostSlots = s.hostSlots ∨ (s.transact x).status.busy = false := by
  obtain ⟨r, k, e⟩ | ⟨a, n, d, l, r, -, -, e⟩ := transact_cases s x <;> rw [e]
  · exact .inl rfl
  · show (s.store l n d).hostSlots = _ ∨ (s.store l n d).status.busy = _
    obtain h | h | h | h := store_busy_cases hb l n d <;> rw [h]
    · exact .inl rfl
    · exact .inl rfl
    · exact writeCtrl_hostSlots s d
    · exact .inl rfl

/-- A host step while a command is pending uses up one host step of its latency, or resets the block (log entry 6). -/
theorem hostStep_hostSlots {s t : State} (hb : s.status.busy = true) (hhost : s.host ≠ [])
    (h : s.hostStep = .next t) : t.hostSlots = s.hostSlots - 1 ∨ t.status.busy = false := by
  have txn (rest : List HostOp) (x : Txn) := transact_busy_hostSlots (s := s.advanceHost rest) hb x
  unfold State.hostStep at h
  split at h
  · next hnil => exact absurd hnil hhost
  · obtain rfl := Host.Outcome.next.inj h
    exact txn _ _
  · obtain rfl := Host.Outcome.next.inj h
    exact txn _ _
  · obtain rfl := Host.Outcome.next.inj h
    exact .inr rfl
  · cases h

/-- Settles O55: a step after which BUSY is still 1 is one of the host, with a host step left. -/
theorem pendingCommandsUseUpHostSteps : Obligations.PendingCommandsUseUpHostSteps := by
  intro s t hb h hbt
  have hrunning : t.status.busy ≠ false := by rw [hbt]; decide
  by_cases hturn : s.hostSlots = 0 ∨ s.host = []
  · rw [step_eq_engineStep hb hturn] at h
    exact absurd (engineStep_inversion h).busy hrunning
  · obtain ⟨hslots, hhost⟩ := not_or.1 hturn
    rw [step_eq_hostStep (.inr ⟨hslots, hhost⟩)] at h
    have hused : t.hostSlots = s.hostSlots - 1 := (hostStep_hostSlots hb hhost h).resolve_right hrunning
    omega

end Sys2Proof.Machine

/-! ### Reads while a command is pending -/

namespace Sys2Proof.Machine

/-- CTRL as a register word (R24). -/
theorem ctrlWord_eq (b : Bool) : ctrlWord b = if b then 1 else 0 := by cases b <;> rfl

/-- Of STATUS while BUSY = 1, the bits outside the free ones, with DONE and ERR clear (R26). -/
theorem status_word_busy_exact {st : Status} (hb : st.busy = true) (hd : st.done = false) (he : st.err = false) :
    st.word &&& ~~~busyStatusMask = if st.overrun then 9 else 1 := by
  obtain ⟨busy, done, err, overrun, treeValid, codesValid⟩ := st
  obtain rfl : busy = true := hb
  obtain rfl : done = false := hd
  obtain rfl : err = false := he
  revert overrun treeValid codesValid
  decide

/-- Free bits on a mask do not show outside it. -/
theorem masked_or_free_and (w m x : Word) : ((w &&& ~~~m) ||| (x &&& m)) &&& ~~~m = w &&& ~~~m := by
  ext k
  simp only [BitVec.getElem_and, BitVec.getElem_or, BitVec.getElem_not]
  cases m[k] <;> simp

/-- A read of STATUS while BUSY = 1 (R252, U7). -/
theorem readReg_status_busy {s : State} (hb : s.status.busy = true) :
    s.readReg .status = (s.status.word &&& ~~~busyStatusMask) ||| s.anyRead busyStatusMask := if_pos hb

/-- A read of OUT_BUF while BUSY = 1 (R252). -/
theorem load_outBuf_busy {s : State} (hb : s.status.busy = true) (i n : Nat) :
    s.load (.outBuf i) n = s.anyRead (sizeMask n) := if_pos hb

/-- A read of a NODE word while BUSY = 1 (R252). -/
theorem load_node_busy {s : State} (hb : s.status.busy = true) (i : Fin 511) (w : Fin 4) (n : Nat) :
    s.load (.node i w) n = s.anyRead (nodeMask w) := by
  simp [State.load, hb]

/-- A read of a CODE word while BUSY = 1 (R252). -/
theorem load_code_busy {s : State} (hb : s.status.busy = true) (x : Fin 256) (w : Fin 16) (n : Nat) :
    s.load (.code x w) n = s.anyRead (codeMask w) := by
  simp [State.load, hb]

/-- A read that the block answers draws once (log entry 2). -/
theorem transact_read_draws {s : State} {addr n : Nat} (h : (s.transact (.read addr n)).resp ≠ none) :
    (s.transact (.read addr n)).draws = s.draws + 1 := by
  simp only [State.transact] at h ⊢
  split at h
  · exact absurd rfl h
  · split <;> rfl

/-- Settles O45: each read is that of its register, window or buffer, free or exact as BUSY = 1 makes it. -/
theorem readsWhileBusy : Obligations.ReadsWhileBusy := by
  intro s hs hb rd free
  have reg {a : Nat} {v : Word} (ha : a < 0x24) (h4 : a % 4 = 0) (h : s.readReg (CtrlReg.at a) = v) :
      rd a 4 = some (.readOk v) := by
    show (s.transact _).resp = _
    rw [transact_read_reg s a ha h4, h]
  have loc {a n : Nat} {l : Loc} {v : Word} (ha : a < 2 ^ 26) (hl : decodeAccess s.cfg a n = .ok l)
      (h : s.load l n = v) : rd a n = some (.readOk v) := by
    show (s.transact _).resp = _
    rw [transact_read ha hl, h]
  obtain ⟨⟨-, hin⟩, ⟨-, hout⟩, -⟩ := hs.params
  refine ⟨reg (by omega) rfl (ctrlWord_eq _), reg (by omega) rfl rfl, reg (by omega) rfl rfl, error_word_toNat _,
    reg (by omega) rfl rfl, ⟨_, reg (by omega) rfl (readReg_status_busy hb), ?_⟩, fun i hi => ?_, fun i h4 hi => ?_,
    reg (by omega) rfl (if_pos hb), reg (by omega) rfl (if_pos hb), fun x => ?_, fun i w => ?_, fun x w => ?_,
    fun i hi => ?_, fun i h4 hi => ?_, fun addr n => transact_read_draws⟩
  · exact (masked_or_free_and _ busyStatusMask _).trans
      (status_word_busy_exact hb (hs.protocol.notDone hb) (hs.protocol.notErr hb))
  · exact transact_read_inBuf_resp hin (.inl rfl) hi
  · exact ⟨_, transact_read_inBuf_resp hin (.inr ⟨rfl, h4⟩) hi, wordOf_leWord _ _⟩
  · exact loc (by omega) (decodeAccess_freq _ x) (if_pos hb)
  · exact loc (by omega) (decodeAccess_node _ i w) (load_node_busy hb i w 4)
  · exact loc (by omega) (decodeAccess_code _ x w) (load_code_busy hb x w 4)
  · exact loc (by omega) (decodeAccess_outBuf _ i 1 (.inl rfl) hi hout) (load_outBuf_busy hb i 1)
  · exact loc (by omega) (decodeAccess_outBuf _ i 4 (.inr ⟨rfl, h4⟩) hi hout) (load_outBuf_busy hb i 4)

end Sys2Proof.Machine

/-! ### The completion of every command -/

namespace Sys2Proof.Machine

/-- Every command has a next state, from every state (R253). -/
theorem exec_total (i : Instr) (s : State) : ∃ t, exec i s = .next t := by
  cases i <;> exact ⟨_, rfl⟩

/-- Settles O31: what a command writes and how it ends both leave its inputs alone, and the end reports. -/
theorem everyCommandCompletes : Obligations.EveryCommandCompletes := by
  intro i s
  obtain ⟨t, ht⟩ := exec_total i s
  obtain ⟨u, hu, hend⟩ := exec_inversion ht
  obtain ⟨⟨e, hdone⟩, -⟩ := hend.spec
  have herror : t.error = ⟨e, s.pending.extractLsb' 0 8⟩ := hu.sameInputs.pending ▸ hdone.error
  have hcode : t.error.code = e := congrArg ErrorReg.code herror
  refine ⟨t, ht, ?_, hu.sameInputs.trans hend.sameInputs⟩
  rw [hcode]
  exact ⟨herror, hdone.busy, hdone.done, hdone.err, hdone.overrun.trans hu.kept_flags.1⟩

end Sys2Proof.Machine

/-! ### What success and failure do to the output and the tables -/

namespace Sys2Proof.Machine

/-- A command that raises sets ERR (R253). -/
theorem raise_err (s : State) (i : Instr) (e : ErrorCode) : (s.raise i e).status.err = true := by
  obtain ⟨hdone, -⟩ := raise_spec s i e
  rw [hdone.err, bne_iff_ne]
  exact e.num_ne_zero

/-! The commands that are no output commands. -/

/-- How command i ends where it writes tables and no output: with an error, or without one once x is written (R254,
R255). -/
def TableEnd {α : Type} (i : Instr) (s : State) (write : α → State) (t : State) : Prop :=
  (∃ e, t = s.raise i e) ∨ ∃ x, t = (write x).succeed

section
variable {α : Type} {i : Instr} {s t : State} {write : α → State}

/-- A command that writes no output keeps it, and keeps the tables where it fails (R255). -/
theorem TableEnd.kept (h : TableEnd i s write t) (hi : isOutput i = false)
    (hwrite : ∀ x, SameOutput s (write x).succeed) :
    SameOutput s t ∧ (t.status.err = true → SameTables s t) := by
  obtain ⟨e, rfl⟩ | ⟨x, rfl⟩ := h
  · have hfails := raise_failsPlain s i e hi
    exact ⟨hfails.output, fun _ => hfails.tables⟩
  · exact ⟨hwrite x, fun herr => absurd herr Bool.noConfusion⟩

/-- Without an error the tables have been written. -/
theorem TableEnd.written (h : TableEnd i s write t) (herr : t.status.err = false) : ∃ x, t = (write x).succeed := by
  refine h.resolve_left ?_
  rintro ⟨e, rfl⟩
  rw [raise_err] at herr
  cases herr

end

/-- COUNT raises, or loads FREQ (R130). -/
theorem exec_count_end {s t : State} (h : exec .count s = .next t) : TableEnd .count s s.putFreq t := by
  obtain hle | hlt := le_or_gt s.inLen.toNat s.cfg.inCap
  · obtain rfl := Host.Outcome.next.inj ((exec_count_of_le hle).symm.trans h)
    exact .inr ⟨_, rfl⟩
  · obtain rfl := Host.Outcome.next.inj ((exec_count_of_lt hlt).symm.trans h)
    exact .inl ⟨_, rfl⟩

/-- PARSE_TABLE raises, or loads FREQ (R222). -/
theorem exec_parseTable_end {s t : State} (h : exec .parseTable s = .next t) :
    TableEnd .parseTable s s.putFreq t := by
  obtain hle | hlt := le_or_gt s.inLen.toNat s.cfg.inCap
  · obtain rfl := Host.Outcome.next.inj ((exec_parseTable_of_le hle).symm.trans h)
    cases parseTable s.input with
    | none => exact .inl ⟨_, rfl⟩
    | some F => exact .inr ⟨F, rfl⟩
  · obtain rfl := Host.Outcome.next.inj ((exec_parseTable_of_lt hlt).symm.trans h)
    exact .inl ⟨_, rfl⟩

/-- BUILD_TREE raises, or writes a tree (R147). -/
theorem exec_buildTree_end {s t : State} (h : exec .buildTree s = .next t) : TableEnd .buildTree s s.putTree t := by
  cases hN : buildTree s.freq with
  | none =>
    obtain rfl := Host.Outcome.next.inj ((exec_buildTree_of_none hN).symm.trans h)
    exact .inl ⟨_, rfl⟩
  | some N =>
    obtain rfl := Host.Outcome.next.inj ((exec_buildTree_of_some hN).symm.trans h)
    exact .inr ⟨N, rfl⟩

/-- GEN_CODES raises, or writes a code table (R167). -/
theorem exec_genCodes_end {s t : State} (h : exec .genCodes s = .next t) : TableEnd .genCodes s s.putCodes t := by
  cases ht : s.status.treeValid with
  | false =>
    obtain rfl := Host.Outcome.next.inj ((exec_genCodes_of_no_tree ht).symm.trans h)
    exact .inl ⟨_, rfl⟩
  | true =>
    obtain rfl := Host.Outcome.next.inj ((exec_genCodes_of_tree ht).symm.trans h)
    exact .inr ⟨_, rfl⟩

/-- COUNT and PARSE_TABLE load FREQ, and keep the rest (R42, R254, R255). -/
theorem TableEnd.loads {i : Instr} {s t : State} (h : TableEnd i s s.putFreq t) (hi : isOutput i = false) :
    SameOutput s t ∧ (t.status.err = true → SameTables s t) ∧
    (t.status.err = false → SameTree s t ∧ t.status.treeValid = false ∧ t.status.codesValid = false) := by
  obtain ⟨houtput, htables⟩ := h.kept hi fun F => by
    obtain ⟨-, -, -, -, houtput, -⟩ := putFreq_succeed_spec s F
    exact houtput
  refine ⟨houtput, htables, fun herr => ?_⟩
  obtain ⟨F, rfl⟩ := h.written herr
  obtain ⟨htree, hcodes, -, -, -, hsame⟩ := putFreq_succeed_spec s F
  exact ⟨hsame, htree, hcodes⟩

/-- BUILD_TREE writes the tree, and keeps the rest (R147, R254, R255). -/
theorem TableEnd.buildsTree {i : Instr} {s t : State} (h : TableEnd i s s.putTree t) (hi : isOutput i = false) :
    SameOutput s t ∧ (t.status.err = true → SameTables s t) ∧
    (t.status.err = false →
      t.freq = s.freq ∧ t.code = s.code ∧ t.status.treeValid = true ∧ t.status.codesValid = false) := by
  obtain ⟨houtput, htables⟩ := h.kept hi fun N => by
    obtain ⟨-, -, -, -, -, -, houtput⟩ := putTree_succeed_spec s N
    exact houtput
  refine ⟨houtput, htables, fun herr => ?_⟩
  obtain ⟨N, rfl⟩ := h.written herr
  obtain ⟨htree, hcodes, hfreq, hcode, -⟩ := putTree_succeed_spec s N
  exact ⟨hfreq, hcode, htree, hcodes⟩

/-- GEN_CODES writes the codes, and keeps the rest (R167, R254, R255). -/
theorem TableEnd.buildsCodes {i : Instr} {s t : State} (h : TableEnd i s s.putCodes t) (hi : isOutput i = false) :
    SameOutput s t ∧ (t.status.err = true → SameTables s t) ∧
    (t.status.err = false →
      t.freq = s.freq ∧ t.node = s.node ∧ t.nodeCount = s.nodeCount ∧ t.status.treeValid = s.status.treeValid ∧
      t.status.codesValid = true) := by
  obtain ⟨houtput, htables⟩ := h.kept hi fun T => by
    obtain ⟨-, -, -, houtput⟩ := putCodes_succeed_spec s T
    exact houtput
  refine ⟨houtput, htables, fun herr => ?_⟩
  obtain ⟨T, rfl⟩ := h.written herr
  obtain ⟨hsame, -⟩ := putCodes_succeed_spec s T
  exact ⟨hsame.freq, hsame.node, hsame.nodeCount, hsame.treeValid, hsame.codesValid⟩

/-! The output commands. -/

/-- How output command i ends once the tables are as in u: with an error, or with a result that fits OUT_BUF (R254,
R255). -/
def OutputEnd (i : Instr) (u t : State) : Prop :=
  (∃ e, t = u.raise i e) ∨ ∃ R : List Byte, R.length ≤ u.cfg.outCap ∧ t = (u.putOutput R).succeed

theorem OutputEnd.failed (i : Instr) (u : State) (e : ErrorCode) : OutputEnd i u (u.raise i e) := .inl ⟨e, rfl⟩

theorem OutputEnd.delivered (i : Instr) {u : State} {R : List Byte} (h : R.length ≤ u.cfg.outCap) :
    OutputEnd i u (u.putOutput R).succeed := .inr ⟨R, h, rfl⟩

theorem OutputEnd.finishOutput (i : Instr) (u : State) (R : List Byte) : OutputEnd i u (u.finishOutput i R) := by
  unfold State.finishOutput
  split
  · exact .failed ..
  · exact .delivered i (by omega)

/-- The checks before the code table is read are errors too. -/
theorem OutputEnd.withCodes {i : Instr} {s t : State} (h : OutputEnd i s t) : OutputEnd i s (s.withCodes i t) := by
  unfold State.withCodes
  split
  · exact .failed ..
  · split
    · exact h
    · exact .failed ..

section
variable {i : Instr} {u t : State}

/-- The end of an output command keeps the tables. -/
theorem OutputEnd.sameTables (h : OutputEnd i u t) : SameTables u t := by
  have hend : CommandEnd i u t := h.imp_right .inr
  obtain ⟨-, -, htables⟩ := hend.spec
  exact htables

/-- With an error the output is lost (R255). -/
theorem OutputEnd.failsOutput (h : OutputEnd i u t) (hi : isOutput i = true) (herr : t.status.err = true) :
    ∃ e, FailsOutput u t e := by
  obtain ⟨e, rfl⟩ | ⟨R, -, rfl⟩ := h
  · exact ⟨_, raise_failsOutput u i e hi⟩
  · cases herr

/-- Without an error a result that fits OUT_BUF has been delivered (R254). -/
theorem OutputEnd.delivers (h : OutputEnd i u t) (hu : u.Inv) (herr : t.status.err = false) :
    ∃ R, R.length ≤ u.cfg.outCap ∧ Delivers u t R := by
  obtain ⟨e, rfl⟩ | ⟨R, hfits, rfl⟩ := h
  · rw [raise_err] at herr
    cases herr
  · exact ⟨R, hfits, hu.putOutput_delivers hfits⟩

end

/-- An output of R with R no longer than cap, said of the output itself. -/
theorem OutputIs.fits {s t : State} {R : List Byte} (h : OutputIs s t R) {cap : Nat} (hfits : R.length ≤ cap) :
    t.outLen.toNat ≤ cap ∧ OutputIs s t t.output :=
  ⟨h.outLen.trans_le hfits, h.result.symm ▸ h⟩

/-- An output command delivers a result or loses the output (R254, R255). -/
theorem OutputEnd.deliversOrLoses {i : Instr} {s t : State} (h : OutputEnd i s t) (hi : isOutput i = true) :
    (t.status.err = true → OutputLost s t) ∧
    (s.Inv → t.status.err = false → t.outLen.toNat ≤ s.cfg.outCap ∧ OutputIs s t t.output) := by
  refine ⟨fun herr => ?_, fun hs herr => ?_⟩
  · obtain ⟨e, hfails⟩ := h.failsOutput hi herr
    exact hfails.output
  · obtain ⟨R, hfits, hR⟩ := h.delivers hs herr
    exact hR.output.fits hfits

/-- PACK raises, or delivers a payload (R183). -/
theorem exec_pack_end {s t : State} (h : exec .pack s = .next t) : OutputEnd .pack s t := by
  cases hP : packBits s.input s.code with
  | error e =>
    obtain rfl := Host.Outcome.next.inj ((exec_pack_of_error hP).symm.trans h)
    exact (OutputEnd.failed ..).withCodes
  | ok R =>
    obtain rfl := Host.Outcome.next.inj ((exec_pack_of_ok hP).symm.trans h)
    exact (OutputEnd.finishOutput ..).withCodes

/-- UNPACK raises, or delivers what it decodes (R194). -/
theorem exec_unpack_end {s t : State} (h : exec .unpack s = .next t) : OutputEnd .unpack s t := by
  cases hU : unpack s.input s.code s.freq.total s.cfg.outCap with
  | error e =>
    obtain rfl := Host.Outcome.next.inj ((exec_unpack_of_error hU).symm.trans h)
    exact (OutputEnd.failed ..).withCodes
  | ok R =>
    obtain rfl := Host.Outcome.next.inj ((exec_unpack_of_ok hU).symm.trans h)
    exact (OutputEnd.delivered _ (unpack_ok_length hU)).withCodes

/-- SER_TABLE raises, or delivers the text (R211). -/
theorem exec_serTable_end {s t : State} (h : exec .serTable s = .next t) : OutputEnd .serTable s t := by
  obtain rfl := Host.Outcome.next.inj h
  exact .finishOutput ..

/-- How ENCODE and DECODE end: with an error before they have a table, or with the tables of some F (R230, R240). -/
def ContainerEnd (i : Instr) (s t : State) : Prop :=
  (∃ e, t = s.raise i e) ∨ ∃ F, OutputEnd i (s.withTable F) t

/-- ENCODE raises before it counts, or has the tables of its input (R230). -/
theorem exec_encode_end {s t : State} (h : exec .encode s = .next t) : ContainerEnd .encode s t := by
  obtain hle | hlt := le_or_gt s.inLen.toNat s.cfg.inCap
  · obtain rfl := Host.Outcome.next.inj ((exec_encode_of_le hle).symm.trans h)
    exact .inr ⟨_, .finishOutput ..⟩
  · obtain rfl := Host.Outcome.next.inj ((exec_encode_of_lt hlt).symm.trans h)
    exact .inl ⟨_, rfl⟩

/-- DECODE raises before it has a table, or has the tables of the container (R240). -/
theorem exec_decode_end {s t : State} (h : exec .decode s = .next t) : ContainerEnd .decode s t := by
  obtain hle | hlt := le_or_gt s.inLen.toNat s.cfg.inCap
  · cases hC : splitContainer s.input with
    | none =>
      obtain rfl := Host.Outcome.next.inj ((exec_decode_of_malformed hle hC).symm.trans h)
      exact .inl ⟨_, rfl⟩
    | some FP =>
      obtain ⟨F, P⟩ := FP
      refine .inr ⟨F, ?_⟩
      cases hU : unpack P F.codeTable F.total s.cfg.outCap with
      | error e =>
        obtain rfl := Host.Outcome.next.inj ((exec_decode_of_error hle hC hU).symm.trans h)
        exact .failed ..
      | ok R =>
        obtain rfl := Host.Outcome.next.inj ((exec_decode_of_ok hle hC hU).symm.trans h)
        refine .delivered _ ?_
        rw [(withTable_inputs s F).cfg]
        exact unpack_ok_length hU
  · obtain rfl := Host.Outcome.next.inj ((exec_decode_of_lt hlt).symm.trans h)
    exact .inl ⟨_, rfl⟩

/-- ENCODE and DECODE keep the tables or rebuild them, and deliver a result or lose the output (R254, R255). -/
theorem ContainerEnd.rebuildsOrKeeps {i : Instr} {s t : State} (h : ContainerEnd i s t) (hi : isOutput i = true) :
    (t.status.err = true → OutputLost s t) ∧
    (s.Inv → t.status.err = false → t.outLen.toNat ≤ s.cfg.outCap ∧ OutputIs s t t.output) ∧
    (SameTables s t ∨ Rebuilt s t t.freq) ∧ (t.status.err = false → Rebuilt s t t.freq) := by
  obtain ⟨e, rfl⟩ | ⟨F, hend⟩ := h
  · have hend := OutputEnd.failed i s e
    obtain ⟨hlost, hdelivers⟩ := hend.deliversOrLoses hi
    exact ⟨hlost, hdelivers, .inl hend.sameTables, fun herr => absurd herr (by simp [raise_err])⟩
  · have hF : Rebuilt s t F := (rebuild_spec s F).1.congr hend.sameTables
    have hrebuilt : Rebuilt s t t.freq := hF.freq.symm ▸ hF
    refine ⟨fun herr => ?_, fun hs herr => ?_, .inr hrebuilt, fun _ => hrebuilt⟩
    · obtain ⟨e, hfails⟩ := hend.failsOutput hi herr
      exact hfails.endsWithTable.2
    · obtain ⟨R, hfits, hR⟩ := hend.delivers (hs.withTable F) herr
      rw [(withTable_inputs s F).cfg] at hfits
      exact hR.endsWithTable.2.fits hfits

/-- Settles O33: command by command, of which each has one of three ends: it writes tables, an output, or both. -/
theorem outputsAreKeptOrLost : Obligations.OutputsAreKeptOrLost := by
  intro s t i h
  cases i with
  | count => simpa using (exec_count_end h).loads rfl
  | parseTable => simpa using (exec_parseTable_end h).loads rfl
  | buildTree => simpa using (exec_buildTree_end h).buildsTree rfl
  | genCodes => simpa using (exec_genCodes_end h).buildsCodes rfl
  | pack => simpa [(exec_pack_end h).sameTables] using (exec_pack_end h).deliversOrLoses rfl
  | unpack => simpa [(exec_unpack_end h).sameTables] using (exec_unpack_end h).deliversOrLoses rfl
  | serTable => simpa [(exec_serTable_end h).sameTables] using (exec_serTable_end h).deliversOrLoses rfl
  | encode => simpa using (exec_encode_end h).rebuildsOrKeeps rfl
  | decode => simpa using (exec_decode_end h).rebuildsOrKeeps rfl

end Sys2Proof.Machine

/-! ### The errors a command reports -/

namespace Sys2Proof.Machine

/-! One equation per command: the checks that it makes first, and how it then ends. -/

/-- The end of command i where it is u once IN_LEN ≤ IN_CAP, which the commands that read IN_BUF check (R94, R276). -/
def State.withLength (s : State) (i : Instr) (u : State) : State :=
  if s.lengthBad then s.raise i .lengthRange else u

theorem withLength_of_lt {s : State} (h : s.cfg.inCap < s.inLen.toNat) (i : Instr) (u : State) :
    s.withLength i u = s.raise i .lengthRange := if_pos (s.lengthBad_iff.2 h)

theorem withLength_of_le {s : State} (h : s.inLen.toNat ≤ s.cfg.inCap) (i : Instr) (u : State) :
    s.withLength i u = u := if_neg (State.not_lengthBad h)

/-- The end of output command i with the answer r of its computation: its error, or its result (R254, R255). -/
def State.answer (s : State) (i : Instr) : Except ErrorCode (List Byte) → State
  | .error e => s.raise i e
  | .ok R => s.finishOutput i R

theorem answer_ok_of_lt {s : State} {R : List Byte} (h : s.cfg.outCap < R.length) (i : Instr) :
    s.answer i (.ok R) = s.raise i .outputOverflow := if_pos h

theorem answer_ok_of_fits {s : State} {R : List Byte} (h : R.length ≤ s.cfg.outCap) (i : Instr) :
    s.answer i (.ok R) = (s.putOutput R).succeed := if_neg (Nat.not_lt.2 h)

section
variable (s : State)

theorem exec_count_eq :
    exec .count s = .next (s.withLength .count (s.putFreq (countSymbols s.input)).succeed) := rfl

theorem exec_parseTable_eq : exec .parseTable s = .next (s.withLength .parseTable
    ((parseTable s.input).elim (s.raise .parseTable .malformedContainer) fun F => (s.putFreq F).succeed)) := by
  obtain hle | hlt := le_or_gt s.inLen.toNat s.cfg.inCap
  · rw [withLength_of_le hle, exec_parseTable_of_le hle]
  · rw [withLength_of_lt hlt, exec_parseTable_of_lt hlt]

theorem exec_pack_eq :
    exec .pack s = .next (s.withCodes .pack (s.answer .pack (packBits s.input s.code))) := by
  cases h : packBits s.input s.code with
  | error e => exact exec_pack_of_error h
  | ok R => exact exec_pack_of_ok h

theorem exec_unpack_eq : exec .unpack s =
    .next (s.withCodes .unpack (s.answer .unpack (unpack s.input s.code s.freq.total s.cfg.outCap))) := by
  cases h : unpack s.input s.code s.freq.total s.cfg.outCap with
  | error e => exact exec_unpack_of_error h
  | ok R => rw [answer_ok_of_fits (unpack_ok_length h), exec_unpack_of_ok h]

theorem exec_serTable_eq : exec .serTable s = .next (s.answer .serTable (.ok (serTable s.freq))) := rfl

theorem exec_encode_eq : exec .encode s = .next (s.withLength .encode
    ((s.withTable (countSymbols s.input)).answer .encode (.ok (encodeContainer s.input)))) := by
  obtain hle | hlt := le_or_gt s.inLen.toNat s.cfg.inCap
  · rw [withLength_of_le hle, exec_encode_of_le hle]
    rfl
  · rw [withLength_of_lt hlt, exec_encode_of_lt hlt]

/-- The end of DECODE with what step 1 makes of the input: the table and the payload of a container, or none (R240,
R241). -/
def State.decodeAnswer (s : State) : Option (Freq × List Byte) → State
  | none => s.raise .decode .malformedContainer
  | some (F, P) => (s.withTable F).answer .decode (unpack P F.codeTable F.total s.cfg.outCap)

theorem decodeAnswer_some (F : Freq) (P : List Byte) : s.decodeAnswer (some (F, P)) =
    (s.withTable F).answer .decode (unpack P F.codeTable F.total s.cfg.outCap) := rfl

theorem exec_decode_eq :
    exec .decode s = .next (s.withLength .decode (s.decodeAnswer (splitContainer s.input))) := by
  obtain hle | hlt := le_or_gt s.inLen.toNat s.cfg.inCap
  · rw [withLength_of_le hle]
    cases hC : splitContainer s.input with
    | none => exact exec_decode_of_malformed hle hC
    | some FP =>
      obtain ⟨F, P⟩ := FP
      rw [decodeAnswer_some]
      cases hU : unpack P F.codeTable F.total s.cfg.outCap with
      | error e => exact exec_decode_of_error hle hC hU
      | ok R =>
        rw [answer_ok_of_fits ((withTable_inputs s F).cfg ▸ unpack_ok_length hU), exec_decode_of_ok hle hC hU]
  · rw [withLength_of_lt hlt, exec_decode_of_lt hlt]

end

/-! The code that each end reports, in a list L of codes. -/

theorem raise_code (s : State) (i : Instr) (e : ErrorCode) : (s.raise i e).error.code = e.num := by
  obtain ⟨hdone, -⟩ := raise_spec s i e
  rw [hdone.error]

section
variable {s u : State} {i : Instr} {L : List (BitVec 4)}

theorem raise_reports {e : ErrorCode} (h : e.num ∈ L) : (s.raise i e).error.code ∈ L := by
  rwa [raise_code]

theorem succeed_reports (h : 0x0 ∈ L) : s.succeed.error.code ∈ L := h

/-- The check of the length adds LENGTH_RANGE (R276). -/
theorem withLength_reports (h6 : 0x6 ∈ L) (hu : u.error.code ∈ L) : (s.withLength i u).error.code ∈ L := by
  obtain hle | hlt := le_or_gt s.inLen.toNat s.cfg.inCap
  · rwa [withLength_of_le hle]
  · rw [withLength_of_lt hlt]
    exact raise_reports h6

/-- The checks of PACK and UNPACK add LENGTH_RANGE and SEQUENCE_ERROR (R276, R278). -/
theorem withCodes_reports (h6 : 0x6 ∈ L) (h8 : 0x8 ∈ L) (hu : u.error.code ∈ L) :
    (s.withCodes i u).error.code ∈ L := by
  obtain hle | hlt := le_or_gt s.inLen.toNat s.cfg.inCap
  · rw [withCodes_of_le hle]
    split
    · exact hu
    · exact raise_reports h8
  · rw [withCodes_of_lt hlt]
    exact raise_reports h6

/-- A result is delivered or does not fit OUT_BUF, an error is reported as it is (R254, R255, R275). -/
theorem answer_reports {r : Except ErrorCode (List Byte)} (h0 : 0x0 ∈ L) (h5 : 0x5 ∈ L)
    (hr : ∀ e, r = .error e → e.num ∈ L) : (s.answer i r).error.code ∈ L := by
  cases r with
  | error e => exact raise_reports (hr e rfl)
  | ok R =>
    obtain hfits | hlong := le_or_gt R.length s.cfg.outCap
    · rw [answer_ok_of_fits hfits]
      exact succeed_reports h0
    · rw [answer_ok_of_lt hlong]
      exact raise_reports h5

end

/-- Settles O32: the checks of a command and the answer of its computation report the errors listed for it, where
PackBits and Unpack have their own errors and the packing in ENCODE has none. -/
theorem errorCodesAreReportedAsListed : Obligations.ErrorCodesAreReportedAsListed := by
  intro s t i _ h
  cases i with
  | count =>
    obtain rfl := Host.Outcome.next.inj ((exec_count_eq s).symm.trans h)
    exact withLength_reports (by decide) (succeed_reports (by decide))
  | parseTable =>
    obtain rfl := Host.Outcome.next.inj ((exec_parseTable_eq s).symm.trans h)
    refine withLength_reports (by decide) ?_
    cases parseTable s.input with
    | none => exact raise_reports (by decide)
    | some F => exact succeed_reports (by decide)
  | buildTree =>
    cases hN : buildTree s.freq with
    | none =>
      obtain rfl := Host.Outcome.next.inj ((exec_buildTree_of_none hN).symm.trans h)
      exact raise_reports (by decide)
    | some N =>
      obtain rfl := Host.Outcome.next.inj ((exec_buildTree_of_some hN).symm.trans h)
      exact succeed_reports (by decide)
  | genCodes =>
    cases ht : s.status.treeValid with
    | false =>
      obtain rfl := Host.Outcome.next.inj ((exec_genCodes_of_no_tree ht).symm.trans h)
      exact raise_reports (by decide)
    | true =>
      obtain rfl := Host.Outcome.next.inj ((exec_genCodes_of_tree ht).symm.trans h)
      exact succeed_reports (by decide)
  | pack =>
    obtain rfl := Host.Outcome.next.inj ((exec_pack_eq s).symm.trans h)
    refine withCodes_reports (by decide) (by decide) (answer_reports (by decide) (by decide) fun e he => ?_)
    obtain rfl := packBits_error_kind he
    decide
  | unpack =>
    obtain rfl := Host.Outcome.next.inj ((exec_unpack_eq s).symm.trans h)
    refine withCodes_reports (by decide) (by decide) (answer_reports (by decide) (by decide) fun e he => ?_)
    obtain rfl | rfl | rfl := unpack_error_kind he <;> decide
  | serTable =>
    obtain rfl := Host.Outcome.next.inj ((exec_serTable_eq s).symm.trans h)
    exact answer_reports (by decide) (by decide) nofun
  | encode =>
    obtain rfl := Host.Outcome.next.inj ((exec_encode_eq s).symm.trans h)
    exact withLength_reports (by decide) (answer_reports (by decide) (by decide) nofun)
  | decode =>
    obtain rfl := Host.Outcome.next.inj ((exec_decode_eq s).symm.trans h)
    refine withLength_reports (by decide) ?_
    cases splitContainer s.input with
    | none => exact raise_reports (by decide)
    | some FP =>
      rw [decodeAnswer_some]
      refine answer_reports (by decide) (by decide) fun e he => ?_
      obtain rfl | rfl | rfl := unpack_error_kind he <;> decide

end Sys2Proof.Machine

/-! ### What a result depends on -/

namespace Sys2Proof.Machine

/-- While TREE_VALID = 1, FREQ determines NODE_COUNT and the entries of the tree (R41). -/
theorem State.Inv.tree_eq {s u : State} (hs : s.Inv) (hu : u.Inv) (hfreq : u.freq = s.freq)
    (hst : s.status.treeValid = true) (hut : u.status.treeValid = true) : u.nodeCount = s.nodeCount ∧
      ∀ k : Fin 511, k.val < s.nodeCount.toNat → u.node.get k = s.node.get k := by
  obtain ⟨N, hN, ⟨hcount, hnode⟩, -⟩ := hs.validity.tree hst
  obtain ⟨M, hM, ⟨hcount', hnode'⟩, -⟩ := hu.validity.tree hut
  obtain rfl : N = M := Option.some.inj (hN.symm.trans (hfreq ▸ hM))
  refine ⟨BitVec.eq_of_toNat_eq (hcount'.trans hcount.symm), fun k hk => ?_⟩
  have hentry := List.getElem?_eq_getElem (hcount ▸ hk)
  rw [hnode k _ hentry, hnode' k _ hentry]

/-- While CODES_VALID = 1, FREQ determines CODE (R41, R165). -/
theorem State.Inv.code_eq {s u : State} (hs : s.Inv) (hu : u.Inv) (hfreq : u.freq = s.freq)
    (hsc : s.status.codesValid = true) (huc : u.status.codesValid = true) : u.code = s.code := by
  obtain ⟨N, hN, hnode, hcode⟩ := hs.codes_of_valid hsc
  obtain ⟨M, hM, hnode', hcode'⟩ := hu.codes_of_valid huc
  exact CodesOf.unique ⟨M, _, hfreq ▸ hM, hnode', hcode'⟩ ⟨N, _, hN, hnode, hcode⟩

/-- Every command keeps the invariant. -/
theorem State.Inv.exec {s t : State} (hs : s.Inv) {i : Instr} (h : Machine.exec i s = .next t) : t.Inv := by
  obtain ⟨u, hu, hend⟩ := exec_inversion h
  exact hend.inv (hu.inv hs)

/-- The states s and u agree on the operands of a command (R93). -/
def SameOperands (s u : State) : Prop :=
  u.cfg.inCap = s.cfg.inCap ∧ u.cfg.outCap = s.cfg.outCap ∧ u.inLen = s.inLen ∧ u.input = s.input ∧
    u.freq = s.freq ∧ u.status.treeValid = s.status.treeValid ∧ u.status.codesValid = s.status.codesValid ∧
    u.pending = s.pending

/-- The states t and v after command i agree on what it reports and delivers, but for OVERRUN. -/
def SameResult (i : Instr) (t v : State) : Prop :=
  v.error = t.error ∧ v.status = { t.status with overrun := v.status.overrun } ∧ v.freq = t.freq ∧
    (isOutput i = true → v.output = t.output)

section
variable {s u : State}

/-! What a command writes to the register files keeps two states in agreement. -/

theorem SameOperands.putFreq (h : SameOperands s u) (F : Freq) : SameOperands (s.putFreq F) (u.putFreq F) := by
  obtain ⟨hinCap, houtCap, hinLen, hinput, -, -, -, hpending⟩ := h
  exact ⟨hinCap, houtCap, hinLen, hinput, rfl, rfl, rfl, hpending⟩

theorem SameOperands.putTree (h : SameOperands s u) (N : List Node) : SameOperands (s.putTree N) (u.putTree N) := by
  obtain ⟨hinCap, houtCap, hinLen, hinput, hfreq, -, -, hpending⟩ := h
  exact ⟨hinCap, houtCap, hinLen, hinput, hfreq, rfl, rfl, hpending⟩

/-- The codes written need not be the same: that they are is the invariant's (R41). -/
theorem SameOperands.putCodes (h : SameOperands s u) (T T' : CodeTable) :
    SameOperands (s.putCodes T) (u.putCodes T') := by
  obtain ⟨hinCap, houtCap, hinLen, hinput, hfreq, htree, -, hpending⟩ := h
  exact ⟨hinCap, houtCap, hinLen, hinput, hfreq, htree, rfl, hpending⟩

theorem SameOperands.withTable (h : SameOperands s u) (F : Freq) : SameOperands (s.withTable F) (u.withTable F) := by
  show SameOperands (s.putFreq F).rebuild (u.putFreq F).rebuild
  cases hN : buildTree F with
  | none =>
    rw [rebuild_none (s := s.putFreq F) hN, rebuild_none (s := u.putFreq F) hN]
    exact h.putFreq F
  | some N =>
    rw [rebuild_some (s := s.putFreq F) hN, rebuild_some (s := u.putFreq F) hN]
    exact ((h.putFreq F).putTree N).putCodes _ _

/-! From states in agreement, the same end of a command gives the same result. -/

/-- Completions with one code and tables kept give one result where they give one output (R253). -/
theorem SameOperands.result (h : SameOperands s u) {i : Instr} {t v : State} {e : BitVec 4} (ht : Completed s t e)
    (hv : Completed u v e) (htables : SameTables s t) (htables' : SameTables u v)
    (hout : isOutput i = true → v.output = t.output) : SameResult i t v := by
  obtain ⟨-, -, -, -, hfreq, htree, hcodes, hpending⟩ := h
  refine ⟨by rw [ht.error, hv.error, hpending], ?_, htables'.freq.trans (hfreq.trans htables.freq.symm), hout⟩
  have hbusy := hv.busy.trans ht.busy.symm
  have hdone := hv.done.trans ht.done.symm
  have herr := hv.err.trans ht.err.symm
  have htree' := htables'.treeValid.trans (htree.trans htables.treeValid.symm)
  have hcodes' := htables'.codesValid.trans (hcodes.trans htables.codesValid.symm)
  dsimp only
  rw [← hbusy, ← hdone, ← herr, ← htree', ← hcodes']

/-- A lost output is empty (R255). -/
theorem OutputLost.output_eq_nil {t : State} (h : OutputLost s t) : t.output = [] := by
  show (List.range t.outLen.toNat).map t.outByte = []
  rw [h.outLen]
  rfl

theorem SameOperands.raise (h : SameOperands s u) (i : Instr) (e : ErrorCode) :
    SameResult i (s.raise i e) (u.raise i e) := by
  obtain ⟨ht, -, htables, -, hlost⟩ := raise_spec s i e
  obtain ⟨hv, -, htables', -, hlost'⟩ := raise_spec u i e
  exact h.result ht hv htables htables' fun hi => (hlost' hi).output_eq_nil.trans (hlost hi).output_eq_nil.symm

theorem SameOperands.succeed (h : SameOperands s u) {i : Instr} (hi : isOutput i = false) :
    SameResult i s.succeed u.succeed := by
  obtain ⟨ht, -, -, htables⟩ := report_spec s 0
  obtain ⟨hv, -, -, htables'⟩ := report_spec u 0
  exact h.result ht hv htables htables' fun hi' => by rw [hi] at hi'; cases hi'

theorem SameOperands.withLength (h : SameOperands s u) {i : Instr} {t v : State} (hend : SameResult i t v) :
    SameResult i (s.withLength i t) (u.withLength i v) := by
  have ⟨hinCap, _, hinLen, _⟩ := h
  obtain hle | hlt := le_or_gt s.inLen.toNat s.cfg.inCap
  · rw [withLength_of_le hle, withLength_of_le (by rwa [hinLen, hinCap])]
    exact hend
  · rw [withLength_of_lt hlt, withLength_of_lt (by rwa [hinLen, hinCap])]
    exact h.raise i _

/-- PACK and UNPACK need agree only while CODES_VALID = 1 (R278). -/
theorem SameOperands.withCodes (h : SameOperands s u) {i : Instr} {t v : State}
    (hend : s.status.codesValid = true → SameResult i t v) : SameResult i (s.withCodes i t) (u.withCodes i v) := by
  refine h.withLength (t := if s.status.codesValid then t else s.raise i .sequenceError)
    (v := if u.status.codesValid then v else u.raise i .sequenceError) ?_
  have ⟨_, _, _, _, _, _, hcodes, _⟩ := h
  rw [hcodes]
  split
  · next hc => exact hend hc
  · exact h.raise i _

theorem SameOperands.answer (h : SameOperands s u) (hs : s.Inv) (hu : u.Inv) (i : Instr)
    (r : Except ErrorCode (List Byte)) : SameResult i (s.answer i r) (u.answer i r) := by
  cases r with
  | error e => exact h.raise i e
  | ok R =>
    have ⟨_, houtCap, _⟩ := h
    obtain hfits | hlong := le_or_gt R.length s.cfg.outCap
    · have ht := hs.finishOutput_delivers i hfits
      have hv := hu.finishOutput_delivers i (houtCap.symm ▸ hfits)
      exact h.result ht.completed hv.completed ht.tables hv.tables fun _ => hv.output.result.trans ht.output.result.symm
    · rw [answer_ok_of_lt hlong, answer_ok_of_lt (houtCap.symm ▸ hlong)]
      exact h.raise i _

/-- From states that agree on the operands, a command has one result. -/
theorem SameOperands.exec (h : SameOperands s u) (hs : s.Inv) (hu : u.Inv) {i : Instr} {t v : State}
    (ht : Machine.exec i s = .next t) (hv : Machine.exec i u = .next v) : SameResult i t v := by
  have ⟨_, houtCap, _, hinput, hfreq, htree, hcodes, _⟩ := h
  cases i with
  | count =>
    obtain rfl := Host.Outcome.next.inj ((exec_count_eq s).symm.trans ht)
    obtain rfl := Host.Outcome.next.inj ((exec_count_eq u).symm.trans hv)
    rw [hinput]
    exact h.withLength ((h.putFreq _).succeed rfl)
  | parseTable =>
    obtain rfl := Host.Outcome.next.inj ((exec_parseTable_eq s).symm.trans ht)
    obtain rfl := Host.Outcome.next.inj ((exec_parseTable_eq u).symm.trans hv)
    rw [hinput]
    refine h.withLength ?_
    cases parseTable s.input with
    | none => exact h.raise _ _
    | some F => exact (h.putFreq F).succeed rfl
  | buildTree =>
    cases hN : buildTree s.freq with
    | none =>
      obtain rfl := Host.Outcome.next.inj ((exec_buildTree_of_none hN).symm.trans ht)
      obtain rfl := Host.Outcome.next.inj ((exec_buildTree_of_none (hfreq ▸ hN)).symm.trans hv)
      exact h.raise _ _
    | some N =>
      obtain rfl := Host.Outcome.next.inj ((exec_buildTree_of_some hN).symm.trans ht)
      obtain rfl := Host.Outcome.next.inj ((exec_buildTree_of_some (hfreq ▸ hN)).symm.trans hv)
      exact (h.putTree N).succeed rfl
  | genCodes =>
    cases hvalid : s.status.treeValid with
    | false =>
      obtain rfl := Host.Outcome.next.inj ((exec_genCodes_of_no_tree hvalid).symm.trans ht)
      obtain rfl := Host.Outcome.next.inj ((exec_genCodes_of_no_tree (htree.trans hvalid)).symm.trans hv)
      exact h.raise _ _
    | true =>
      obtain rfl := Host.Outcome.next.inj ((exec_genCodes_of_tree hvalid).symm.trans ht)
      obtain rfl := Host.Outcome.next.inj ((exec_genCodes_of_tree (htree.trans hvalid)).symm.trans hv)
      exact (h.putCodes _ _).succeed rfl
  | pack =>
    obtain rfl := Host.Outcome.next.inj ((exec_pack_eq s).symm.trans ht)
    obtain rfl := Host.Outcome.next.inj ((exec_pack_eq u).symm.trans hv)
    refine h.withCodes fun hc => ?_
    rw [hinput, hs.code_eq hu hfreq hc (hcodes.trans hc)]
    exact h.answer hs hu _ _
  | unpack =>
    obtain rfl := Host.Outcome.next.inj ((exec_unpack_eq s).symm.trans ht)
    obtain rfl := Host.Outcome.next.inj ((exec_unpack_eq u).symm.trans hv)
    refine h.withCodes fun hc => ?_
    rw [hinput, hfreq, houtCap, hs.code_eq hu hfreq hc (hcodes.trans hc)]
    exact h.answer hs hu _ _
  | serTable =>
    obtain rfl := Host.Outcome.next.inj ((exec_serTable_eq s).symm.trans ht)
    obtain rfl := Host.Outcome.next.inj ((exec_serTable_eq u).symm.trans hv)
    rw [hfreq]
    exact h.answer hs hu _ _
  | encode =>
    obtain rfl := Host.Outcome.next.inj ((exec_encode_eq s).symm.trans ht)
    obtain rfl := Host.Outcome.next.inj ((exec_encode_eq u).symm.trans hv)
    rw [hinput]
    exact h.withLength ((h.withTable _).answer (hs.withTable _) (hu.withTable _) _ _)
  | decode =>
    obtain rfl := Host.Outcome.next.inj ((exec_decode_eq s).symm.trans ht)
    obtain rfl := Host.Outcome.next.inj ((exec_decode_eq u).symm.trans hv)
    rw [hinput]
    refine h.withLength ?_
    cases splitContainer s.input with
    | none => exact h.raise _ _
    | some FP =>
      rw [decodeAnswer_some, decodeAnswer_some, houtCap]
      exact (h.withTable _).answer (hs.withTable _) (hu.withTable _) _ _

end

/-- The output commands, listed (R93). -/
theorem isOutput_iff_mem (i : Instr) :
    isOutput i = true ↔ i ∈ [Instr.encode, .decode, .pack, .unpack, .serTable] := by
  cases i <;> decide

/-- Settles O34: states that agree on the operands have one result, and FREQ and the flags after the command determine
the tables that are valid. -/
theorem resultsDependOnTheOperandsOnly : Obligations.ResultsDependOnTheOperandsOnly := by
  intro i s u t v hs hu hinCap houtCap hinLen hinput hfreq htree hcodes hpending ht hv
  obtain ⟨herror, hflags, hfreq', hout⟩ :=
    SameOperands.exec ⟨hinCap, houtCap, hinLen, hinput, hfreq, htree, hcodes, hpending⟩ hs hu ht hv
  have hstatus : v.status = { t.status with overrun := u.status.overrun } := by
    obtain ⟨v', hv', hdone, -⟩ := everyCommandCompletes i u
    obtain rfl := Host.Outcome.next.inj (hv'.symm.trans hv)
    rw [← hdone.overrun]
    exact hflags
  refine ⟨herror, hstatus, hfreq', fun hi => hout ((isOutput_iff_mem i).2 hi),
    fun hvalid => ?_, fun hvalid => ?_⟩
  · exact (hs.exec ht).tree_eq (hu.exec hv) hfreq' hvalid
      ((congrArg Status.treeValid hstatus).trans hvalid)
  · exact (hs.exec ht).code_eq (hu.exec hv) hfreq' hvalid
      ((congrArg Status.codesValid hstatus).trans hvalid)

end Sys2Proof.Machine

/-! ### The hard reset, and that no step faults -/

namespace Sys2Proof.Machine

/-- While the turn is not the engine's, the step is the host's (R74). -/
theorem step_of_not_engineTurn {s : State} (h : s.engineTurn = false) : step s = s.hostStep := by
  rw [step, h]
  rfl

/-- The hard reset is carried out in one step (R300). -/
theorem hostStep_hardReset {s : State} {rest : List HostOp} (h : s.host = .hardReset :: rest) :
    s.hostStep = .next (s.advanceHost rest).hardReset := by
  rw [State.hostStep, h]

/-- A transaction during the reset has no step (R300, X1). -/
theorem hostStep_txnInReset {s : State} {x : Txn} {rest : List HostOp} (h : s.host = .txnInReset x :: rest) :
    s.hostStep = .refused .transactionDuringReset := by
  rw [State.hostStep, h]

theorem hardReset_buffersAny (s : State) : BuffersAny s.hardReset s.draws (s.draws + 1) :=
  { powerOn_buffersAny s.cfg s.draws with }

/-- Settles O48: the step is the platform's, and the hard reset leaves what the machine is powered on with. -/
theorem hardResetIsOneStep : Obligations.HardResetIsOneStep := by
  intro s rest hturn
  rw [step_of_not_engineTurn hturn]
  refine ⟨fun h => ?_, fun _ => hostStep_txnInReset⟩
  exact ⟨_, hostStep_hardReset h, hardReset_resetValues _, hardReset_buffersAny (s.advanceHost rest), rfl, rfl⟩

/-- The host and the platform have a next step, except for a transaction during the reset (R61, R97, R293, X1). -/
theorem hostStep_total (s : State) : (∃ t, s.hostStep = .next t) ∨ ∃ x rest, s.host = .txnInReset x :: rest := by
  cases h : s.host with
  | nil => exact .inl ⟨_, hostStep_nil h⟩
  | cons op rest =>
    cases op with
    | txn x => exact .inl ⟨_, hostStep_txn h⟩
    | wait => exact .inl ⟨_, hostStep_wait h⟩
    | hardReset => exact .inl ⟨_, hostStep_hardReset h⟩
    | txnInReset x => exact .inr ⟨x, rest, rfl⟩

/-- No transaction changes the parameters (R7). -/
theorem transact_cfg (s : State) (x : Txn) : (s.transact x).cfg = s.cfg := by
  obtain ⟨_, _, _, _, _, _, hx, -⟩ | ⟨_, _, -, -, hx⟩ | ⟨_, _, hx⟩ | ⟨_, _, hx⟩ := transact_inversion s x <;>
    rw [hx] <;> rfl

/-- Nor does any other move of the host or the platform. -/
theorem HostMove.cfg {s t : State} (h : HostMove s t) : t.cfg = s.cfg := by
  obtain rfl | ⟨x, rest, -, rfl⟩ | ⟨rest, addr, n, rfl⟩ | ⟨rest, -, rfl⟩ := h
  · rfl
  · exact transact_cfg (s.advanceHost rest) x
  · exact transact_cfg (s.advanceHost rest) _
  · rfl

/-- No step changes the parameters (R7, log entry 1). -/
theorem step_cfg {s t : State} (h : step s = .next t) : t.cfg = s.cfg := by
  obtain ⟨-, hm⟩ | hm := step_inversion h
  · exact hm.sameInputs.cfg
  · exact hm.cfg

/-- Settles O53: the engine always has a next state, and so has the host but for a transaction during the reset. -/
theorem stepsNeverFault : Obligations.StepsNeverFault := by
  intro s
  have moves {t : State} (h : step s = .next t) : ∃ t, step s = .next t ∧ t.cfg = s.cfg := ⟨t, h, step_cfg h⟩
  cases hturn : s.engineTurn with
  | true =>
    obtain ⟨t, ht⟩ := engineStep_total s
    exact .inl (moves (by rw [step, if_pos hturn, ht]))
  | false =>
    have hstep : step s = s.hostStep := step_of_not_engineTurn hturn
    obtain ⟨t, ht⟩ | ⟨x, rest, h⟩ := hostStep_total s
    · exact .inl (moves (hstep.trans ht))
    · exact .inr ⟨hstep.trans (hostStep_txnInReset h), x, rest, h⟩

end Sys2Proof.Machine
